-- ==== Sys2Proof/Word.lean ====
section
/-! DEFINITION. The word types of the HTB (00_scope.md rules R8, R10, R11). Every value is an unsigned number of the
width stated, bit 0 the least significant; nothing is ever sign-extended. -/

namespace Sys2Proof

/-- A 32-bit register or command word (rules R21, R70). -/
abbrev Word := BitVec 32

/-- A symbol, 0..255: `SYM_W` = 8 bits (rule R8). -/
abbrev Sym := BitVec 8

/-- One entry of the frequency table: `COUNT_W` = 32 bits (rule R8). -/
abbrev Count := BitVec 32

/-- The frequency of a node: `FREQ_W` = 40 bits (rule R8). -/
abbrev Freq := BitVec 40

/-- The index of a node slot, or a position in COLL as a command names it: 9 bits (rules R8, R72). -/
abbrev NodeIdx := BitVec 9

end Sys2Proof
end

