-- ==== Sys2Proof/Config.lean ====
section
/-! DEFINITION. The fixed parameters of the block (00_scope.md rule R8, 10_state.md rule R24), its OPEN parameters and
its free values. An OPEN parameter and a free value is a constant without a body: no proof can see what it is. -/

namespace Sys2Proof.Config

/-- `ALPHABET_SIZE` (rule R8; conflict C1 is settled for 256). -/
def alphabetSize : Nat := 256

/-- `NODE_MAX`: the node slots 0..510 (rule R8). -/
def nodeMax : Nat := 511

/-- `CODE_LEN_MAX`: the longest codeword that can be stored (rule R8). -/
def codeLenMax : Nat := 255

/-- The constant register `ID`, the bytes of "HUFF" (rule R24). -/
def idWord : Word := 0x48554646#32

/-- The constant register `PARAMS` (rule R24): FREQ_W, COUNT_W, seven zero bits, ALPHABET_SIZE. -/
def paramsWord : Word := 0x28200100#32

/-- OPEN parameter `HTB_BASE`: where the platform puts the 256-byte register space (20_memory.md rule R50). -/
opaque htbBase : Nat

/-- FREE VALUE: what the n-th host read of a register that rule R59 leaves open returns while BUSY = 1 ("any value
(a draw)"). `State.draws` counts the draws. Assumption log 3. -/
opaque busyDraw : Nat → Word

end Sys2Proof.Config
end

