-- ==== Sys2Proof/Syntax.lean ====
section
/-! DEFINITION. The instructions of the HTB are its commands: one constructor per row of the opcode map (30_encoding.md
rule R73, spec/opcode_table.json). The operands are typed by their fields (rule R72), so every term is a command. -/

namespace Sys2Proof

inductive Instr where
  /-- `NOP` (rule R150). -/
  | nop
  /-- `CLEAR` (rule R151). -/
  | clear
  /-- `COUNT s` (rule R91). -/
  | count (sym : Sym)
  /-- `LOAD_FREQ s` (rule R92); its count is PEND.DATA. -/
  | loadFreq (sym : Sym)
  /-- `READ_FREQ s` (rule R93). -/
  | readFreq (sym : Sym)
  /-- `SEED` (rule R100). -/
  | seed
  /-- `MERGE` (rule R103). -/
  | merge
  /-- `BUILD` (rule R104). -/
  | build
  /-- `BUILD_CODE` (rule R105). -/
  | buildCode
  /-- `ASSIGN` (rule R121). -/
  | assign
  /-- `READ_CODE s, w` (rule R122). -/
  | readCode (sym : Sym) (word : BitVec 3)
  /-- `DEC_RESET` (rule R130). -/
  | decReset
  /-- `DEC_BIT b` (rule R131); `false` is 0 = left, `true` is 1 = right. -/
  | decBit (bit : Bool)
  /-- `READ_NODE i` (rule R140). -/
  | readNode (idx : NodeIdx)
  /-- `READ_COLL k` (rule R141). -/
  | readColl (idx : NodeIdx)
  deriving DecidableEq, Repr

end Sys2Proof
end

