-- ==== Sys2Proof/WellFormed.lean ====
section
/-! DEFINITION. The assembler's commands and the check of their operands (30_encoding.md rules R71, R72, R79). A term of
`Instr` cannot hold an operand out of range; a command as a host writes it, a mnemonic with numbers, can. -/

namespace Sys2Proof

/-- The mnemonics of the opcode map (rule R73). -/
inductive Mnemonic where
  | nop | clear | count | loadFreq | readFreq | seed | merge | build | buildCode | assign | readCode | decReset | decBit
  | readNode | readColl
  deriving DecidableEq, Repr

/-- The five formats of rule R71: no operand, symbol, code word select, one bit, node or collection index. -/
inductive Format where
  | z | s | c | b | n
  deriving DecidableEq, Repr

/-- The format column of the opcode map (rule R73). -/
def Mnemonic.format : Mnemonic → Format
  | .nop | .clear | .seed | .merge | .build | .buildCode | .assign | .decReset => .z
  | .count | .loadFreq | .readFreq => .s
  | .readCode => .c
  | .decBit => .b
  | .readNode | .readColl => .n

/-- The mnemonic of a command. -/
def Instr.mnemonic : Instr → Mnemonic
  | .nop => .nop
  | .clear => .clear
  | .count _ => .count
  | .loadFreq _ => .loadFreq
  | .readFreq _ => .readFreq
  | .seed => .seed
  | .merge => .merge
  | .build => .build
  | .buildCode => .buildCode
  | .assign => .assign
  | .readCode _ _ => .readCode
  | .decReset => .decReset
  | .decBit _ => .decBit
  | .readNode _ => .readNode
  | .readColl _ => .readColl

/-- A command as the assembler takes it: "its mnemonic followed by its operands, separated by commas" (rule R79). -/
structure AsmCmd where
  mnemonic : Mnemonic
  operands : List Nat
  deriving DecidableEq, Repr

/-- The ranges of rule R79: "An operand outside its range is refused by the assembler: no word is produced." -/
def AsmCmd.wellFormed (c : AsmCmd) : Bool :=
  match c.mnemonic.format, c.operands with
  | .z, [] => true
  | .s, [s] => decide (s ≤ 255)
  | .c, [s, w] => decide (s ≤ 255) && decide (w ≤ 7)
  | .b, [b] => decide (b ≤ 1)
  | .n, [i] => decide (i ≤ 511)
  | _, _ => false

end Sys2Proof
end

