-- ==== Sys2Proof/Decode.lean ====
section
/-! DEFINITION. Decoding and encoding of command words (30_encoding.md). Every command is one 32-bit word; there is one
length (rules R70, R76), so the decoder takes the whole word. -/

namespace Sys2Proof

/-- `OPC` = w[31:24] (rule R70). -/
def opcOf (w : Word) : BitVec 8 := w.extractLsb' 24 8

/-- `SYM` = w[7:0] (rule R72). -/
def symOf (w : Word) : Sym := w.extractLsb' 0 8

/-- `WORD` = w[10:8] (rule R72). -/
def wordSelOf (w : Word) : BitVec 3 := w.extractLsb' 8 3

/-- `BIT` = w[0] (rule R72). -/
def bitOf (w : Word) : Bool := w.getLsbD 0

/-- `IDX` = w[8:0] (rule R72). -/
def idxOf (w : Word) : NodeIdx := w.extractLsb' 0 9

/-- A row of the opcode map: "A word w selects a command when (w AND mask) = match" (rule R73). -/
structure OpRow where
  mnemonic : Mnemonic
  pattern : Word
  mask : Word
  deriving DecidableEq, Repr

/-- The opcode map, its match and mask columns (rule R73). -/
def opcodeMap : List OpRow :=
  [ ⟨.nop,       0x00000000#32, 0xFFFFFFFF#32⟩,
    ⟨.clear,     0x01000000#32, 0xFFFFFFFF#32⟩,
    ⟨.count,     0x10000000#32, 0xFFFFFF00#32⟩,
    ⟨.loadFreq,  0x11000000#32, 0xFFFFFF00#32⟩,
    ⟨.readFreq,  0x12000000#32, 0xFFFFFF00#32⟩,
    ⟨.seed,      0x20000000#32, 0xFFFFFFFF#32⟩,
    ⟨.merge,     0x21000000#32, 0xFFFFFFFF#32⟩,
    ⟨.build,     0x22000000#32, 0xFFFFFFFF#32⟩,
    ⟨.buildCode, 0x23000000#32, 0xFFFFFFFF#32⟩,
    ⟨.assign,    0x30000000#32, 0xFFFFFFFF#32⟩,
    ⟨.readCode,  0x31000000#32, 0xFFFFF800#32⟩,
    ⟨.decReset,  0x40000000#32, 0xFFFFFFFF#32⟩,
    ⟨.decBit,    0x41000000#32, 0xFFFFFFFE#32⟩,
    ⟨.readNode,  0x50000000#32, 0xFFFFFE00#32⟩,
    ⟨.readColl,  0x51000000#32, 0xFFFFFE00#32⟩ ]

/-- (w AND row.mask) = row.match (rules R73, R74). -/
def OpRow.selects (r : OpRow) (w : Word) : Bool := w &&& r.mask == r.pattern

/-- The command of a row with "fields of w per row.format" (rule R74). -/
def instrOf (m : Mnemonic) (w : Word) : Instr :=
  match m with
  | .nop => .nop
  | .clear => .clear
  | .count => .count (symOf w)
  | .loadFreq => .loadFreq (symOf w)
  | .readFreq => .readFreq (symOf w)
  | .seed => .seed
  | .merge => .merge
  | .build => .build
  | .buildCode => .buildCode
  | .assign => .assign
  | .readCode => .readCode (symOf w) (wordSelOf w)
  | .decReset => .decReset
  | .decBit => .decBit (bitOf w)
  | .readNode => .readNode (idxOf w)
  | .readColl => .readColl (idxOf w)

/-- Why a word is `Illegal`: the two kinds of rule R75. Both complete with ILLEGAL_CMD. DEDUCED (assumption log 17), safe. -/
inductive DecodeError where
  /-- The OPC field is in no row of the opcode map. -/
  | unassignedOpcode
  /-- The OPC field is assigned and a reserved bit of its format is 1. -/
  | reservedBits
  deriving DecidableEq, Repr

/-- Decode, total on every 32-bit word (rule R74). -/
def decode (w : Word) : Except DecodeError Instr :=
  match opcodeMap.find? (fun r => r.selects w) with
  | some r => .ok (instrOf r.mnemonic w)
  | none =>
    .error (if opcodeMap.any (fun r => opcOf r.pattern == opcOf w) then .reservedBits else .unassignedOpcode)

/-- The OPC column of the opcode map (rule R73). -/
def Mnemonic.opc : Mnemonic → BitVec 8
  | .nop => 0x00#8
  | .clear => 0x01#8
  | .count => 0x10#8
  | .loadFreq => 0x11#8
  | .readFreq => 0x12#8
  | .seed => 0x20#8
  | .merge => 0x21#8
  | .build => 0x22#8
  | .buildCode => 0x23#8
  | .assign => 0x30#8
  | .readCode => 0x31#8
  | .decReset => 0x40#8
  | .decBit => 0x41#8
  | .readNode => 0x50#8
  | .readColl => 0x51#8

/-- The operand bits of a command in their format's places (rules R71, R79). -/
def operandBits : Instr → Word
  | .count s | .loadFreq s | .readFreq s => s.setWidth 32
  | .readCode s w => (w.setWidth 32 <<< 8) ||| s.setWidth 32
  | .decBit b => (BitVec.ofBool b).setWidth 32
  | .readNode i | .readColl i => i.setWidth 32
  | .nop | .clear | .seed | .merge | .build | .buildCode | .assign | .decReset => 0#32

/-- The assembler's map `enc` on a command: `(OPC << 24) OR` its operands (rule R79). -/
def encode (i : Instr) : Word := (i.mnemonic.opc.setWidth 32 <<< 24) ||| operandBits i

/-- The command a well-formed assembler term stands for; none where the assembler refuses it (rule R79). -/
def AsmCmd.toInstr (c : AsmCmd) : Option Instr :=
  if c.wellFormed then
    match c.mnemonic, c.operands with
    | .nop, _ => some .nop
    | .clear, _ => some .clear
    | .count, [s] => some (.count (BitVec.ofNat 8 s))
    | .loadFreq, [s] => some (.loadFreq (BitVec.ofNat 8 s))
    | .readFreq, [s] => some (.readFreq (BitVec.ofNat 8 s))
    | .seed, _ => some .seed
    | .merge, _ => some .merge
    | .build, _ => some .build
    | .buildCode, _ => some .buildCode
    | .assign, _ => some .assign
    | .readCode, [s, w] => some (.readCode (BitVec.ofNat 8 s) (BitVec.ofNat 3 w))
    | .decReset, _ => some .decReset
    | .decBit, [b] => some (.decBit (b == 1))
    | .readNode, [i] => some (.readNode (BitVec.ofNat 9 i))
    | .readColl, [i] => some (.readColl (BitVec.ofNat 9 i))
    | _, _ => none
  else none

/-- The assembler: the word of a well-formed command, and no word otherwise (rule R79). -/
def assemble (c : AsmCmd) : Option Word := c.toInstr.map encode

/-- The command the decoder reads from a table word of `nbits` bits (every row has 32); a word that needs more than 32 bits
is no command. DESIGN CHOICE (assumption log 22), safe. -/
def decodeTableWord (nbits w : Nat) : Option Instr :=
  if w % 2 ^ nbits < 2 ^ 32 then
    match decode (BitVec.ofNat 32 (w % 2 ^ nbits)) with
    | .ok i => some i
    | .error _ => none
  else none

end Sys2Proof
end

