-- ==== Sys2Proof/Machine/State.lean ====
section
/-! DEFINITION. The state of the HTB as plain data (10_state.md rule R20, one field per item), the host's side of the
machine (00_scope.md rule R7), the reasons a step can stop, and the state after reset (rule R44). -/

namespace Sys2Proof.Machine

/-- A fixed number of like entries: exactly n of them, in the order of their index. It is a list that carries its length (and
not a core `Vector`), so that two states are compared in one pass over the entries. -/
structure Table (α : Type) (n : Nat) where
  entries : List α
  size : entries.length = n
  deriving DecidableEq, Repr

/-- The table that holds one value everywhere. -/
def Table.fill {α : Type} (n : Nat) (a : α) : Table α n := ⟨List.replicate n a, List.length_replicate⟩

/-- STATUS.PHASE (rule R23). No rule produces the reserved values 4 to 7, so no term stands for them. DEDUCED (log 7), safe. -/
inductive Phase where
  /-- 0: the frequency table is being filled. -/
  | count
  /-- 1: leaves have been made, merging is in progress. -/
  | forest
  /-- 2: the collection holds one node, the root. -/
  | tree
  /-- 3: as `tree`, and CODE holds the codewords of this tree. -/
  | coded
  deriving DecidableEq, Repr

/-- The completion codes of STATUS.ERR (60_exceptions.md rule R160). No rule produces 7 to 15. DEDUCED (log 7), safe. -/
inductive ErrCode where
  | ok | emptyAlphabet | badPhase | illegalCmd | countOvf | badIndex | degenerate
  deriving DecidableEq, Repr

/-- A node record, the "tagged union with two variants" of rule R32. -/
inductive NodeRec where
  /-- KIND 0, Leaf. -/
  | leaf (sym : Sym) (freq : Freq)
  /-- KIND 1, Internal: it "exclusively owns exactly two children". -/
  | internal (left right : NodeIdx) (freq : Freq)
  deriving DecidableEq, Repr

/-- An entry of the code table (rule R39), the value as rule R13 stores it: the branch at the root is its top bit. -/
structure CodeEntry where
  valid : Bool
  len : BitVec 8
  val : BitVec 255
  deriving DecidableEq, Repr

/-- An entry of CODE that is clear: VALID = 0, LEN = 0, VAL = 0 (rules R39, R44). -/
def CodeEntry.clear : CodeEntry := ⟨false, 0#8, 0#255⟩

/-- PEND: the accepted command word and the DATA_IN latched with it (rule R41). -/
structure Pend where
  word : Word
  data : Word
  deriving DecidableEq, Repr

/-- One host bus access as the port carries it: write-enable, byte offset, byte enables, write data (70_reset_and_hazards.md
rule R180). -/
structure BusAccess where
  write : Bool
  off : BitVec 8
  byteEn : BitVec 4
  wdata : Word
  deriving DecidableEq, Repr

/-- A line of the host's script (30_encoding.md rules R78, R80), or an assertion of `rst` (rule R181). -/
inductive HostLine where
  /-- `wr OFF, V` or `rd OFF`. -/
  | access (a : BusAccess)
  /-- `poll`: repeat `rd STATUS` until BUSY reads 0. -/
  | poll
  /-- `rd STATUS`, then expect ERR to be this code (`check_ok` expects `ok`). -/
  | check (e : ErrCode)
  /-- `rd RESULT0` inside `read_code s`, "where LEN is RESULT0[7:0]": the data read decides how many lines follow. Log 26. -/
  | readLen (sym : Sym)
  /-- `rst` is asserted and released. -/
  | reset
  deriving DecidableEq, Repr

/-- The two agents of the model (rule R7). -/
inductive Agent where
  | host | engine
  deriving DecidableEq, Repr

/-- The reasons the machine can stop with a fault. -/
inductive Fault where
  /-- Raised by a host access that is narrow, misaligned or unmapped: the bus answers DECERR and "A Lean model treats such
  an access as a host fault" (20_memory.md rules R53, R54, R165). Safe: no claim covers a run that makes one (log 8). -/
  | decErr
  /-- Raised by a meaning that would read a NODE entry that "holds no value" (rule R32: "no command reads them"). Safe: no
  state that meets the invariants of rules R36 to R42 raises it (log 5). -/
  | nodeNoValue
  /-- Raised by SelectMin on an empty collection, which "requires COLL_LEN >= 1" (41_tree_builder.md rule R101). Safe: as
  above (log 9). -/
  | collEmpty
  /-- Raised by a merge that would allocate NODE[511], which does not exist (rules R8, R32). Safe: as above (log 9). -/
  | arenaFull
  /-- Raised by Visit at a depth over 255, where no codeword fits ("L never exceeds 255", 42_code_assigner.md rule R120).
  Safe: as above (log 10). -/
  | pathTooLong
  deriving DecidableEq, Repr

/-- The reasons an instruction can be refused. -/
inductive Refusal where
  /-- Raised by an arm of `exec` whose instruction has no meaning yet; no arm does. Safe. -/
  | notModelled (mnemonic : String)
  deriving DecidableEq, Repr

/-- The architectural state (rule R20), then the model's own fields for the host's side. -/
structure State where
  /-- DATA_IN (rule R25). -/
  dataIn : Word
  /-- STATUS.BUSY (rule R22). -/
  busy : Bool
  /-- STATUS.PHASE (rules R22, R23). -/
  phase : Phase
  /-- STATUS.OVR (rules R22, R58). -/
  ovr : Bool
  /-- STATUS.ERR (rules R22, R160). -/
  err : ErrCode
  /-- RESULT0 (rule R26). -/
  result0 : Word
  /-- RESULT1 (rule R26). -/
  result1 : Word
  /-- RESULT2 (rule R26). -/
  result2 : Word
  /-- FREQ[0..255] (rule R31). -/
  freq : Table Count 256
  /-- NODE[0..510] (rule R32); an entry that holds no value is `none`. -/
  node : Table (Option NodeRec) 511
  /-- NODE_CNT (rule R33). -/
  nodeCnt : NodeIdx
  /-- COLL and COLL_LEN (rule R34): the ordered sequence COLL[0..COLL_LEN-1]. -/
  coll : List NodeIdx
  /-- NLEAF (rule R35). -/
  nleaf : BitVec 9
  /-- ROOT_VALID (rule R28). -/
  rootValid : Bool
  /-- ROOT_IDX (rule R28). -/
  rootIdx : NodeIdx
  /-- CODE[0..255] (rule R39). -/
  code : Table CodeEntry 256
  /-- DEC_CUR (rule R40). -/
  decCur : NodeIdx
  /-- PEND (rule R41); read only while `busy`. -/
  pend : Pend
  /-- The model's own: what the host will still do, in its order (rules R62, R78). Log 2. -/
  script : List HostLine
  /-- The model's own: who moves next while both agents can (rule R62). Log 1. -/
  sched : List Agent
  /-- The model's own: the data of the host's reads, newest first. Log 18. -/
  reads : List Word
  /-- The model's own: a `check` line read another code than it expected. Log 18. -/
  missed : Bool
  /-- The model's own: how many free values rule R59 has drawn. Log 3. -/
  draws : Nat
  deriving DecidableEq, Repr

/-- The state after reset (rule R44). PEND "no value" is zero here (DESIGN CHOICE, log 4, unsafe); the model's own fields
are empty (DESIGN CHOICE, log 19, safe). -/
def State.reset : State where
  dataIn := 0#32
  busy := false
  phase := .count
  ovr := false
  err := .ok
  result0 := 0#32
  result1 := 0#32
  result2 := 0#32
  freq := Table.fill 256 0#32
  node := Table.fill 511 none
  nodeCnt := 0#9
  coll := []
  nleaf := 0#9
  rootValid := false
  rootIdx := 0#9
  code := Table.fill 256 CodeEntry.clear
  decCur := 0#9
  pend := ⟨0#32, 0#32⟩
  script := []
  sched := []
  reads := []
  missed := false
  draws := 0

end Sys2Proof.Machine
end

