-- ==== Sys2Proof/Machine/Ops.lean ====
section
/-! DEFINITION. The named operations over the state: the arrays' entries, the pseudocode primitives of 00_scope.md rule
R12, and the ONE way a command completes or is refused (20_memory.md rule R57, 60_exceptions.md rule R162). The HTB has no
trap and no return from one (rule R167): an error is a completion code, and `raiseCmdError` is all there is to take. -/

namespace Sys2Proof.Machine

/-- What a step of this machine answers. -/
abbrev Outcome := Host.Outcome State Fault Refusal

/-- How the body of a command ends early: by `raise CmdError(code)` (rule R12), or by a fault of the model. -/
inductive Halt where
  | cmdErr (e : ErrCode)
  | fault (f : Fault)
  deriving DecidableEq, Repr

/-- The body of `Execute`: it computes new values and takes effect only when the completion step applies them. -/
abbrev Exec (α : Type) := Except Halt α

/-- `raise CmdError(code)` in a body (rule R12). -/
def cmdError {α : Type} (e : ErrCode) : Exec α := .error (.cmdErr e)

/-- A fault of the model in a body. -/
def stop {α : Type} (f : Fault) : Exec α := .error (.fault f)

/-- Run a body and then the rest; the first that ends early ends it all. -/
def andThen {α β : Type} (x : Exec α) (f : α → Exec β) : Exec β :=
  match x with
  | .ok a => f a
  | .error h => .error h

/-- `complete(OK)`: "It sets STATUS.ERR to 0 and STATUS.BUSY to 0" (rules R12, R57). -/
def completeOk (s : State) : Outcome := .next { s with err := .ok, busy := false }

/-- The effect of an error: "STATUS.ERR <- code and STATUS.BUSY <- 0. No other state changes." (rule R162). -/
def raiseCmdError (e : ErrCode) (s : State) : Outcome := .next { s with err := e, busy := false }

/-- The end of the completion step of a command (rule R57): the writes of a body that succeeded are applied to the state;
"Writes made earlier in the same step's pseudocode are discarded" (rule R162) when it raised an error. -/
def completion (s : State) (r : Exec State) : Outcome :=
  match r with
  | .ok t => completeOk t
  | .error (.cmdErr e) => raiseCmdError e s
  | .error (.fault f) => .fault f

/-- Entry i of a table. -/
def Table.get {α : Type} {n : Nat} (t : Table α n) (i : Nat) (h : i < n) : α := t.entries[i]'(Nat.lt_of_lt_of_eq h t.size.symm)

/-- A table with entry i replaced. -/
def Table.set {α : Type} {n : Nat} (t : Table α n) (i : Nat) (a : α) : Table α n :=
  ⟨t.entries.set i a, List.length_set.trans t.size⟩

/-- FREQ[y] (rule R31). -/
def freqAt (s : State) (y : Sym) : Count := s.freq.get y.toNat y.isLt

/-- FREQ[y] <- c. -/
def setFreq (s : State) (y : Sym) (c : Count) : State := { s with freq := s.freq.set y.toNat c }

/-- Every FREQ[y] <- 0 (rule R100: the table "is discarded once leaves are created"). -/
def clearFreq (s : State) : State := { s with freq := Table.fill 256 0#32 }

/-- CODE[y] (rule R39). -/
def codeAt (s : State) (y : Sym) : CodeEntry := s.code.get y.toNat y.isLt

/-- A code table with entry y replaced. -/
def setCodeEntry (c : Table CodeEntry 256) (y : Sym) (e : CodeEntry) : Table CodeEntry 256 := c.set y.toNat e

/-- The code table with every entry clear (rules R39, R120). -/
def clearCode : Table CodeEntry 256 := Table.fill 256 CodeEntry.clear

/-- NODE[i] if the entry holds a value (rule R32); there is no NODE[511]. -/
def nodeAt (s : State) (i : NodeIdx) : Option NodeRec :=
  if h : i.toNat < 511 then s.node.get i.toNat h else none

/-- NODE[i] where the pseudocode reads it; an entry "at index NODE_CNT or above holds no value" (rule R32), and reading
one is a fault of the model (log 5). -/
def readNodeRec (s : State) (i : NodeIdx) : Exec NodeRec :=
  match nodeAt s i with
  | some r => .ok r
  | none => stop .nodeNoValue

/-- NODE[i] <- r; a write of NODE[511] is a fault of the model (log 9). -/
def writeNodeRec (s : State) (i : NodeIdx) (r : NodeRec) : Exec State :=
  if i.toNat < 511 then .ok { s with node := s.node.set i.toNat (some r) } else stop .arenaFull

/-- COLL_LEN (rule R34). -/
def collLen (s : State) : Nat := s.coll.length

/-- RESULT0..2 <- a, b, c: a read-type command "writes all three registers when it succeeds" (rule R26). -/
def writeResults (s : State) (a b c : Word) : State := { s with result0 := a, result1 := b, result2 := c }

/-- The collection holds one node, i: "that remaining node is the root" (rules R28, R40, R100, R102). -/
def becomeTree (s : State) (i : NodeIdx) : State :=
  { s with phase := .tree, rootValid := true, rootIdx := i, decCur := i }

/-- Byte k of a register's value: bits 8k+7..8k, little-endian (20_memory.md rule R55). -/
def registerByte (v : Word) (k : Nat) : BitVec 8 := v.extractLsb' (8 * k) 8

/-- The address of byte k of the register at `off` in a byte-addressed memory map (rule R55). -/
def byteAddress (off : BitVec 8) (k : Nat) : Nat := Config.htbBase + off.toNat + k

end Sys2Proof.Machine

namespace Sys2Proof.Config

/-- OPEN parameter behind `LAT(op, state)`: the cycles above 1 from acceptance to completion (rules R8, R186). -/
opaque latencyAboveOne : Word → Machine.State → Nat

/-- `LAT(op, state)`, "at least 1" (rule R8). No rule of the model reads it (rule R186). Log 12. -/
def latency (op : Word) (s : Machine.State) : Nat := latencyAboveOne op s + 1

end Sys2Proof.Config
end

