-- ==== Sys2Proof/Machine/Flags.lean ====
section
/-! DEFINITION. The fields the HTB has in place of condition flags (10_state.md rule R43): the register views STATUS, INFO,
ROOT and DECCUR, and the VALID, DONE and KIND bits of RESULT0 (30_encoding.md rule R77). Fields are written from bit 31
down, as `{a, b}` of rule R10. -/

namespace Sys2Proof.Machine

/-- The encoding of PHASE (rule R23). -/
def Phase.bits : Phase → BitVec 3
  | .count => 0#3
  | .forest => 1#3
  | .tree => 2#3
  | .coded => 3#3

/-- The completion codes (60_exceptions.md rule R160). -/
def ErrCode.bits : ErrCode → BitVec 4
  | .ok => 0#4
  | .emptyAlphabet => 1#4
  | .badPhase => 2#4
  | .illegalCmd => 3#4
  | .countOvf => 4#4
  | .badIndex => 5#4
  | .degenerate => 6#4

/-- STATUS (rule R22): 0 (31:12), ERR (11:8), 0 (7:5), OVR (4), PHASE (3:1), BUSY (0). -/
def statusWord (s : State) : Word :=
  0#20 ++ s.err.bits ++ 0#3 ++ BitVec.ofBool s.ovr ++ s.phase.bits ++ BitVec.ofBool s.busy

/-- INFO (rule R27): 0 (31:25), NODE_CNT (24:16), 0 (15:9), COLL_LEN (8:0). -/
def infoWord (s : State) : Word := 0#7 ++ s.nodeCnt ++ 0#7 ++ BitVec.ofNat 9 (collLen s)

/-- ROOT (rule R28): ROOT_VALID (31), 0 (30:25), NLEAF (24:16), 0 (15:9), ROOT_IDX (8:0). -/
def rootWord (s : State) : Word := BitVec.ofBool s.rootValid ++ 0#6 ++ s.nleaf ++ 0#7 ++ s.rootIdx

/-- DECCUR (rule R29): 0 (31:9), DEC_CUR (8:0). -/
def decCurWord (s : State) : Word := 0#23 ++ s.decCur

/-- STATUS as a host reads it while BUSY = 1 (20_memory.md rule R59): BUSY 1, OVR exact, every other bit from a draw. -/
def busyStatusWord (s : State) (draw : Word) : Word :=
  draw.extractLsb' 5 27 ++ BitVec.ofBool s.ovr ++ draw.extractLsb' 1 3 ++ 1#1

/-- Bits 31 and 7:0 of RESULT0, zeros between: the form of READ_CODE and DEC_BIT (rule R77). -/
def flaggedByte (flag : Bool) (b : BitVec 8) : Word := BitVec.ofBool flag ++ 0#23 ++ b

/-- RESULT0 of READ_NODE (44_inspection.md rule R140): a Leaf shows its symbol, an Internal node KIND = 1 and its children. -/
def nodeShape : NodeRec → Word
  | .leaf y _ => 0#1 ++ 0#22 ++ y.setWidth 9
  | .internal l r _ => 1#1 ++ 0#6 ++ r ++ 0#7 ++ l

/-- RESULT1 of the inspection commands: FREQ[31:0] (rules R140, R141). -/
def freqLow (f : Freq) : Word := f.extractLsb' 0 32

/-- RESULT2 of the inspection commands: zext_32(FREQ[39:32]) (rules R140, R141). -/
def freqHigh (f : Freq) : Word := (f.extractLsb' 32 8).setWidth 32

end Sys2Proof.Machine
end

