-- ==== Sys2Proof/Machine/Operands.lean ====
section
/-! DEFINITION. What a command's operands select (30_encoding.md rule R72): the latched count, a node record's fields, an
entry of the collection, a word of a codeword, a branch. No operand is sign-extended, scaled or shifted. -/

namespace Sys2Proof.Machine

/-- `DATA` = PEND.DATA (rule R72): DATA_IN as it was at acceptance. -/
def dataOperand (s : State) : Count := s.pend.data

/-- KIND of a record: 0 = Leaf, 1 = Internal (rule R32). -/
def NodeRec.isLeaf : NodeRec → Bool
  | .leaf _ _ => true
  | .internal _ _ _ => false

/-- SYM of a record; "For an Internal node it is 0" (rule R32). -/
def NodeRec.sym : NodeRec → Sym
  | .leaf y _ => y
  | .internal _ _ _ => 0#8

/-- LEFT of a record; "For a Leaf they are 0" (rule R32). -/
def NodeRec.left : NodeRec → NodeIdx
  | .leaf _ _ => 0#9
  | .internal l _ _ => l

/-- RIGHT of a record; "For a Leaf they are 0" (rule R32). -/
def NodeRec.right : NodeRec → NodeIdx
  | .leaf _ _ => 0#9
  | .internal _ r _ => r

/-- FREQ of a record (rule R32). -/
def NodeRec.freq : NodeRec → Freq
  | .leaf _ f => f
  | .internal _ _ f => f

/-- The child a bit chooses: "0 = left, 1 = right" (rules R72, R131). -/
def branch (b : Bool) (c : NodeRec) : NodeIdx := if b then c.right else c.left

/-- COLL[k], the position counted from 0; none at or above COLL_LEN (rules R14, R72, R141). -/
def collAt (s : State) (k : NodeIdx) : Option NodeIdx := s.coll[k.toNat]?

/-- zext_256(VAL)[32w + 31 : 32w] (42_code_assigner.md rule R122). -/
def valueWord (v : BitVec 255) (w : BitVec 3) : Word := (v.setWidth 256).extractLsb' (32 * w.toNat) 32

end Sys2Proof.Machine
end

