-- ==== Sys2Proof/Machine/Bus.lean ====
section
/-! DEFINITION. The host's register bus (20_memory.md; 10_state.md rule R21): which accesses are admitted, what a read
returns, what a write does, and how a command is accepted. -/

namespace Sys2Proof.Machine

/-- The mapped registers (rule R21). -/
inductive Reg where
  | cmd | dataIn | status | result0 | result1 | result2 | info | root | decCur | id | params
  deriving DecidableEq, Repr

/-- The byte offset of a register (rule R21). -/
def Reg.offset : Reg → BitVec 8
  | .cmd => 0x00#8
  | .dataIn => 0x04#8
  | .status => 0x08#8
  | .result0 => 0x0C#8
  | .result1 => 0x10#8
  | .result2 => 0x14#8
  | .info => 0x18#8
  | .root => 0x1C#8
  | .decCur => 0x20#8
  | .id => 0x24#8
  | .params => 0x28#8

/-- The registers in the order of their offsets. -/
def allRegs : List Reg :=
  [.cmd, .dataIn, .status, .result0, .result1, .result2, .info, .root, .decCur, .id, .params]

/-- The register at a byte offset; "Every offset not listed is unmapped" (rule R21). -/
def regAt (off : BitVec 8) : Option Reg := allRegs.find? (fun r => r.offset == off)

/-- The register an admitted access names: all four byte enables set, at a mapped offset, which is then a multiple of 4
(rules R53, R54). None when the access is not admitted. -/
def BusAccess.admitted (a : BusAccess) : Option Reg := if a.byteEn == 0xF#4 then regAt a.off else none

/-- The response of the bus (rule R180). -/
inductive Response where
  | okay | decErr
  deriving DecidableEq, Repr

/-- OKAY for an admitted access, DECERR for any other (rules R51 to R54); a dropped command gets OKAY (rule R58). -/
def BusAccess.response (a : BusAccess) : Response := if a.admitted.isSome then .okay else .decErr

/-- The value of a register (rules R22, R24 to R30). CMD reads 0. -/
def regValue (s : State) : Reg → Word
  | .cmd => 0#32
  | .dataIn => s.dataIn
  | .status => statusWord s
  | .result0 => s.result0
  | .result1 => s.result1
  | .result2 => s.result2
  | .info => infoWord s
  | .root => rootWord s
  | .decCur => decCurWord s
  | .id => Config.idWord
  | .params => Config.paramsWord

/-- The registers that read their exact value also while BUSY = 1 (rule R59). -/
def Reg.exactWhileBusy : Reg → Bool
  | .cmd | .dataIn | .id | .params => true
  | .status | .result0 | .result1 | .result2 | .info | .root | .decCur => false

/-- The value a host read returns (rules R51, R59). While BUSY = 1 STATUS has its BUSY and OVR bits exact and the other
registers left open return the next draw. -/
def readData (s : State) (r : Reg) : Word :=
  if s.busy && !r.exactWhileBusy then
    match r with
    | .status => busyStatusWord s (Config.busyDraw s.draws)
    | _ => Config.busyDraw s.draws
  else regValue s r

/-- The state after a host read: "Reads have no side effects on any state" (rule R51). The model's own record of the data
grows, and a read that took a draw counts it. -/
def afterRead (s : State) (r : Reg) : State :=
  { s with
    reads := readData s r :: s.reads,
    draws := if s.busy && !r.exactWhileBusy then s.draws + 1 else s.draws }

/-- Issue (rule R56): PEND.WORD <- w, PEND.DATA <- DATA_IN, STATUS.BUSY <- 1; nothing else changes. -/
def accept (w : Word) (s : State) : State := { s with pend := ⟨w, s.dataIn⟩, busy := true }

/-- Overrun (rule R58): the word is dropped and STATUS.OVR <- 1. -/
def overrun (s : State) : State := { s with ovr := true }

/-- The effect of a host write of a register (rule R52); writes of read-only registers are ignored. -/
def writeReg (r : Reg) (v : Word) (s : State) : State :=
  match r with
  | .cmd => if s.busy then overrun s else accept v s
  | .dataIn => { s with dataIn := v }
  | .status => if v.getLsbD 4 then { s with ovr := false } else s
  | .result0 | .result1 | .result2 | .info | .root | .decCur | .id | .params => s

/-- One host access: a read or a write of the register it names, or the fault DECERR (rules R51 to R54, R165). -/
def busAccess (a : BusAccess) (s : State) : Outcome :=
  match a.admitted with
  | none => .fault .decErr
  | some r => if a.write then .next (writeReg r a.wdata s) else .next (afterRead s r)

/-- Hardware reset (rule R181): every item takes its value of rule R44, also while BUSY = 1; a pending command is
abandoned. The host's side is not the HTB's and goes on. -/
def hardReset (s : State) : State :=
  { State.reset with script := s.script, sched := s.sched, reads := s.reads, missed := s.missed, draws := s.draws }

end Sys2Proof.Machine
end

