-- ==== Sys2Proof/Machine/CodeAssigner.lean ====
section
/-! DEFINITION. The CodeAssigner and its commands (42_code_assigner.md). -/

namespace Sys2Proof.Machine

/-- Visit(i, v, L) (rule R120), depth first, left before right, the path an explicit argument: `v` is the L-bit path value
with the first branch in its top bit. `levels` bounds the depth: it is the number of levels still allowed (log 10). -/
def visit (s : State) (levels : Nat) (i : NodeIdx) (v : BitVec 255) (len : BitVec 8) (c : Table CodeEntry 256) :
    Exec (Table CodeEntry 256) :=
  match levels with
  | 0 => stop .pathTooLong
  | levels + 1 =>
    andThen (readNodeRec s i) fun r =>
      match r with
      | .leaf y _ => .ok (setCodeEntry c y ⟨true, len, v⟩)
      | .internal l r _ =>
        andThen (visit s levels l (2#255 * v) (len + 1#8) c) fun c' =>
          visit s levels r (2#255 * v + 1#255) (len + 1#8) c'

/-- Assign() (rule R120): a cleared code table, then Visit from the root with the empty path. "L never exceeds 255", so
there are at most 256 levels. -/
def assign (s : State) : Exec State :=
  andThen (visit s (Config.codeLenMax + 1) s.rootIdx 0#255 0#8 clearCode) fun c =>
    .ok { s with code := c, phase := .coded }

/-- The body of ASSIGN (rule R121): legal in TREE and CODED. -/
def assignBody (s : State) : Exec State :=
  if s.phase ≠ .tree ∧ s.phase ≠ .coded then cmdError .badPhase else assign s

/-- ASSIGN: assign codewords to the finished tree (rule R121). -/
def execAssign (s : State) : Outcome := completion s (assignBody s)

/-- The body of READ_CODE s, w (rule R122). -/
def readCodeBody (y : Sym) (w : BitVec 3) (s : State) : Exec State :=
  if s.phase ≠ .coded then cmdError .badPhase
  else
    let e := codeAt s y
    .ok (writeResults s (flaggedByte e.valid e.len) (valueWord e.val w) 0#32)

/-- READ_CODE s, w: read the code table entry of symbol s, with word w of its value (rule R122). -/
def execReadCode (y : Sym) (w : BitVec 3) (s : State) : Outcome := completion s (readCodeBody y w s)

end Sys2Proof.Machine
end

