-- ==== Sys2Proof/Machine/Control.lean ====
section
/-! DEFINITION. The control commands (45_control.md). -/

namespace Sys2Proof.Machine

/-- NOP (rule R150): "do nothing"; it completes with ERR = 0. -/
def execNop (s : State) : Outcome := completion s (.ok s)

/-- The values CLEAR leaves (rules R44, R151): those of reset, but DATA_IN is unchanged. -/
def clearAll (s : State) : State :=
  { s with
    freq := Table.fill 256 0#32, code := clearCode, node := Table.fill 511 none, nodeCnt := 0#9, coll := [],
    nleaf := 0#9, rootValid := false, rootIdx := 0#9, decCur := 0#9, result0 := 0#32, result1 := 0#32, result2 := 0#32,
    phase := .count, ovr := false }

/-- CLEAR (rule R151): discard the tree, the code table and the frequency table, and return to phase COUNT. -/
def execClear (s : State) : Outcome := completion s (.ok (clearAll s))

end Sys2Proof.Machine
end

