-- ==== Sys2Proof/Machine/Decoder.lean ====
section
/-! DEFINITION. The tree-walk decoder (43_decoder.md). -/

namespace Sys2Proof.Machine

/-- The body of DEC_RESET (rule R130): legal in TREE and CODED. -/
def decResetBody (s : State) : Exec State :=
  if s.phase ≠ .tree ∧ s.phase ≠ .coded then cmdError .badPhase else .ok { s with decCur := s.rootIdx }

/-- DEC_RESET: put the decoder cursor back at the root (rule R130). -/
def execDecReset (s : State) : Outcome := completion s (decResetBody s)

/-- The cursor has moved to node j, whose record is `r` (rule R131): a Leaf is reported with DONE = 1 and the cursor goes
back to the root, an Internal node with DONE = 0 and the cursor stays there. -/
def decArrive (s : State) (j : NodeIdx) (r : NodeRec) : State :=
  match r with
  | .leaf y _ => { writeResults s (flaggedByte true y) (j.setWidth 32) 0#32 with decCur := s.rootIdx }
  | .internal _ _ _ => { writeResults s 0#32 (j.setWidth 32) 0#32 with decCur := j }

/-- The body of DEC_BIT b (rule R131). -/
def decBitBody (b : Bool) (s : State) : Exec State :=
  if s.phase ≠ .tree ∧ s.phase ≠ .coded then cmdError .badPhase
  else
    andThen (readNodeRec s s.rootIdx) fun root =>
      if root.isLeaf then cmdError .degenerate
      else
        andThen (readNodeRec s s.decCur) fun c =>
          andThen (readNodeRec s (branch b c)) fun r => .ok (decArrive s (branch b c) r)

/-- DEC_BIT b: follow one branch from the cursor; when a leaf is reached, report its symbol (rule R131). -/
def execDecBit (b : Bool) (s : State) : Outcome := completion s (decBitBody b s)

end Sys2Proof.Machine
end

