-- ==== Sys2Proof/Machine/Frequency.lean ====
section
/-! DEFINITION. The FrequencyTable commands (40_frequency.md). They are legal only in phase COUNT (rule R90). -/

namespace Sys2Proof.Machine

/-- The body of COUNT s (rule R91). -/
def countBody (y : Sym) (s : State) : Exec State :=
  if s.phase ≠ .count then cmdError .badPhase
  else if freqAt s y = 0xFFFFFFFF#32 then cmdError .countOvf
  else .ok (setFreq s y (freqAt s y + 1#32))

/-- COUNT s: count one occurrence of symbol s (rule R91). -/
def execCount (y : Sym) (s : State) : Outcome := completion s (countBody y s)

/-- The body of LOAD_FREQ s (rule R92): it replaces the count. -/
def loadFreqBody (y : Sym) (s : State) : Exec State :=
  if s.phase ≠ .count then cmdError .badPhase else .ok (setFreq s y (dataOperand s))

/-- LOAD_FREQ s: set the count of symbol s to the latched DATA_IN (rule R92). -/
def execLoadFreq (y : Sym) (s : State) : Outcome := completion s (loadFreqBody y s)

/-- The body of READ_FREQ s (rule R93). -/
def readFreqBody (y : Sym) (s : State) : Exec State :=
  if s.phase ≠ .count then cmdError .badPhase else .ok (writeResults s (freqAt s y) 0#32 0#32)

/-- READ_FREQ s: read the count of symbol s (rule R93). -/
def execReadFreq (y : Sym) (s : State) : Outcome := completion s (readFreqBody y s)

end Sys2Proof.Machine
end

