-- ==== Sys2Proof/Machine/Inspection.lean ====
section
/-! DEFINITION. The inspection commands (44_inspection.md), legal in every phase. -/

namespace Sys2Proof.Machine

/-- The body of READ_NODE i (rule R140). -/
def readNodeBody (i : NodeIdx) (s : State) : Exec State :=
  if s.nodeCnt ≤ i then cmdError .badIndex
  else
    andThen (readNodeRec s i) fun x =>
      .ok (writeResults s (nodeShape x) (freqLow x.freq) (freqHigh x.freq))

/-- READ_NODE i: read node record i (rule R140). -/
def execReadNode (i : NodeIdx) (s : State) : Outcome := completion s (readNodeBody i s)

/-- The body of READ_COLL k (rule R141): BAD_INDEX when k >= COLL_LEN. -/
def readCollBody (k : NodeIdx) (s : State) : Exec State :=
  match collAt s k with
  | none => cmdError .badIndex
  | some j =>
    andThen (readNodeRec s j) fun x =>
      .ok (writeResults s (j.setWidth 32) (freqLow x.freq) (freqHigh x.freq))

/-- READ_COLL k: read entry k of the working collection, in collection order (rule R141). -/
def execReadColl (k : NodeIdx) (s : State) : Outcome := completion s (readCollBody k s)

end Sys2Proof.Machine
end

