-- ==== Sys2Proof/Machine/TreeBuilder.lean ====
section
/-! DEFINITION. The TreeBuilder and its commands (41_tree_builder.md): the greedy merge of the two least-frequent nodes. -/

namespace Sys2Proof.Machine

/-- The symbols in ascending value, 0..255 (rule R100). -/
def allSyms : List Sym := (List.range 256).map (BitVec.ofNat 8)

/-- The present symbols, FREQ[y] >= 1, in ascending value (rules R31, R100). -/
def presentSyms (s : State) : List Sym := allSyms.filter (fun y => freqAt s y != 0#32)

/-- The Leaf of symbol y: FREQ = zext_40(FREQ[y]) (rule R100). -/
def leafOf (s : State) (y : Sym) : NodeRec := .leaf y ((freqAt s y).setWidth 40)

/-- NODE[k], NODE[k+1], ... <- the records in order; a slot above 510 does not exist and is not written. -/
def putNodes (v : Table (Option NodeRec) 511) (k : Nat) : List NodeRec → Table (Option NodeRec) 511
  | [] => v
  | r :: rs => putNodes (v.set k (some r)) (k + 1) rs

/-- The forest Seed makes of the present symbols `ys`: leaf k is NODE[k], COLL = [0..n-1], FREQ is cleared (rule R100). -/
def plant (s : State) (ys : List Sym) : State :=
  clearFreq { s with
    node := putNodes s.node 0 (ys.map (leafOf s)),
    coll := (List.range ys.length).map (BitVec.ofNat 9),
    nodeCnt := BitVec.ofNat 9 ys.length,
    nleaf := BitVec.ofNat 9 ys.length }

/-- Seed() (rule R100). With one leaf, "the sole leaf becomes the root directly". -/
def seed (s : State) : Exec State :=
  if s.phase ≠ .count then cmdError .badPhase
  else match presentSyms s with
    | [] => cmdError .emptyAlphabet
    | [y] => .ok (becomeTree (plant s [y]) 0#9)
    | ys => .ok { plant s ys with phase := .forest }

/-- SEED: make one Leaf per present symbol and form the working collection (rule R100). -/
def execSeed (s : State) : Outcome := completion s (seed s)

/-- The scan of SelectMin (rule R101) over the frequencies after the first: `b` is the best so far, at position `best`, and
`k` the next position. The comparison is strict: "an equal later node never wins". -/
def firstMin (b : Freq) (best k : Nat) : List Freq → Nat
  | [] => best
  | f :: fs => if f < b then firstMin f k (k + 1) fs else firstMin b best (k + 1) fs

/-- The frequencies of the nodes of a collection, in its order. -/
def freqsOf (s : State) : List NodeIdx → Exec (List Freq)
  | [] => .ok []
  | i :: is => andThen (readNodeRec s i) fun r => andThen (freqsOf s is) fun fs => .ok (r.freq :: fs)

/-- SelectMin() over a collection (rule R101): the position of the first node of least frequency. -/
def selectMin (s : State) (coll : List NodeIdx) : Exec Nat :=
  andThen (freqsOf s coll) fun fs =>
    match fs with
    | [] => stop .collEmpty
    | f :: fs => .ok (firstMin f 0 1 fs)

/-- k <- SelectMin() ; a <- COLL[k] ; remove_at(COLL, k) (rule R102): the node and what is left, in the same order. -/
def extractMin (s : State) (coll : List NodeIdx) : Exec (NodeIdx × List NodeIdx) :=
  andThen (selectMin s coll) fun k =>
    match coll[k]? with
    | some a => .ok (a, coll.eraseIdx k)
    | none => stop .collEmpty

/-- The tests at the end of a merge (rule R102, step 6): a collection of one node makes that node the root. -/
def stopIfOne (s : State) : State :=
  match s.coll with
  | [i] => becomeTree s i
  | _ => s

/-- MergeOne() (rule R102): the first extracted node is LEFT, the second RIGHT, the new node goes to the end of COLL. -/
def mergeOne (s : State) : Exec State :=
  andThen (extractMin s s.coll) fun x =>
    andThen (extractMin s x.2) fun y =>
      andThen (readNodeRec s x.1) fun ra =>
        andThen (readNodeRec s y.1) fun rb =>
          andThen (writeNodeRec s s.nodeCnt (.internal x.1 y.1 (ra.freq + rb.freq))) fun t =>
            .ok (stopIfOne { t with nodeCnt := s.nodeCnt + 1#9, coll := y.2 ++ [s.nodeCnt] })

/-- The body of MERGE (rule R103). -/
def mergeBody (s : State) : Exec State :=
  if s.phase ≠ .forest then cmdError .badPhase else mergeOne s

/-- MERGE: perform exactly one merge iteration (rule R103). -/
def execMerge (s : State) : Outcome := completion s (mergeBody s)

/-- `while COLL_LEN > 1: MergeOne()` (rule R104). Each call lowers COLL_LEN by exactly 1 (rule R102), so a bound of
COLL_LEN iterations is never what ends the loop. -/
def mergeAll (bound : Nat) (s : State) : Exec State :=
  match bound with
  | 0 => .ok s
  | bound + 1 => if 1 < collLen s then andThen (mergeOne s) (mergeAll bound) else .ok s

/-- The first part of Build() (rule R104): Seed in COUNT, nothing in FOREST, BAD_PHASE in TREE or CODED. -/
def buildStart (s : State) : Exec State :=
  match s.phase with
  | .count => seed s
  | .forest => .ok s
  | .tree => cmdError .badPhase
  | .coded => cmdError .badPhase

/-- Build() (rule R104). -/
def build (s : State) : Exec State := andThen (buildStart s) fun t => mergeAll (collLen t) t

/-- BUILD: run the TreeBuilder to completion (rule R104). -/
def execBuild (s : State) : Outcome := completion s (build s)

/-- BUILD_CODE: Build(), then Assign(), in one completion step (rule R105). -/
def execBuildCode (s : State) : Outcome := completion s (andThen (build s) assign)

end Sys2Proof.Machine
end

