-- ==== Sys2Proof/Machine/Dispatch.lean ====
section
/-! DEFINITION. The dispatch of a decoded command to its meaning: `Execute` of 20_memory.md rule R57. -/

namespace Sys2Proof.Machine

def exec (i : Instr) (s : State) : Host.Outcome State Fault Refusal :=
  match i with
  | .nop => Sys2Proof.Machine.execNop s
  | .clear => Sys2Proof.Machine.execClear s
  | .count sym => Sys2Proof.Machine.execCount sym s
  | .loadFreq sym => Sys2Proof.Machine.execLoadFreq sym s
  | .readFreq sym => Sys2Proof.Machine.execReadFreq sym s
  | .seed => Sys2Proof.Machine.execSeed s
  | .merge => Sys2Proof.Machine.execMerge s
  | .build => Sys2Proof.Machine.execBuild s
  | .buildCode => Sys2Proof.Machine.execBuildCode s
  | .assign => Sys2Proof.Machine.execAssign s
  | .readCode sym word => Sys2Proof.Machine.execReadCode sym word s
  | .decReset => Sys2Proof.Machine.execDecReset s
  | .decBit bit => Sys2Proof.Machine.execDecBit bit s
  | .readNode idx => Sys2Proof.Machine.execReadNode idx s
  | .readColl idx => Sys2Proof.Machine.execReadColl idx s

end Sys2Proof.Machine
end

