-- ==== Sys2Proof/Machine/Engine.lean ====
section
/-! DEFINITION. The engine's completion step and the choice of the agent that moves (20_memory.md rules R57, R62). -/

namespace Sys2Proof.Machine

/-- The completion step (rule R57): decode PEND.WORD and execute it; an illegal word is refused with ILLEGAL_CMD before
every other check (60_exceptions.md rule R163) and changes nothing else (30_encoding.md rule R74). -/
def completionStep (s : State) : Outcome :=
  match decode s.pend.word with
  | .ok i => exec i s
  | .error _ => raiseCmdError .illegalCmd s

/-- Who moves, and the state it moves from. -/
inductive Move where
  /-- The engine takes the completion step. -/
  | engine (s : State)
  /-- The host does its next line; the rest of its script is in the state. -/
  | host (l : HostLine) (s : State)
  /-- Nothing can move: BUSY = 0 and the host has no line left. -/
  | idle
  deriving DecidableEq, Repr

/-- "The engine takes no other step. It takes no step when BUSY = 0" (rule R57). While BUSY = 1 and the host has a line left,
either may move: the head of `sched` says which, and an empty schedule lets the engine move (rules R62, R187; log 1). -/
def nextMove (s : State) : Move :=
  match s.busy, s.script, s.sched with
  | false, [], _ => .idle
  | false, l :: rest, _ => .host l { s with script := rest }
  | true, [], _ => .engine s
  | true, _ :: _, [] => .engine s
  | true, _ :: _, .engine :: sched => .engine { s with sched := sched }
  | true, l :: rest, .host :: sched => .host l { s with script := rest, sched := sched }

/-- The word w of nbits bits accepted as a command (rule R56), with the engine the next to move. -/
def loadCommand (s : State) (nbits w : Nat) : State :=
  accept (BitVec.ofNat 32 (w % 2 ^ nbits))
    { s with sched := if s.script.isEmpty then s.sched else .engine :: s.sched }

end Sys2Proof.Machine
end

