-- ==== Sys2Proof/Machine/HostProgram.lean ====
section
/-! DEFINITION. Host programs: the lines and pseudo-instructions of the assembler (30_encoding.md rules R78, R80), and what one
line of the host's script does. -/

namespace Sys2Proof.Machine

/-- `wr OFF, V` is MemWrite(OFF, 4, V) (rule R78). -/
def wr (r : Reg) (v : Word) : HostLine := .access ⟨true, r.offset, 0xF#4, v⟩

/-- `rd OFF` is MemRead(OFF, 4) (rule R78). -/
def rd (r : Reg) : HostLine := .access ⟨false, r.offset, 0xF#4, 0#32⟩

/-- `do C`: `wr CMD, enc(C)` ; `poll` (rule R80). -/
def issue (c : Instr) : List HostLine := [wr .cmd (encode c), .poll]

/-- `load s, v`: `wr DATA_IN, v` ; `do LOAD_FREQ s` (rule R80). -/
def load (y : Sym) (v : Word) : List HostLine := wr .dataIn v :: issue (.loadFreq y)

/-- `count_str "t"`: `do COUNT c` for each byte c, in order (rule R80). -/
def countStr (t : List Sym) : List HostLine := t.flatMap (fun c => issue (.count c))

/-- `ack_ovr`: `wr STATUS, 0x10` (rule R80). -/
def ackOvr : HostLine := wr .status 0x10#32

/-- `check_ok`: `rd STATUS`, then expect ERR = 0 (rule R80). -/
def checkOk : HostLine := .check .ok

/-- What follows `rd RESULT0` in `read_code s`, for the LEN it has shown: `rd RESULT1`, then `do READ_CODE s, w` ; `rd RESULT1`
for w = 1 .. ceil(LEN/32) - 1 (rule R80). -/
def readCodeTail (y : Sym) (len : Nat) : List HostLine :=
  rd .result1 ::
    (List.range ((len + 31) / 32 - 1)).flatMap fun w => issue (.readCode y (BitVec.ofNat 3 (w + 1))) ++ [rd .result1]

/-- `read_code s` (rule R80): `do READ_CODE s, 0`, then the read of RESULT0, whose LEN decides the lines that follow. -/
def readCode (y : Sym) : List HostLine := issue (.readCode y 0#3) ++ [.readLen y]

/-- ERR as STATUS shows it: bits 11:8 (rule R22). -/
def errField (v : Word) : BitVec 4 := v.extractLsb' 8 4

/-- LEN as RESULT0 of READ_CODE shows it: bits 7:0 (rules R77, R80). -/
def lenField (v : Word) : Nat := (v.extractLsb' 0 8).toNat

/-- One line of the host's script, with the rest of the script already in `s.script` (30_encoding.md rules R78, R80): a poll
that reads BUSY = 1 is put back; a check notes whether ERR was the expected code; the read of LEN in `read_code` puts the lines
that follow it, as many as the LEN just read asks for, before the rest of the script. -/
def hostMove (l : HostLine) (s : State) : Outcome :=
  match l with
  | .access a => busAccess a s
  | .poll =>
    if (readData s .status).getLsbD 0 then .next { afterRead s .status with script := .poll :: s.script }
    else .next (afterRead s .status)
  | .check e => .next { afterRead s .status with missed := s.missed || errField (readData s .status) != e.bits }
  | .readLen y =>
    .next { afterRead s .result0 with script := readCodeTail y (lenField (readData s .result0)) ++ s.script }
  | .reset => .next (hardReset s)

end Sys2Proof.Machine
end

