-- ==== Sys2Proof/Machine/Step.lean ====
section
/-! DEFINITION. One step of the machine: a completion step of the engine or one line of the host, in the single total order
of 20_memory.md rule R62. -/

namespace Sys2Proof.Machine

/-- One step. When nothing can move the machine keeps its state: "While BUSY = 0 it does nothing" (60_exceptions.md rule
R175; log 15). -/
def step (s : State) : Host.Outcome State Fault Refusal :=
  match nextMove s with
  | .engine t => completionStep t
  | .host l t => hostMove l t
  | .idle => .next s

/-- The state in which a host write of CMD has just had this word accepted (rule R56): the HTB fetches no instructions,
"The next command is the next accepted host write of CMD" (10_state.md rule R43; log 2). -/
def State.withFetchWord (s : State) (nbits w : Nat) : State := loadCommand s nbits w

end Sys2Proof.Machine
end

