-- ==== Sys2Proof/Safety.lean ====
section
/-! DEFINITION. What claims are stated in: the invariants of 10_state.md section 4, the tables of 60_exceptions.md, runs of
commands and of the machine, and codewords as bit strings. Nothing here is read by the machine. -/

namespace Sys2Proof.Machine

/-! ### Tables of 60_exceptions.md -/

/-- The phase legality table (rule R164). -/
def legalIn (i : Instr) (p : Phase) : Bool :=
  match i, p with
  | .nop, _ | .clear, _ | .readNode _, _ | .readColl _, _ => true
  | .count _, .count | .loadFreq _, .count | .readFreq _, .count | .seed, .count => true
  | .merge, .forest => true
  | .build, .count | .build, .forest | .buildCode, .count | .buildCode, .forest => true
  | .assign, .tree | .assign, .coded => true
  | .readCode _ _, .coded => true
  | .decReset, .tree | .decReset, .coded | .decBit _, .tree | .decBit _, .coded => true
  | _, _ => false

/-- The nonzero codes a command can complete with (rule R160, column "raised by"). -/
def raisable : Instr → List ErrCode
  | .nop | .clear => []
  | .count _ => [.badPhase, .countOvf]
  | .loadFreq _ | .readFreq _ | .merge | .assign | .readCode _ _ | .decReset => [.badPhase]
  | .seed | .build | .buildCode => [.emptyAlphabet, .badPhase]
  | .decBit _ => [.badPhase, .degenerate]
  | .readNode _ | .readColl _ => [.badIndex]

/-- The read-type commands (rule R26). -/
def isReadType : Instr → Bool
  | .readFreq _ | .readCode _ _ | .decBit _ | .readNode _ | .readColl _ => true
  | _ => false

/-! ### The node arena and the collection -/

/-- The allocated records in index order. -/
def records (s : State) : List NodeRec := s.node.entries.filterMap id

/-- The symbols of the allocated leaves, in index order. -/
def leafSyms (s : State) : List Sym :=
  (records s).filterMap fun | .leaf y _ => some y | .internal _ _ _ => none

/-- The children of the allocated Internal nodes. -/
def children (s : State) : List NodeIdx :=
  (records s).flatMap fun | .leaf _ _ => [] | .internal l r _ => [l, r]

/-- NODE[i].FREQ as a number; 0 where the entry holds no value. -/
def freqNat (s : State) (i : NodeIdx) : Nat :=
  match nodeAt s i with
  | some r => r.freq.toNat
  | none => 0

/-- `a` is the first node of least frequency of the collection `c`, and `rest` is `c` without it in the same order: what
rule R101 selects and rule R102 removes, said without a scan. -/
def FirstLeast (s : State) (c : List NodeIdx) (a : NodeIdx) (rest : List NodeIdx) : Prop :=
  ∃ l r, c = l ++ a :: r ∧ rest = l ++ r ∧ (∀ b ∈ l, freqNat s a < freqNat s b) ∧ (∀ b ∈ r, freqNat s a ≤ freqNat s b)

/-- Entries 0..NODE_CNT-1 hold a value, the others hold none (rules R32, R33). -/
abbrev SlotsOk (s : State) : Prop := ∀ i : NodeIdx, (nodeAt s i).isSome = decide (i < s.nodeCnt)

/-- Rule R36: an Internal node's FREQ is the exact sum of its children's, a Leaf's is at least 1. -/
abbrev FreqSumOk (s : State) : Prop :=
  ∀ i : NodeIdx, ∀ r ∈ nodeAt s i,
    if r.isLeaf then 1 ≤ r.freq.toNat else r.freq.toNat = freqNat s r.left + freqNat s r.right

/-- Rule R37: no two allocated leaves have the same symbol. -/
abbrev SymsUnique (s : State) : Prop := (leafSyms s).Nodup

/-- Rule R38, first part: every allocated node stands exactly once among the entries of COLL and the children of the
Internal nodes taken together, and nothing else stands there. -/
abbrev OwnedOnce (s : State) : Prop :=
  (s.coll ++ children s).Perm ((List.range s.nodeCnt.toNat).map (BitVec.ofNat 9))

/-- Rule R38, last part, with rule R33: leaves lie below NLEAF, Internal nodes at or above it, and LEFT < i and RIGHT < i. -/
abbrev EdgesDown (s : State) : Prop :=
  ∀ i : NodeIdx, ∀ r ∈ nodeAt s i, if r.isLeaf then i < s.nleaf else s.nleaf ≤ i ∧ r.left < i ∧ r.right < i

/-- Rule R110: COLL is strictly increasing in node index. -/
abbrev CollSorted (s : State) : Prop := s.coll.Pairwise (· < ·)

/-- Every FREQ[y] is 0. -/
abbrev FreqZero (s : State) : Prop := s.freq = Table.fill 256 0#32

/-- "all CODE clear" (rule R42). -/
abbrev CodeClear (s : State) : Prop := s.code = clearCode

/-- VALID = 1 exactly for the symbols of the tree's leaves (rule R42, row CODED). -/
abbrev ValidExactlyLeaves (s : State) : Prop := ∀ y : Sym, (codeAt s y).valid = decide (y ∈ leafSyms s)

/-- The table of rule R42, with ROOT_IDX 0 while ROOT_VALID = 0 (rule R28). -/
abbrev PhaseTable (s : State) : Prop :=
  (s.phase = .count →
    s.nodeCnt = 0#9 ∧ s.coll = [] ∧ s.nleaf = 0#9 ∧ s.rootValid = false ∧ s.rootIdx = 0#9 ∧ CodeClear s) ∧
  (s.phase = .forest →
    s.nodeCnt.toNat = s.nleaf.toNat + (s.nleaf.toNat - s.coll.length) ∧ 2 ≤ s.coll.length ∧
      s.coll.length ≤ s.nleaf.toNat ∧ s.rootValid = false ∧ s.rootIdx = 0#9 ∧ FreqZero s ∧ CodeClear s) ∧
  (s.phase = .tree ∨ s.phase = .coded →
    s.nodeCnt.toNat + 1 = 2 * s.nleaf.toNat ∧ s.coll = [s.rootIdx] ∧ s.rootIdx.toNat + 1 = s.nodeCnt.toNat ∧
      1 ≤ s.nleaf.toNat ∧ s.rootValid = true ∧ FreqZero s) ∧
  (s.phase = .tree → CodeClear s) ∧
  (s.phase = .coded → ValidExactlyLeaves s)

/-- Rule R109 with rules R9 and R100: at most 256 leaves, each with a 32-bit count, and what stands in COLL weighs no more
than all counts together can. -/
abbrev WeightsBounded (s : State) : Prop :=
  s.nleaf.toNat ≤ 256 ∧ (s.coll.map (freqNat s)).sum ≤ s.nleaf.toNat * (2 ^ 32 - 1)

/-- The cursor (rules R40, R131): at the only node of a one-leaf tree, at an Internal node of any other finished tree. -/
abbrev CursorOk (s : State) : Prop :=
  s.rootValid = true →
    (nodeAt s s.rootIdx).isSome = true ∧
    (nodeAt s s.decCur).map NodeRec.isLeaf = (nodeAt s s.rootIdx).map NodeRec.isLeaf ∧
    ((nodeAt s s.rootIdx).map NodeRec.isLeaf = some true → s.decCur = s.rootIdx)

/-- In phase CODED "the code table holds the codewords of this tree" (rules R23, R120). -/
abbrev CodedByTree (s : State) : Prop :=
  s.phase = .coded → visit s (Config.codeLenMax + 1) s.rootIdx 0#255 0#8 clearCode = .ok s.code

/-- The invariant of the machine: rules R32, R33, R36 to R42, R109, R110 together. -/
structure Inv (s : State) : Prop where
  slots : SlotsOk s
  freqSum : FreqSumOk s
  symsUnique : SymsUnique s
  ownedOnce : OwnedOnce s
  edgesDown : EdgesDown s
  collSorted : CollSorted s
  phaseTable : PhaseTable s
  weights : WeightsBounded s
  cursor : CursorOk s
  coded : CodedByTree s

/-! ### The frequency table -/

/-- n: the number of present symbols (rule R16). -/
def presentCount (s : State) : Nat := allSyms.countP fun z => freqAt s z != 0#32

/-- How many present symbols lie below y: the index of y's leaf when leaves are made "in ascending symbol value" (rule R100). -/
def rankOf (s : State) (y : Sym) : Nat := allSyms.countP fun z => decide (z < y) && freqAt s z != 0#32

/-! ### Codewords as bit strings -/

/-- The node reached from node i along a path, "0 = left, 1 = right" (rule R13): none if the path leaves the tree. -/
def walk (s : State) (i : NodeIdx) : List Bool → Option NodeIdx
  | [] => some i
  | b :: p =>
    match nodeAt s i with
    | some (.internal l r _) => walk s (if b then r else l) p
    | _ => none

/-- val(c) = sum of ci * 2^(L-i) (rule R13). -/
def pathVal (p : List Bool) : Nat := p.foldl (fun v b => 2 * v + b.toNat) 0

/-- The bit string an entry of CODE stands for: bit LEN-1 of VAL first, down to bit 0 (rules R13, R132). -/
def codeBits (e : CodeEntry) : List Bool := (List.range e.len.toNat).map fun k => e.val.getLsbD (e.len.toNat - 1 - k)

/-- The weighted length of an assignment of lengths to the present symbols (rule R112). -/
def weightedLength (s : State) (len : Sym → Nat) : Nat := ((presentSyms s).map fun y => (freqAt s y).toNat * len y).sum

/-! ### Runs -/

/-- The commands one after the other, each completed before the next (rule R80 `do`). -/
def execSeq : List Instr → State → Outcome
  | [], s => .next s
  | i :: is, s =>
    match exec i s with
    | .next t => execSeq is t
    | .fault f => .fault f
    | .refused r => .refused r

/-- A state the machine comes to from reset under some script of the host and some schedule. -/
def Reachable (s : State) : Prop :=
  ∃ script sched n, Host.Core.run core n { State.reset with script := script, sched := sched } = .next s

/-- A line of the host that neither asserts `rst` nor is answered with DECERR. -/
def HostLine.isQuiet : HostLine → Bool
  | .access a => a.admitted.isSome
  | .poll => true
  | .check _ => true
  | .readLen _ => true
  | .reset => false

/-- End of a run (rule R188): the host has issued its last access and no command is pending. -/
def State.runEnded (s : State) : Bool := s.script.isEmpty && !s.busy

/-- A clean end of a run (rule R188): OVR = 0 and every ERR checked was the one expected; a run with a DECERR ends in a fault
and has no last state. -/
def State.clean (s : State) : Bool := s.runEnded && !s.ovr && !s.missed

end Sys2Proof.Machine
end

