-- ==== Sys2Proof/Certificates/Slice0/Obligations.lean ====
section
/-! DEFINITION. The statements for the provers, from the numbered rules of spec/. A command's whole frame is said as "the next
state is the old one with these fields replaced": every field not named is unchanged. -/

open Sys2Proof Sys2Proof.Machine

/-! ### Encoding (30_encoding.md) -/

/-- Words written out from rules R71, R73 and R79 decode to the commands they stand for, and words of rule R75 do not. -/
def Obligations.WordsDecodeAsWritten : Prop :=
  decode 0x11000061#32 = .ok (.loadFreq 0x61#8) ∧ decode 0x31000762#32 = .ok (.readCode 0x62#8 7#3) ∧
  decode 0x41000001#32 = .ok (.decBit true) ∧ decode 0x5000000A#32 = .ok (.readNode 10#9) ∧
  decode 0x23000000#32 = .ok .buildCode ∧ decode 0x10000100#32 = .error .reservedBits ∧
  decode 0x02000000#32 = .error .unassignedOpcode

/-- Rules R70 to R74, R79: no bit of an encoding is dropped. -/
def Obligations.DecodeOfEncodeIsTheCommand : Prop := ∀ i : Instr, decode (encode i) = .ok i

/-- Rules R70, R73 to R75: a word with a reserved bit set or an unassigned opcode is no command, so each command has one word,
and "No two rows match the same word". -/
def Obligations.DecodedWordIsItsEncoding : Prop :=
  (∀ (w : Word) (i : Instr), decode w = .ok i → encode i = w) ∧
  (∀ (w : Word) (a b : OpRow), a ∈ opcodeMap → b ∈ opcodeMap → a.selects w = true → b.selects w = true → a = b)

/-- Rule R74: decoding is total; an illegal word is accepted, and its completion step sets ERR and changes nothing else. -/
def Obligations.DecodeIsTotalAndIllegalWordsOnlySetErr : Prop :=
  ∀ w : Word,
    (∃ r ∈ opcodeMap, w &&& r.mask = r.pattern ∧ decode w = .ok (instrOf r.mnemonic w)) ∨
    ((∀ r ∈ opcodeMap, w &&& r.mask ≠ r.pattern) ∧
      ∀ s : State, s.busy = false →
        ∃ t, hostMove (wr .cmd w) s = .next t ∧ t = { s with pend := ⟨w, s.dataIn⟩, busy := true } ∧
          completionStep t = .next { t with err := .illegalCmd, busy := false })

/-- Rule R79: the assembler refuses operands out of range, and maps a command to OPC and its operands in their places. -/
def Obligations.AssemblerWordsAndRefusals : Prop :=
  ∀ c : AsmCmd,
    (c.wellFormed = false → assemble c = none) ∧
    (c.wellFormed = true →
      ∃ w, assemble c = some w ∧
        match c.operands with
        | [] => w.toNat = c.mnemonic.opc.toNat * 2 ^ 24
        | [a] => w.toNat = c.mnemonic.opc.toNat * 2 ^ 24 + a
        | [a, b] => w.toNat = c.mnemonic.opc.toNat * 2 ^ 24 + b * 2 ^ 8 + a
        | _ => False)

/-! ### Errors (60_exceptions.md) -/

/-- Rule R162: an error sets ERR and BUSY and nothing else, and the same command in that state gives the same error. -/
def Obligations.FailedCommandChangesOnlyErr : Prop :=
  ∀ (i : Instr) (s t : State), exec i s = .next t → t.err ≠ .ok →
    t = { s with err := t.err, busy := false } ∧ exec i t = .next t

/-- Rule R164 (the spec derives it from the command rules): BAD_PHASE exactly outside the legal phases, and the phase
transitions on success. -/
def Obligations.PhaseLegalityAndTransitions : Prop :=
  (∀ (i : Instr) (s : State),
    exec i s = .next { s with err := .badPhase, busy := false } ↔ legalIn i s.phase = false) ∧
  (∀ (i : Instr) (s t : State), Inv s → exec i s = .next t → t.err = .ok →
    match i with
    | .clear => t.phase = .count
    | .seed => (presentCount s = 1 → t.phase = .tree) ∧ (2 ≤ presentCount s → t.phase = .forest)
    | .merge => (s.coll.length = 2 → t.phase = .tree) ∧ (3 ≤ s.coll.length → t.phase = .forest)
    | .build => t.phase = .tree
    | .buildCode => t.phase = .coded
    | .assign => t.phase = .coded
    | _ => t.phase = s.phase)

/-- Rule R160, column "raised by": which command can complete with which code, and ILLEGAL_CMD exactly for illegal words. -/
def Obligations.OnlyListedCodesAreRaised : Prop :=
  (∀ (i : Instr) (s t : State), exec i s = .next t → t.err = .ok ∨ t.err ∈ raisable i) ∧
  (∀ (s t : State), completionStep s = .next t →
    (t.err = .illegalCmd ↔ ∀ r ∈ opcodeMap, s.pend.word &&& r.mask ≠ r.pattern))

/-- Rule R108: with every FREQ[s] = 0, SEED, BUILD and BUILD_CODE fail with EMPTY_ALPHABET and change nothing else. -/
def Obligations.EmptyAlphabetIsAFailure : Prop :=
  ∀ (i : Instr) (s : State), i = .seed ∨ i = .build ∨ i = .buildCode → s.phase = .count → (∀ y, freqAt s y = 0#32) →
    exec i s = .next { s with err := .emptyAlphabet, busy := false }

/-! ### Control (45_control.md) and reset (10_state.md rule R44) -/

/-- Rule R150: NOP completes and only clears ERR. -/
def Obligations.NopOnlyClearsErr : Prop :=
  decode 0x00000000#32 = .ok .nop ∧ ∀ s : State, exec .nop s = .next { s with err := .ok, busy := false }

/-- Rules R44, R151: CLEAR gives every item its reset value and leaves DATA_IN (and the host's side); the values after
reset, the column "after CLEAR", and the register views after reset. What PEND holds while BUSY = 0 is the model's choice
(log 4) and is not part of this. -/
def Obligations.ResetAndClearValues : Prop :=
  decode 0x01000000#32 = .ok .clear ∧
  (∀ s : State, ∃ t, exec .clear s = .next t ∧ t = { State.reset with
    dataIn := s.dataIn, pend := t.pend, script := s.script, sched := s.sched, reads := s.reads, missed := s.missed,
    draws := s.draws }) ∧
  (∀ t : State, (t = State.reset ∨ ∃ s, exec .clear s = .next t) →
    t.busy = false ∧ t.phase = .count ∧ t.ovr = false ∧ t.err = .ok ∧ t.result0 = 0#32 ∧ t.result1 = 0#32 ∧
    t.result2 = 0#32 ∧ (∀ y, freqAt t y = 0#32) ∧ (∀ i, nodeAt t i = none) ∧ t.nodeCnt = 0#9 ∧ collLen t = 0 ∧
    t.nleaf = 0#9 ∧ t.rootValid = false ∧ t.rootIdx = 0#9 ∧ (∀ y, codeAt t y = ⟨false, 0#8, 0#255⟩) ∧ t.decCur = 0#9) ∧
  State.reset.dataIn = 0#32 ∧
  (∀ r : Reg, readData State.reset r = match r with
    | .id => 0x48554646#32
    | .params => 0x28200100#32
    | _ => 0#32)

/-! ### FrequencyTable (40_frequency.md) -/

/-- Rule R91: COUNT adds one, fails with COUNT_OVF at 2^32 - 1, and with BAD_PHASE outside phase COUNT. -/
def Obligations.CountAddsOneOrReportsOverflow : Prop :=
  ∀ (y : Sym) (s : State),
    decode (0x10000000#32 ||| y.setWidth 32) = .ok (.count y) ∧
    (s.phase ≠ .count → exec (.count y) s = .next { s with err := .badPhase, busy := false }) ∧
    (s.phase = .count → (freqAt s y).toNat = 2 ^ 32 - 1 →
      exec (.count y) s = .next { s with err := .countOvf, busy := false }) ∧
    (s.phase = .count → (freqAt s y).toNat < 2 ^ 32 - 1 →
      ∃ t, exec (.count y) s = .next t ∧ (freqAt t y).toNat = (freqAt s y).toNat + 1 ∧
        (∀ z, z ≠ y → freqAt t z = freqAt s z) ∧ t = { s with freq := t.freq, err := .ok, busy := false })

/-- Rule R92: LOAD_FREQ replaces the count by the latched DATA_IN. -/
def Obligations.LoadFreqReplacesTheCount : Prop :=
  ∀ (y : Sym) (s : State),
    decode (0x11000000#32 ||| y.setWidth 32) = .ok (.loadFreq y) ∧
    (s.phase ≠ .count → exec (.loadFreq y) s = .next { s with err := .badPhase, busy := false }) ∧
    (s.phase = .count →
      ∃ t, exec (.loadFreq y) s = .next t ∧ freqAt t y = s.pend.data ∧ (∀ z, z ≠ y → freqAt t z = freqAt s z) ∧
        t = { s with freq := t.freq, err := .ok, busy := false })

/-- Rule R93: READ_FREQ shows the count in RESULT0 and 0 in the other two. -/
def Obligations.ReadFreqShowsTheCount : Prop :=
  ∀ (y : Sym) (s : State),
    decode (0x12000000#32 ||| y.setWidth 32) = .ok (.readFreq y) ∧
    (s.phase ≠ .count → exec (.readFreq y) s = .next { s with err := .badPhase, busy := false }) ∧
    (s.phase = .count →
      exec (.readFreq y) s =
        .next { s with result0 := freqAt s y, result1 := 0#32, result2 := 0#32, err := .ok, busy := false })

/-- Rule R94 (the spec's own inference from R90, R91): after COUNT x1 … COUNT xm from an all-zero table every entry is the
exact number of occurrences. -/
def Obligations.CountsTabulateTheInput : Prop :=
  ∀ (s : State) (xs : List Sym), s.phase = .count → (∀ y, freqAt s y = 0#32) → (∀ y, xs.count y < 2 ^ 32) →
    ∃ t, execSeq (xs.map .count) s = .next t ∧ (∀ y, (freqAt t y).toNat = xs.count y) ∧
      t = { s with freq := t.freq, err := t.err, busy := t.busy }

/-! ### TreeBuilder (41_tree_builder.md) -/

/-- Rule R100: SEED makes one Leaf per present symbol in ascending symbol value, COLL = [0..n-1], and clears FREQ. -/
def Obligations.SeedMakesOneLeafPerPresentSymbol : Prop :=
  decode 0x20000000#32 = .ok .seed ∧ ∀ s : State,
    (s.phase ≠ .count → exec .seed s = .next { s with err := .badPhase, busy := false }) ∧
    (s.phase = .count → presentCount s = 0 → exec .seed s = .next { s with err := .emptyAlphabet, busy := false }) ∧
    (s.phase = .count → 1 ≤ presentCount s →
      ∃ t, exec .seed s = .next t ∧
        (∀ y, freqAt s y ≠ 0#32 →
          nodeAt t (BitVec.ofNat 9 (rankOf s y)) = some (.leaf y ((freqAt s y).setWidth 40))) ∧
        (∀ i : NodeIdx, presentCount s ≤ i.toNat → nodeAt t i = nodeAt s i) ∧
        t.coll.map BitVec.toNat = List.range (presentCount s) ∧
        t.nodeCnt.toNat = presentCount s ∧ t.nleaf.toNat = presentCount s ∧ (∀ y, freqAt t y = 0#32) ∧
        (presentCount s = 1 → t.phase = .tree ∧ t.rootValid = true ∧ t.rootIdx = 0#9 ∧ t.decCur = 0#9) ∧
        (2 ≤ presentCount s →
          t.phase = .forest ∧ t.rootValid = s.rootValid ∧ t.rootIdx = s.rootIdx ∧ t.decCur = s.decCur) ∧
        t = { s with freq := t.freq, node := t.node, nodeCnt := t.nodeCnt, coll := t.coll, nleaf := t.nleaf,
                     phase := t.phase, rootValid := t.rootValid, rootIdx := t.rootIdx, decCur := t.decCur, err := .ok,
                     busy := false })

/-- Rule R107: one distinct symbol: no merge runs, its leaf is the root, its codeword is the empty string. -/
def Obligations.OneSymbolGetsTheEmptyCodeword : Prop :=
  ∀ (s : State) (y : Sym), s.phase = .count → freqAt s y ≠ 0#32 → (∀ z, z ≠ y → freqAt s z = 0#32) →
    (∃ t, exec .seed s = .next t ∧ nodeAt t 0#9 = some (.leaf y ((freqAt s y).setWidth 40)) ∧ t.phase = .tree ∧
      t.rootValid = true ∧ t.rootIdx = 0#9 ∧ t.nodeCnt = 1#9 ∧ t.err = .ok ∧ exec .build s = .next t) ∧
    (∃ t, exec .buildCode s = .next t ∧ t.err = .ok ∧ t.phase = .coded ∧ codeAt t y = ⟨true, 0#8, 0#255⟩ ∧
      ∀ z, z ≠ y → codeAt t z = ⟨false, 0#8, 0#255⟩)

/-- Rule R101: SelectMin gives the first position of the smallest frequency of the collection. -/
def Obligations.SelectMinIsTheFirstSmallest : Prop :=
  ∀ (s : State) (is : List NodeIdx), is ≠ [] → (∀ i ∈ is, (nodeAt s i).isSome = true) →
    ∃ k a, selectMin s is = .ok k ∧ is[k]? = some a ∧ (∀ b ∈ is, freqNat s a ≤ freqNat s b) ∧
      ∀ j b, j < k → is[j]? = some b → freqNat s a < freqNat s b

/-- Rules R102, R103: MERGE extracts the two least-frequent nodes, first minimum first, and appends their parent. -/
def Obligations.MergeJoinsTheTwoLeast : Prop :=
  decode 0x21000000#32 = .ok .merge ∧
  (∀ s : State, s.phase ≠ .forest → exec .merge s = .next { s with err := .badPhase, busy := false }) ∧
  (∀ s : State, Inv s → s.phase = .forest →
    ∃ t a b c d f, exec .merge s = .next t ∧ FirstLeast s s.coll a c ∧ FirstLeast s c b d ∧
      nodeAt t s.nodeCnt = some (.internal a b f) ∧ f.toNat = freqNat s a + freqNat s b ∧
      (∀ i, i ≠ s.nodeCnt → nodeAt t i = nodeAt s i) ∧ t.nodeCnt.toNat = s.nodeCnt.toNat + 1 ∧
      t.coll = d ++ [s.nodeCnt] ∧
      (d = [] → t.phase = .tree ∧ t.rootValid = true ∧ t.rootIdx = s.nodeCnt ∧ t.decCur = s.nodeCnt) ∧
      (d ≠ [] → t.phase = .forest ∧ t.rootValid = s.rootValid ∧ t.rootIdx = s.rootIdx ∧ t.decCur = s.decCur) ∧
      t = { s with node := t.node, nodeCnt := t.nodeCnt, coll := t.coll, phase := t.phase, rootValid := t.rootValid,
                   rootIdx := t.rootIdx, decCur := t.decCur, err := .ok, busy := false })

/-- Rules R104, R109: BUILD completes from COUNT with a present symbol and from FOREST, and leaves a finished tree. -/
def Obligations.BuildFinishesTheTree : Prop :=
  decode 0x22000000#32 = .ok .build ∧
  (∀ s : State, s.phase = .tree ∨ s.phase = .coded → exec .build s = .next { s with err := .badPhase, busy := false }) ∧
  (∀ s : State, s.phase = .count → presentCount s = 0 →
    exec .build s = .next { s with err := .emptyAlphabet, busy := false }) ∧
  ∀ s : State, Inv s → (s.phase = .count ∧ 1 ≤ presentCount s) ∨ s.phase = .forest →
    ∃ t, exec .build s = .next t ∧ t.phase = .tree ∧ t.rootValid = true ∧ t.coll = [t.rootIdx] ∧ t.decCur = t.rootIdx ∧
      (s.phase = .count → t.nleaf.toNat = presentCount s) ∧ (s.phase = .forest → t.nleaf = s.nleaf) ∧
      t.nodeCnt.toNat = 2 * t.nleaf.toNat - 1 ∧ t.rootIdx.toNat = 2 * t.nleaf.toNat - 2 ∧
      (∀ y, freqAt t y = 0#32) ∧ (∀ i r, nodeAt s i = some r → nodeAt t i = some r) ∧
      t = { s with freq := t.freq, node := t.node, nodeCnt := t.nodeCnt, coll := t.coll, nleaf := t.nleaf,
                   phase := t.phase, rootValid := t.rootValid, rootIdx := t.rootIdx, decCur := t.decCur, err := .ok,
                   busy := false }

/-- Rule R106 (the spec's own inference from R100 to R104): n leaves take exactly n - 1 merges, in any mix of MERGE and
BUILD, and give the same state. -/
def Obligations.BuildIsSeedAndMerges : Prop :=
  (∀ s : State, Inv s → s.phase = .count → 1 ≤ presentCount s →
    execSeq (.seed :: List.replicate (presentCount s - 1) .merge) s = exec .build s ∧
    (2 ≤ presentCount s → execSeq [.seed, .build] s = exec .build s)) ∧
  (∀ s : State, Inv s → s.phase = .forest →
    execSeq (List.replicate (s.coll.length - 1) .merge) s = exec .build s ∧
    ∀ k, k + 2 ≤ s.coll.length → execSeq (List.replicate k .merge ++ [.build]) s = exec .build s)

/-- Rule R105: BUILD_CODE is BUILD and then ASSIGN in one completion step. -/
def Obligations.BuildCodeIsBuildThenAssign : Prop :=
  decode 0x23000000#32 = .ok .buildCode ∧
  (∀ s : State, s.phase = .tree ∨ s.phase = .coded →
    exec .buildCode s = .next { s with err := .badPhase, busy := false }) ∧
  (∀ s : State, s.phase = .count → presentCount s = 0 →
    exec .buildCode s = .next { s with err := .emptyAlphabet, busy := false }) ∧
  ∀ s : State, Inv s → (s.phase = .count ∧ 1 ≤ presentCount s) ∨ s.phase = .forest →
    exec .buildCode s = execSeq [.build, .assign] s ∧
    ∃ t, exec .buildCode s = .next t ∧ t.phase = .coded ∧
      t = { s with freq := t.freq, node := t.node, nodeCnt := t.nodeCnt, coll := t.coll, nleaf := t.nleaf,
                   phase := t.phase, rootValid := t.rootValid, rootIdx := t.rootIdx, code := t.code, decCur := t.decCur,
                   err := .ok, busy := false }

/-- Rule R112, its identity ("from general knowledge"): the weighted length of the code is the sum of the frequencies of the
Internal nodes. -/
def Obligations.WeightedLengthIsTheInternalSum : Prop :=
  ∀ s t : State, Inv s → s.phase = .count → exec .buildCode s = .next t → t.err = .ok →
    weightedLength s (fun y => (codeAt t y).len.toNat) =
      ((records t).map fun r => if r.isLeaf then 0 else r.freq.toNat).sum

/-- Rule R112 ("Huffman's theorem"): no prefix-free assignment of bit strings to the present symbols has a smaller weighted
length. -/
def Obligations.CodeIsOptimal : Prop :=
  ∀ (s t : State) (c : Sym → List Bool), Inv s → s.phase = .count → exec .buildCode s = .next t → t.err = .ok →
    (∀ y z, freqAt s y ≠ 0#32 → freqAt s z ≠ 0#32 → y ≠ z → ¬ c y <+: c z) →
    weightedLength s (fun y => (codeAt t y).len.toNat) ≤ weightedLength s (fun y => (c y).length)

/-- Rule R113 (the spec's own inference from R112): a strictly more frequent symbol never gets a longer codeword. -/
def Obligations.MoreFrequentIsNotLonger : Prop :=
  ∀ (s t : State) (a b : Sym), Inv s → s.phase = .count → exec .buildCode s = .next t → t.err = .ok →
    freqAt s b ≠ 0#32 → freqAt s b < freqAt s a → (codeAt t a).len ≤ (codeAt t b).len

/-- Rule R114 (the spec's own inference from R100 to R102): two machines with the same FREQ table build the same tree,
collection and code table. -/
def Obligations.BuildDependsOnlyOnTheTable : Prop :=
  ∀ s t s' t' : State, Inv s → Inv t → s.phase = .count → t.phase = .count → s.freq = t.freq →
    exec .buildCode s = .next s' → exec .buildCode t = .next t' →
    s'.node = t'.node ∧ s'.coll = t'.coll ∧ s'.code = t'.code ∧ s'.nodeCnt = t'.nodeCnt ∧ s'.nleaf = t'.nleaf ∧
      s'.rootIdx = t'.rootIdx ∧ s'.err = t'.err

/-! ### CodeAssigner (42_code_assigner.md) -/

/-- Rules R120, R121: ASSIGN gives each leaf the path from the root, and clears every other entry. -/
def Obligations.AssignGivesEachLeafItsPath : Prop :=
  decode 0x30000000#32 = .ok .assign ∧
  (∀ s : State, s.phase ≠ .tree → s.phase ≠ .coded →
    exec .assign s = .next { s with err := .badPhase, busy := false }) ∧
  (∀ s : State, Inv s → s.phase = .tree ∨ s.phase = .coded →
    ∃ t, exec .assign s = .next t ∧
      (∀ p i y f, walk s s.rootIdx p = some i → nodeAt s i = some (.leaf y f) →
        p.length ≤ 255 ∧ pathVal p < 2 ^ p.length ∧
          codeAt t y = ⟨true, BitVec.ofNat 8 p.length, BitVec.ofNat 255 (pathVal p)⟩) ∧
      (∀ i y f, nodeAt s i = some (.leaf y f) → ∃ p, walk s s.rootIdx p = some i) ∧
      (∀ y, (∀ i f, nodeAt s i ≠ some (.leaf y f)) → codeAt t y = ⟨false, 0#8, 0#255⟩) ∧
      t = { s with code := t.code, phase := .coded, err := .ok, busy := false })

/-- Rule R122: READ_CODE shows VALID, LEN and word w of VAL. -/
def Obligations.ReadCodeShowsTheEntry : Prop :=
  ∀ (y : Sym) (w : BitVec 3) (s : State),
    decode (0x31000000#32 ||| (w.setWidth 32 <<< 8) ||| y.setWidth 32) = .ok (.readCode y w) ∧
    (s.phase ≠ .coded → exec (.readCode y w) s = .next { s with err := .badPhase, busy := false }) ∧
    (s.phase = .coded →
      ∃ t, exec (.readCode y w) s = .next t ∧
        t.result0.toNat = (codeAt s y).valid.toNat * 2 ^ 31 + (codeAt s y).len.toNat ∧
        t.result1.toNat = (codeAt s y).val.toNat / 2 ^ (32 * w.toNat) % 2 ^ 32 ∧
        t = { s with result0 := t.result0, result1 := t.result1, result2 := 0#32, err := .ok, busy := false })

/-- Rule R123: in phase CODED no codeword is a prefix of another. -/
def Obligations.CodewordsArePrefixFree : Prop :=
  ∀ (s : State) (y z : Sym), Inv s → s.phase = .coded → y ≠ z → (codeAt s y).valid = true → (codeAt s z).valid = true →
    ¬ codeBits (codeAt s y) <+: codeBits (codeAt s z)

/-- Rule R124 (the spec's own inference from R120, R100, R38): VALID = 1 exactly for the symbols present at the SEED that
began the tree, whichever commands followed. -/
def Obligations.CodeCoversExactlyThePresentSymbols : Prop :=
  ∀ (s t : State) (i : Instr) (is : List Instr), Inv s → s.phase = .count →
    i = .seed ∨ i = .build ∨ i = .buildCode → .clear ∉ is → 1 ≤ presentCount s → execSeq (i :: is) s = .next t →
    t.phase = .coded → ∀ y, (codeAt t y).valid = true ↔ freqAt s y ≠ 0#32

/-- Rule R125 ("from general knowledge"), for every n: the lengths of a finished code meet the Kraft sum with equality
(2^255 times the rule's sum). -/
def Obligations.KraftSumIsOne : Prop :=
  ∀ s : State, Inv s → s.phase = .coded →
    ((allSyms.filter fun y => (codeAt s y).valid).map fun y => 2 ^ (255 - (codeAt s y).len.toNat)).sum = 2 ^ 255

/-! ### Decoder (43_decoder.md) -/

/-- Rule R130: DEC_RESET puts the cursor at the root. -/
def Obligations.DecResetReturnsToTheRoot : Prop :=
  decode 0x40000000#32 = .ok .decReset ∧ ∀ s : State,
    (s.phase ≠ .tree → s.phase ≠ .coded → exec .decReset s = .next { s with err := .badPhase, busy := false }) ∧
    (s.phase = .tree ∨ s.phase = .coded →
      exec .decReset s = .next { s with decCur := s.rootIdx, err := .ok, busy := false })

/-- Rule R131: DEC_BIT follows one branch from the cursor and reports a leaf when it reaches one. -/
def Obligations.DecBitFollowsOneBranch : Prop :=
  decode 0x41000000#32 = .ok (.decBit false) ∧ decode 0x41000001#32 = .ok (.decBit true) ∧
  (∀ (b : Bool) (s : State), s.phase ≠ .tree → s.phase ≠ .coded →
    exec (.decBit b) s = .next { s with err := .badPhase, busy := false }) ∧
  (∀ (b : Bool) (s : State), Inv s → s.phase = .tree ∨ s.phase = .coded → s.nleaf = 1#9 →
    exec (.decBit b) s = .next { s with err := .degenerate, busy := false }) ∧
  (∀ (b : Bool) (s : State), Inv s → s.phase = .tree ∨ s.phase = .coded → s.nleaf ≠ 1#9 →
    ∃ l r f j, nodeAt s s.decCur = some (.internal l r f) ∧ j = (if b then r else l) ∧
      ((∃ y g t, nodeAt s j = some (.leaf y g) ∧ exec (.decBit b) s = .next t ∧ t.result0.toNat = 2 ^ 31 + y.toNat ∧
          t.result1.toNat = j.toNat ∧
          t = { s with result0 := t.result0, result1 := t.result1, result2 := 0#32, decCur := s.rootIdx, err := .ok,
                       busy := false }) ∨
       (∃ l' r' g t, nodeAt s j = some (.internal l' r' g) ∧ exec (.decBit b) s = .next t ∧ t.result1.toNat = j.toNat ∧
          t = { s with result0 := 0#32, result1 := t.result1, result2 := 0#32, decCur := j, err := .ok,
                       busy := false })))

/-- Rule R132 (the spec's own inference from R131, R120): from the root, the bits of a codeword, most significant first,
give its symbol with the last bit and no symbol before. -/
def Obligations.DecodingACodewordGivesItsSymbol : Prop :=
  ∀ (s : State) (y : Sym), Inv s → s.phase = .coded → 2 ≤ s.nleaf.toNat → s.decCur = s.rootIdx →
    (codeAt s y).valid = true →
    (∀ p q, codeBits (codeAt s y) = p ++ q → p ≠ [] → q ≠ [] →
      ∃ t, execSeq (p.map .decBit) s = .next t ∧ t.err = .ok ∧ t.result0.getLsbD 31 = false) ∧
    (∃ t, execSeq ((codeBits (codeAt s y)).map .decBit) s = .next t ∧ t.err = .ok ∧ t.result0.getLsbD 31 = true ∧
      t.result0.extractLsb' 0 8 = y ∧ t.decCur = s.rootIdx)

/-! ### Inspection (44_inspection.md) -/

/-- Rule R140: READ_NODE shows a record, or fails with BAD_INDEX at or above NODE_CNT. -/
def Obligations.ReadNodeShowsTheRecord : Prop :=
  (∀ i : NodeIdx, decode (0x50000000#32 ||| i.setWidth 32) = .ok (.readNode i)) ∧
  (∀ (i : NodeIdx) (s : State), s.nodeCnt ≤ i →
    exec (.readNode i) s = .next { s with err := .badIndex, busy := false }) ∧
  (∀ (i : NodeIdx) (s : State), Inv s → i < s.nodeCnt →
    ∃ x t, nodeAt s i = some x ∧ exec (.readNode i) s = .next t ∧
      t.result0.toNat = (match x with
        | .leaf y _ => y.toNat
        | .internal l r _ => 2 ^ 31 + r.toNat * 2 ^ 16 + l.toNat) ∧
      t.result1.toNat = x.freq.toNat % 2 ^ 32 ∧ t.result2.toNat = x.freq.toNat / 2 ^ 32 ∧
      t = { s with result0 := t.result0, result1 := t.result1, result2 := t.result2, err := .ok, busy := false })

/-- Rule R141: READ_COLL shows an entry of the collection and its frequency, or fails with BAD_INDEX at or above COLL_LEN. -/
def Obligations.ReadCollShowsTheEntry : Prop :=
  (∀ k : NodeIdx, decode (0x51000000#32 ||| k.setWidth 32) = .ok (.readColl k)) ∧
  (∀ (k : NodeIdx) (s : State), s.coll.length ≤ k.toNat →
    exec (.readColl k) s = .next { s with err := .badIndex, busy := false }) ∧
  (∀ (k : NodeIdx) (s : State), Inv s → k.toNat < s.coll.length →
    ∃ j x t, s.coll[k.toNat]? = some j ∧ nodeAt s j = some x ∧ exec (.readColl k) s = .next t ∧
      t.result0.toNat = j.toNat ∧ t.result1.toNat = x.freq.toNat % 2 ^ 32 ∧ t.result2.toNat = x.freq.toNat / 2 ^ 32 ∧
      t = { s with result0 := t.result0, result1 := t.result1, result2 := t.result2, err := .ok, busy := false })

/-! ### What commands leave alone (10_state.md) -/

/-- Rule R26: RESULT0..2 change only by the read-type commands and CLEAR; a failing command leaves them; unused words are 0.
-/
def Obligations.ResultsChangeOnlyByReadCommands : Prop :=
  (∀ (i : Instr) (s t : State), exec i s = .next t → (isReadType i = false ∧ i ≠ .clear) ∨ t.err ≠ .ok →
    t.result0 = s.result0 ∧ t.result1 = s.result1 ∧ t.result2 = s.result2) ∧
  (∀ s t : State, exec .clear s = .next t → t.result0 = 0#32 ∧ t.result1 = 0#32 ∧ t.result2 = 0#32) ∧
  (∀ (i : Instr) (s t : State), exec i s = .next t → t.err = .ok →
    match i with
    | .readFreq _ => t.result1 = 0#32 ∧ t.result2 = 0#32
    | .readCode _ _ | .decBit _ => t.result2 = 0#32
    | _ => True) ∧
  (∀ (v : Word) (s : State),
    hostMove (wr .result0 v) s = .next s ∧ hostMove (wr .result1 v) s = .next s ∧ hostMove (wr .result2 v) s = .next s)

/-- Rule R25: only the host writes DATA_IN, it reads back at any time, and an accepted command keeps the value it latched. -/
def Obligations.DataInBelongsToTheHost : Prop :=
  (∀ (i : Instr) (s t : State), exec i s = .next t → t.dataIn = s.dataIn) ∧
  (∀ (v : Word) (s : State),
    ∃ t, hostMove (wr .dataIn v) s = .next t ∧ t = { s with dataIn := v } ∧
      ∃ u, hostMove (rd .dataIn) t = .next u ∧ u = { t with reads := v :: t.reads }) ∧
  (∀ (w v : Word) (s : State), s.busy = false →
    ∃ t u, hostMove (wr .cmd w) s = .next t ∧ hostMove (wr .dataIn v) t = .next u ∧ u.pend = ⟨w, s.dataIn⟩ ∧
      ∀ y u', exec (.loadFreq y) u = .next u' → u'.err = .ok → freqAt u' y = s.dataIn) ∧
  State.reset.dataIn = 0#32

/-- Rule R39: only Assign (in ASSIGN and BUILD_CODE) and CLEAR write CODE; an entry that is not valid is clear, and the bits
of VAL at LEN and above are 0. -/
def Obligations.CodeTableEntriesAreWellFormed : Prop :=
  (∀ (i : Instr) (s t : State), exec i s = .next t → i ≠ .assign → i ≠ .buildCode → i ≠ .clear → t.code = s.code) ∧
  (∀ (s : State) (y : Sym), Inv s →
    ((codeAt s y).valid = false → (codeAt s y).len = 0#8 ∧ (codeAt s y).val = 0#255) ∧
      (codeAt s y).val.toNat < 2 ^ (codeAt s y).len.toNat)

/-- Rule R32: a node record is written once and is never changed until CLEAR. -/
def Obligations.NodeRecordsAreNeverChanged : Prop :=
  ∀ (i : Instr) (s t : State) (k : NodeIdx) (r : NodeRec), Inv s → exec i s = .next t → i ≠ .clear →
    nodeAt s k = some r → nodeAt t k = some r

/-- Rule R40: a completion step that sets ROOT_VALID also sets DEC_CUR to ROOT_IDX; otherwise only DEC_RESET, DEC_BIT and
CLEAR write DEC_CUR. -/
def Obligations.DecCurFollowsTheRoot : Prop :=
  (∀ (i : Instr) (s t : State), Inv s → exec i s = .next t → s.rootValid = false → t.rootValid = true →
    t.decCur = t.rootIdx) ∧
  (∀ (i : Instr) (s t : State), Inv s → exec i s = .next t → ¬ (s.rootValid = false ∧ t.rootValid = true) →
    i ≠ .decReset → (∀ b, i ≠ .decBit b) → i ≠ .clear → t.decCur = s.decCur) ∧
  (∀ s t : State, exec .clear s = .next t → t.decCur = 0#9) ∧ State.reset.decCur = 0#9

/-! ### Invariants (10_state.md section 4) -/

/-- Every step from a state that meets the invariant gives one that meets it. -/
def Obligations.StepKeepsTheInvariant : Prop := ∀ s t : State, Inv s → step s = .next t → Inv t

/-- The state after reset meets the invariant. -/
def Obligations.ResetMeetsTheInvariant : Prop := Inv State.reset

/-- From a state that meets the invariant no command stops the machine: the only fault is the host's own DECERR, and nothing
is refused (rules R53, R161). -/
def Obligations.OnlyTheHostCanFault : Prop :=
  (∀ (i : Instr) (s : State), Inv s → ∃ t, exec i s = .next t ∧ t.busy = false) ∧
  (∀ s : State, Inv s → (∃ t, step s = .next t) ∨ step s = .fault .decErr)

/-- Rule R36, in every state the machine comes to from reset under any host and any schedule. -/
def Obligations.FrequencySumsAreExact : Prop :=
  ∀ s : State, Reachable s → ∀ i : NodeIdx,
    (∀ l r f, nodeAt s i = some (.internal l r f) →
      ∃ a b, nodeAt s l = some a ∧ nodeAt s r = some b ∧ f.toNat = a.freq.toNat + b.freq.toNat) ∧
    (∀ y f, nodeAt s i = some (.leaf y f) → 1 ≤ f.toNat)

/-- Rules R37, R38: leaves have different symbols; every allocated node stands once, in COLL or as a child; edges go down. -/
def Obligations.NodesAreOwnedOnce : Prop :=
  ∀ s : State, Reachable s →
    (∀ i j y f g, nodeAt s i = some (.leaf y f) → nodeAt s j = some (.leaf y g) → i = j) ∧
    (∀ i : NodeIdx, i < s.nodeCnt → (s.coll ++ children s).count i = 1) ∧
    (∀ i l r f, nodeAt s i = some (.internal l r f) → l < i ∧ r < i)

/-- Rule R42 (the spec's own inference from the command rules), in every reachable state, whatever BUSY is. -/
def Obligations.PhasesHaveTheirCounts : Prop :=
  ∀ s : State, Reachable s →
    match s.phase with
    | .count =>
      s.nodeCnt.toNat = 0 ∧ s.coll.length = 0 ∧ s.nleaf.toNat = 0 ∧ s.rootValid = false ∧
        ∀ y, codeAt s y = ⟨false, 0#8, 0#255⟩
    | .forest =>
      s.nodeCnt.toNat = s.nleaf.toNat + (s.nleaf.toNat - s.coll.length) ∧ 2 ≤ s.coll.length ∧
        s.coll.length ≤ s.nleaf.toNat ∧ 2 ≤ s.nleaf.toNat ∧ s.rootValid = false ∧ (∀ y, freqAt s y = 0#32) ∧
        ∀ y, codeAt s y = ⟨false, 0#8, 0#255⟩
    | .tree =>
      s.nodeCnt.toNat = 2 * s.nleaf.toNat - 1 ∧ s.coll = [s.rootIdx] ∧ s.rootIdx.toNat = s.nodeCnt.toNat - 1 ∧
        1 ≤ s.nleaf.toNat ∧ s.rootValid = true ∧ (∀ y, freqAt s y = 0#32) ∧ ∀ y, codeAt s y = ⟨false, 0#8, 0#255⟩
    | .coded =>
      s.nodeCnt.toNat = 2 * s.nleaf.toNat - 1 ∧ s.coll = [s.rootIdx] ∧ s.rootIdx.toNat = s.nodeCnt.toNat - 1 ∧
        1 ≤ s.nleaf.toNat ∧ s.rootValid = true ∧ (∀ y, freqAt s y = 0#32) ∧
        ∀ y, (codeAt s y).valid = true ↔ ∃ i f, nodeAt s i = some (.leaf y f)

/-- Rule R109 (the spec's own inference from R100, R102, R106, R33), in every reachable state: the bounds of the collection,
and of the depth of every leaf of a finished tree. -/
def Obligations.TreeIsBounded : Prop :=
  ∀ s : State, Reachable s →
    s.coll.length ≤ s.nleaf.toNat ∧ s.nleaf.toNat ≤ 256 ∧
    (s.phase = .tree ∨ s.phase = .coded →
      s.nodeCnt.toNat = 2 * s.nleaf.toNat - 1 ∧ s.rootIdx.toNat = 2 * s.nleaf.toNat - 2 ∧
      ∀ p i y f, walk s s.rootIdx p = some i → nodeAt s i = some (.leaf y f) → p.length ≤ s.nleaf.toNat - 1)

/-- Rule R110 (the spec's own inference from R100 to R102), in every reachable state: COLL is strictly increasing in node
index, so SelectMin takes the smallest pair (FREQ, node index), and a leaf beats an Internal node of equal frequency. -/
def Obligations.CollectionOrderIsIndexOrder : Prop :=
  ∀ s : State, Reachable s →
    s.coll.Pairwise (· < ·) ∧
    (∀ k a, selectMin s s.coll = .ok k → s.coll[k]? = some a →
      ∀ b ∈ s.coll, b ≠ a → freqNat s a < freqNat s b ∨ (freqNat s a = freqNat s b ∧ a < b)) ∧
    (∀ i j y f l r g, nodeAt s i = some (.leaf y f) → nodeAt s j = some (.internal l r g) → i < j)

/-! ### The bus (20_memory.md) -/

/-- Rules R53, R54: exactly the narrow, misaligned and unmapped accesses are answered with DECERR, a host fault. -/
def Obligations.OnlyAdmittedAccessesSucceed : Prop :=
  ∀ (a : BusAccess) (s : State),
    ((a.byteEn ≠ 0xF#4 ∨ a.off.toNat % 4 ≠ 0 ∨ 0x2C ≤ a.off.toNat) →
      a.response = .decErr ∧ hostMove (.access a) s = .fault .decErr) ∧
    (a.byteEn = 0xF#4 → a.off.toNat % 4 = 0 → a.off.toNat < 0x2C →
      a.response = .okay ∧ ∃ t, hostMove (.access a) s = .next t)

/-- Rules R56, R58: a CMD write is accepted while BUSY = 0, and dropped with OVR = 1 while BUSY = 1. That the script holds the
host's lines is the model's choice (log 2), and so is that the host moves while BUSY = 1 when it heads the schedule, an entry
then used up (log 1). -/
def Obligations.CommandIsAcceptedOrDropped : Prop :=
  ∀ (w : Word) (s : State) (rest : List HostLine),
    (s.busy = false → s.script = wr .cmd w :: rest →
      step s = .next { s with pend := ⟨w, s.dataIn⟩, busy := true, script := rest }) ∧
    (∀ q, s.busy = true → s.script = wr .cmd w :: rest → s.sched = .host :: q →
      step s = .next { s with ovr := true, script := rest, sched := q })

/-- Rule R52: what a host write does, register by register; rule R22: STATUS clears OVR by bit 4 and nothing else. -/
def Obligations.HostWritesHaveTheirEffect : Prop :=
  ∀ (v : Word) (s : State),
    hostMove (wr .cmd v) s =
      .next (if s.busy then { s with ovr := true } else { s with pend := ⟨v, s.dataIn⟩, busy := true }) ∧
    hostMove (wr .dataIn v) s = .next { s with dataIn := v } ∧
    hostMove (wr .status v) s = .next { s with ovr := s.ovr && !v.getLsbD 4 } ∧
    ∀ r : Reg, r ≠ .cmd → r ≠ .dataIn → r ≠ .status → hostMove (wr r v) s = .next s

/-- Rules R22, R24, R27 to R30: the value of each register view while BUSY = 0, field by field as a number. -/
def Obligations.RegisterViewsShowTheState : Prop :=
  ∀ s : State, s.busy = false →
    (readData s .status).toNat =
      (match s.phase with | .count => 0 | .forest => 1 | .tree => 2 | .coded => 3) * 2 + s.ovr.toNat * 2 ^ 4 +
      (match s.err with
        | .ok => 0 | .emptyAlphabet => 1 | .badPhase => 2 | .illegalCmd => 3 | .countOvf => 4 | .badIndex => 5
        | .degenerate => 6) * 2 ^ 8 ∧
    (readData s .info).toNat = s.coll.length % 2 ^ 9 + s.nodeCnt.toNat * 2 ^ 16 ∧
    (readData s .root).toNat = s.rootIdx.toNat + s.nleaf.toNat * 2 ^ 16 + s.rootValid.toNat * 2 ^ 31 ∧
    (readData s .decCur).toNat = s.decCur.toNat ∧ readData s .cmd = 0#32 ∧ readData s .id = 0x48554646#32 ∧
    (readData s .params).toNat = 256 + 32 * 2 ^ 16 + 40 * 2 ^ 24 ∧ readData s .dataIn = s.dataIn ∧
    readData s .result0 = s.result0 ∧ readData s .result1 = s.result1 ∧ readData s .result2 = s.result2

/-- Rule R59: what a host read returns while BUSY = 1. That the registers left open read the same in any
two busy states that have drawn as often is the model's choice (log 3: the draw depends on the count of draws alone, "any
value" of R59); nothing is claimed of the value. -/
def Obligations.BusyReadsAreDraws : Prop :=
  ∀ s t : State, s.busy = true → t.busy = true → s.draws = t.draws →
    (readData s .status).getLsbD 0 = true ∧ (readData s .status).getLsbD 4 = s.ovr ∧
    (∀ k, k ≠ 4 → (readData s .status).getLsbD k = (readData t .status).getLsbD k) ∧
    readData s .dataIn = s.dataIn ∧ readData s .id = 0x48554646#32 ∧ readData s .params = 0x28200100#32 ∧
    readData s .cmd = 0#32 ∧
    ∀ r ∈ [Reg.result0, .result1, .result2, .info, .root, .decCur], readData s r = readData t r

/-- Rule R51: a read of a mapped register is answered with OKAY and the register's value, kept in the model's own record
`reads` (log 18); it changes nothing else, and while BUSY = 0 reading twice gives the same value. -/
def Obligations.ReadsHaveNoSideEffect : Prop :=
  ∀ (r : Reg) (s : State),
    BusAccess.response ⟨false, r.offset, 0xF#4, 0#32⟩ = .okay ∧
    ∃ t, hostMove (rd r) s = .next t ∧ t = { s with reads := readData s r :: s.reads, draws := t.draws } ∧
      (s.busy = false → t.draws = s.draws ∧ ∀ r', readData t r' = readData s r')

/-- Rule R181: reset at any time gives every item its reset value and abandons a pending command. PEND, which then has no
value, is not part of this. That rst is one line of the script and leaves the host's fields is the model's choice (log 14),
that the host moves while BUSY = 1 when it heads the schedule is log 1, and that a step with nothing to do keeps the state
is log 15. -/
def Obligations.ResetAbandonsTheCommand : Prop :=
  ∀ (s : State) (rest : List HostLine), s.script = .reset :: rest → s.busy = false ∨ (∃ q, s.sched = .host :: q) →
    ∃ t, step s = .next t ∧ t.busy = false ∧
      t = { State.reset with
        pend := t.pend, script := rest, sched := t.sched, reads := s.reads, missed := s.missed, draws := s.draws } ∧
      (rest = [] → step t = .next t)

/-- Rule R189: the host has no move, short of reset, that changes FREQ, NODE, COLL or CODE (or a counter, a result, the tree's
root or the cursor). -/
def Obligations.HostCannotWriteTheArrays : Prop :=
  ∀ (l : HostLine) (s t : State), hostMove l s = .next t → l ≠ .reset →
    t.freq = s.freq ∧ t.node = s.node ∧ t.coll = s.coll ∧ t.code = s.code ∧ t.nodeCnt = s.nodeCnt ∧ t.nleaf = s.nleaf ∧
    t.rootValid = s.rootValid ∧ t.rootIdx = s.rootIdx ∧ t.decCur = s.decCur ∧ t.phase = s.phase ∧ t.err = s.err ∧
    t.result0 = s.result0 ∧ t.result1 = s.result1 ∧ t.result2 = s.result2

/-! ### Steps (20_memory.md section 3, 70_reset_and_hazards.md) -/

/-- Rules R57, R62: when the engine moves, a step is exec of the decoded command; the schedule gives up the entry it used.
Rule R175: with no command pending and no access of the host, nothing changes. -/
def Obligations.StepRunsTheDecodedCommand : Prop :=
  ∀ (s : State) (i : Instr),
    (s.busy = true → decode s.pend.word = .ok i →
      (s.script = [] ∨ s.sched = [] → step s = exec i s) ∧
      (∀ l rest q, s.script = l :: rest → s.sched = .engine :: q → step s = exec i { s with sched := q })) ∧
    (∀ w : Nat, decode (BitVec.ofNat 32 w) = .ok i →
      step (s.withFetchWord 32 w) = exec i { s with pend := ⟨BitVec.ofNat 32 w, s.dataIn⟩, busy := true }) ∧
    (s.busy = false → s.script = [] → step s = .next s)

/-- Rules R63, R80: `do C` accepts C, lets it complete, and goes on when STATUS shows BUSY = 0. -/
def Obligations.DoIssuesAndWaits : Prop :=
  ∀ (s t : State) (c : Instr) (rest : List HostLine), s.busy = false → s.sched = [] → s.script = issue c ++ rest →
    exec c { s with pend := ⟨encode c, s.dataIn⟩, busy := true, script := .poll :: rest } = .next t →
    Host.Core.run core 3 s = .next { t with script := rest, reads := statusWord t :: t.reads }

/-- Rule R187: every accepted command completes, whatever the host does meanwhile short of reset and DECERR; the bound is the
schedule's length (the model's choice, log 1). -/
def Obligations.AcceptedCommandsComplete : Prop :=
  ∀ s : State, Inv s → s.busy = true → (∀ l ∈ s.script, l.isQuiet = true) →
    ∃ k t, k ≤ s.sched.length + 1 ∧ Host.Core.run core k s = .next t ∧ t.busy = false ∧ t.pend = s.pend
end

