-- ==== Sys2Proof/Laws/State.lean ====
section
/-! SUPPORT. One lemma per field per update of State, true by rfl: no proof needs to unfold a record update. -/

namespace Sys2Proof.Machine

/-! ### setFreq -/

@[simp] theorem setFreq_dataIn (s : State) (y : Sym) (c : Count) : (setFreq s y c).dataIn = s.dataIn := rfl
@[simp] theorem setFreq_busy (s : State) (y : Sym) (c : Count) : (setFreq s y c).busy = s.busy := rfl
@[simp] theorem setFreq_phase (s : State) (y : Sym) (c : Count) : (setFreq s y c).phase = s.phase := rfl
@[simp] theorem setFreq_ovr (s : State) (y : Sym) (c : Count) : (setFreq s y c).ovr = s.ovr := rfl
@[simp] theorem setFreq_err (s : State) (y : Sym) (c : Count) : (setFreq s y c).err = s.err := rfl
@[simp] theorem setFreq_result0 (s : State) (y : Sym) (c : Count) : (setFreq s y c).result0 = s.result0 := rfl
@[simp] theorem setFreq_result1 (s : State) (y : Sym) (c : Count) : (setFreq s y c).result1 = s.result1 := rfl
@[simp] theorem setFreq_result2 (s : State) (y : Sym) (c : Count) : (setFreq s y c).result2 = s.result2 := rfl
@[simp] theorem setFreq_freq (s : State) (y : Sym) (c : Count) : (setFreq s y c).freq = s.freq.set y.toNat c := rfl
@[simp] theorem setFreq_node (s : State) (y : Sym) (c : Count) : (setFreq s y c).node = s.node := rfl
@[simp] theorem setFreq_nodeCnt (s : State) (y : Sym) (c : Count) : (setFreq s y c).nodeCnt = s.nodeCnt := rfl
@[simp] theorem setFreq_coll (s : State) (y : Sym) (c : Count) : (setFreq s y c).coll = s.coll := rfl
@[simp] theorem setFreq_nleaf (s : State) (y : Sym) (c : Count) : (setFreq s y c).nleaf = s.nleaf := rfl
@[simp] theorem setFreq_rootValid (s : State) (y : Sym) (c : Count) : (setFreq s y c).rootValid = s.rootValid := rfl
@[simp] theorem setFreq_rootIdx (s : State) (y : Sym) (c : Count) : (setFreq s y c).rootIdx = s.rootIdx := rfl
@[simp] theorem setFreq_code (s : State) (y : Sym) (c : Count) : (setFreq s y c).code = s.code := rfl
@[simp] theorem setFreq_decCur (s : State) (y : Sym) (c : Count) : (setFreq s y c).decCur = s.decCur := rfl
@[simp] theorem setFreq_pend (s : State) (y : Sym) (c : Count) : (setFreq s y c).pend = s.pend := rfl
@[simp] theorem setFreq_script (s : State) (y : Sym) (c : Count) : (setFreq s y c).script = s.script := rfl
@[simp] theorem setFreq_sched (s : State) (y : Sym) (c : Count) : (setFreq s y c).sched = s.sched := rfl
@[simp] theorem setFreq_reads (s : State) (y : Sym) (c : Count) : (setFreq s y c).reads = s.reads := rfl
@[simp] theorem setFreq_missed (s : State) (y : Sym) (c : Count) : (setFreq s y c).missed = s.missed := rfl
@[simp] theorem setFreq_draws (s : State) (y : Sym) (c : Count) : (setFreq s y c).draws = s.draws := rfl

/-! ### clearFreq -/

@[simp] theorem clearFreq_dataIn (s : State) : (clearFreq s).dataIn = s.dataIn := rfl
@[simp] theorem clearFreq_busy (s : State) : (clearFreq s).busy = s.busy := rfl
@[simp] theorem clearFreq_phase (s : State) : (clearFreq s).phase = s.phase := rfl
@[simp] theorem clearFreq_ovr (s : State) : (clearFreq s).ovr = s.ovr := rfl
@[simp] theorem clearFreq_err (s : State) : (clearFreq s).err = s.err := rfl
@[simp] theorem clearFreq_result0 (s : State) : (clearFreq s).result0 = s.result0 := rfl
@[simp] theorem clearFreq_result1 (s : State) : (clearFreq s).result1 = s.result1 := rfl
@[simp] theorem clearFreq_result2 (s : State) : (clearFreq s).result2 = s.result2 := rfl
@[simp] theorem clearFreq_freq (s : State) : (clearFreq s).freq = Table.fill 256 0#32 := rfl
@[simp] theorem clearFreq_node (s : State) : (clearFreq s).node = s.node := rfl
@[simp] theorem clearFreq_nodeCnt (s : State) : (clearFreq s).nodeCnt = s.nodeCnt := rfl
@[simp] theorem clearFreq_coll (s : State) : (clearFreq s).coll = s.coll := rfl
@[simp] theorem clearFreq_nleaf (s : State) : (clearFreq s).nleaf = s.nleaf := rfl
@[simp] theorem clearFreq_rootValid (s : State) : (clearFreq s).rootValid = s.rootValid := rfl
@[simp] theorem clearFreq_rootIdx (s : State) : (clearFreq s).rootIdx = s.rootIdx := rfl
@[simp] theorem clearFreq_code (s : State) : (clearFreq s).code = s.code := rfl
@[simp] theorem clearFreq_decCur (s : State) : (clearFreq s).decCur = s.decCur := rfl
@[simp] theorem clearFreq_pend (s : State) : (clearFreq s).pend = s.pend := rfl
@[simp] theorem clearFreq_script (s : State) : (clearFreq s).script = s.script := rfl
@[simp] theorem clearFreq_sched (s : State) : (clearFreq s).sched = s.sched := rfl
@[simp] theorem clearFreq_reads (s : State) : (clearFreq s).reads = s.reads := rfl
@[simp] theorem clearFreq_missed (s : State) : (clearFreq s).missed = s.missed := rfl
@[simp] theorem clearFreq_draws (s : State) : (clearFreq s).draws = s.draws := rfl

/-! ### writeResults -/

@[simp] theorem writeResults_dataIn (s : State) (a b c : Word) : (writeResults s a b c).dataIn = s.dataIn := rfl
@[simp] theorem writeResults_busy (s : State) (a b c : Word) : (writeResults s a b c).busy = s.busy := rfl
@[simp] theorem writeResults_phase (s : State) (a b c : Word) : (writeResults s a b c).phase = s.phase := rfl
@[simp] theorem writeResults_ovr (s : State) (a b c : Word) : (writeResults s a b c).ovr = s.ovr := rfl
@[simp] theorem writeResults_err (s : State) (a b c : Word) : (writeResults s a b c).err = s.err := rfl
@[simp] theorem writeResults_result0 (s : State) (a b c : Word) : (writeResults s a b c).result0 = a := rfl
@[simp] theorem writeResults_result1 (s : State) (a b c : Word) : (writeResults s a b c).result1 = b := rfl
@[simp] theorem writeResults_result2 (s : State) (a b c : Word) : (writeResults s a b c).result2 = c := rfl
@[simp] theorem writeResults_freq (s : State) (a b c : Word) : (writeResults s a b c).freq = s.freq := rfl
@[simp] theorem writeResults_node (s : State) (a b c : Word) : (writeResults s a b c).node = s.node := rfl
@[simp] theorem writeResults_nodeCnt (s : State) (a b c : Word) : (writeResults s a b c).nodeCnt = s.nodeCnt := rfl
@[simp] theorem writeResults_coll (s : State) (a b c : Word) : (writeResults s a b c).coll = s.coll := rfl
@[simp] theorem writeResults_nleaf (s : State) (a b c : Word) : (writeResults s a b c).nleaf = s.nleaf := rfl
@[simp] theorem writeResults_rootValid (s : State) (a b c : Word) : (writeResults s a b c).rootValid = s.rootValid := rfl
@[simp] theorem writeResults_rootIdx (s : State) (a b c : Word) : (writeResults s a b c).rootIdx = s.rootIdx := rfl
@[simp] theorem writeResults_code (s : State) (a b c : Word) : (writeResults s a b c).code = s.code := rfl
@[simp] theorem writeResults_decCur (s : State) (a b c : Word) : (writeResults s a b c).decCur = s.decCur := rfl
@[simp] theorem writeResults_pend (s : State) (a b c : Word) : (writeResults s a b c).pend = s.pend := rfl
@[simp] theorem writeResults_script (s : State) (a b c : Word) : (writeResults s a b c).script = s.script := rfl
@[simp] theorem writeResults_sched (s : State) (a b c : Word) : (writeResults s a b c).sched = s.sched := rfl
@[simp] theorem writeResults_reads (s : State) (a b c : Word) : (writeResults s a b c).reads = s.reads := rfl
@[simp] theorem writeResults_missed (s : State) (a b c : Word) : (writeResults s a b c).missed = s.missed := rfl
@[simp] theorem writeResults_draws (s : State) (a b c : Word) : (writeResults s a b c).draws = s.draws := rfl

/-! ### becomeTree -/

@[simp] theorem becomeTree_dataIn (s : State) (i : NodeIdx) : (becomeTree s i).dataIn = s.dataIn := rfl
@[simp] theorem becomeTree_busy (s : State) (i : NodeIdx) : (becomeTree s i).busy = s.busy := rfl
@[simp] theorem becomeTree_phase (s : State) (i : NodeIdx) : (becomeTree s i).phase = .tree := rfl
@[simp] theorem becomeTree_ovr (s : State) (i : NodeIdx) : (becomeTree s i).ovr = s.ovr := rfl
@[simp] theorem becomeTree_err (s : State) (i : NodeIdx) : (becomeTree s i).err = s.err := rfl
@[simp] theorem becomeTree_result0 (s : State) (i : NodeIdx) : (becomeTree s i).result0 = s.result0 := rfl
@[simp] theorem becomeTree_result1 (s : State) (i : NodeIdx) : (becomeTree s i).result1 = s.result1 := rfl
@[simp] theorem becomeTree_result2 (s : State) (i : NodeIdx) : (becomeTree s i).result2 = s.result2 := rfl
@[simp] theorem becomeTree_freq (s : State) (i : NodeIdx) : (becomeTree s i).freq = s.freq := rfl
@[simp] theorem becomeTree_node (s : State) (i : NodeIdx) : (becomeTree s i).node = s.node := rfl
@[simp] theorem becomeTree_nodeCnt (s : State) (i : NodeIdx) : (becomeTree s i).nodeCnt = s.nodeCnt := rfl
@[simp] theorem becomeTree_coll (s : State) (i : NodeIdx) : (becomeTree s i).coll = s.coll := rfl
@[simp] theorem becomeTree_nleaf (s : State) (i : NodeIdx) : (becomeTree s i).nleaf = s.nleaf := rfl
@[simp] theorem becomeTree_rootValid (s : State) (i : NodeIdx) : (becomeTree s i).rootValid = true := rfl
@[simp] theorem becomeTree_rootIdx (s : State) (i : NodeIdx) : (becomeTree s i).rootIdx = i := rfl
@[simp] theorem becomeTree_code (s : State) (i : NodeIdx) : (becomeTree s i).code = s.code := rfl
@[simp] theorem becomeTree_decCur (s : State) (i : NodeIdx) : (becomeTree s i).decCur = i := rfl
@[simp] theorem becomeTree_pend (s : State) (i : NodeIdx) : (becomeTree s i).pend = s.pend := rfl
@[simp] theorem becomeTree_script (s : State) (i : NodeIdx) : (becomeTree s i).script = s.script := rfl
@[simp] theorem becomeTree_sched (s : State) (i : NodeIdx) : (becomeTree s i).sched = s.sched := rfl
@[simp] theorem becomeTree_reads (s : State) (i : NodeIdx) : (becomeTree s i).reads = s.reads := rfl
@[simp] theorem becomeTree_missed (s : State) (i : NodeIdx) : (becomeTree s i).missed = s.missed := rfl
@[simp] theorem becomeTree_draws (s : State) (i : NodeIdx) : (becomeTree s i).draws = s.draws := rfl

/-! ### plant -/

@[simp] theorem plant_dataIn (s : State) (ys : List Sym) : (plant s ys).dataIn = s.dataIn := rfl
@[simp] theorem plant_busy (s : State) (ys : List Sym) : (plant s ys).busy = s.busy := rfl
@[simp] theorem plant_phase (s : State) (ys : List Sym) : (plant s ys).phase = s.phase := rfl
@[simp] theorem plant_ovr (s : State) (ys : List Sym) : (plant s ys).ovr = s.ovr := rfl
@[simp] theorem plant_err (s : State) (ys : List Sym) : (plant s ys).err = s.err := rfl
@[simp] theorem plant_result0 (s : State) (ys : List Sym) : (plant s ys).result0 = s.result0 := rfl
@[simp] theorem plant_result1 (s : State) (ys : List Sym) : (plant s ys).result1 = s.result1 := rfl
@[simp] theorem plant_result2 (s : State) (ys : List Sym) : (plant s ys).result2 = s.result2 := rfl
@[simp] theorem plant_freq (s : State) (ys : List Sym) : (plant s ys).freq = Table.fill 256 0#32 := rfl
@[simp] theorem plant_node (s : State) (ys : List Sym) : (plant s ys).node = putNodes s.node 0 (ys.map (leafOf s)) := rfl
@[simp] theorem plant_nodeCnt (s : State) (ys : List Sym) : (plant s ys).nodeCnt = BitVec.ofNat 9 ys.length := rfl
@[simp] theorem plant_coll (s : State) (ys : List Sym) : (plant s ys).coll = (List.range ys.length).map (BitVec.ofNat 9) := rfl
@[simp] theorem plant_nleaf (s : State) (ys : List Sym) : (plant s ys).nleaf = BitVec.ofNat 9 ys.length := rfl
@[simp] theorem plant_rootValid (s : State) (ys : List Sym) : (plant s ys).rootValid = s.rootValid := rfl
@[simp] theorem plant_rootIdx (s : State) (ys : List Sym) : (plant s ys).rootIdx = s.rootIdx := rfl
@[simp] theorem plant_code (s : State) (ys : List Sym) : (plant s ys).code = s.code := rfl
@[simp] theorem plant_decCur (s : State) (ys : List Sym) : (plant s ys).decCur = s.decCur := rfl
@[simp] theorem plant_pend (s : State) (ys : List Sym) : (plant s ys).pend = s.pend := rfl
@[simp] theorem plant_script (s : State) (ys : List Sym) : (plant s ys).script = s.script := rfl
@[simp] theorem plant_sched (s : State) (ys : List Sym) : (plant s ys).sched = s.sched := rfl
@[simp] theorem plant_reads (s : State) (ys : List Sym) : (plant s ys).reads = s.reads := rfl
@[simp] theorem plant_missed (s : State) (ys : List Sym) : (plant s ys).missed = s.missed := rfl
@[simp] theorem plant_draws (s : State) (ys : List Sym) : (plant s ys).draws = s.draws := rfl

/-! ### clearAll -/

@[simp] theorem clearAll_dataIn (s : State) : (clearAll s).dataIn = s.dataIn := rfl
@[simp] theorem clearAll_busy (s : State) : (clearAll s).busy = s.busy := rfl
@[simp] theorem clearAll_phase (s : State) : (clearAll s).phase = .count := rfl
@[simp] theorem clearAll_ovr (s : State) : (clearAll s).ovr = false := rfl
@[simp] theorem clearAll_err (s : State) : (clearAll s).err = s.err := rfl
@[simp] theorem clearAll_result0 (s : State) : (clearAll s).result0 = 0#32 := rfl
@[simp] theorem clearAll_result1 (s : State) : (clearAll s).result1 = 0#32 := rfl
@[simp] theorem clearAll_result2 (s : State) : (clearAll s).result2 = 0#32 := rfl
@[simp] theorem clearAll_freq (s : State) : (clearAll s).freq = Table.fill 256 0#32 := rfl
@[simp] theorem clearAll_node (s : State) : (clearAll s).node = Table.fill 511 none := rfl
@[simp] theorem clearAll_nodeCnt (s : State) : (clearAll s).nodeCnt = 0#9 := rfl
@[simp] theorem clearAll_coll (s : State) : (clearAll s).coll = [] := rfl
@[simp] theorem clearAll_nleaf (s : State) : (clearAll s).nleaf = 0#9 := rfl
@[simp] theorem clearAll_rootValid (s : State) : (clearAll s).rootValid = false := rfl
@[simp] theorem clearAll_rootIdx (s : State) : (clearAll s).rootIdx = 0#9 := rfl
@[simp] theorem clearAll_code (s : State) : (clearAll s).code = clearCode := rfl
@[simp] theorem clearAll_decCur (s : State) : (clearAll s).decCur = 0#9 := rfl
@[simp] theorem clearAll_pend (s : State) : (clearAll s).pend = s.pend := rfl
@[simp] theorem clearAll_script (s : State) : (clearAll s).script = s.script := rfl
@[simp] theorem clearAll_sched (s : State) : (clearAll s).sched = s.sched := rfl
@[simp] theorem clearAll_reads (s : State) : (clearAll s).reads = s.reads := rfl
@[simp] theorem clearAll_missed (s : State) : (clearAll s).missed = s.missed := rfl
@[simp] theorem clearAll_draws (s : State) : (clearAll s).draws = s.draws := rfl

/-! ### accept -/

@[simp] theorem accept_dataIn (w : Word) (s : State) : (accept w s).dataIn = s.dataIn := rfl
@[simp] theorem accept_busy (w : Word) (s : State) : (accept w s).busy = true := rfl
@[simp] theorem accept_phase (w : Word) (s : State) : (accept w s).phase = s.phase := rfl
@[simp] theorem accept_ovr (w : Word) (s : State) : (accept w s).ovr = s.ovr := rfl
@[simp] theorem accept_err (w : Word) (s : State) : (accept w s).err = s.err := rfl
@[simp] theorem accept_result0 (w : Word) (s : State) : (accept w s).result0 = s.result0 := rfl
@[simp] theorem accept_result1 (w : Word) (s : State) : (accept w s).result1 = s.result1 := rfl
@[simp] theorem accept_result2 (w : Word) (s : State) : (accept w s).result2 = s.result2 := rfl
@[simp] theorem accept_freq (w : Word) (s : State) : (accept w s).freq = s.freq := rfl
@[simp] theorem accept_node (w : Word) (s : State) : (accept w s).node = s.node := rfl
@[simp] theorem accept_nodeCnt (w : Word) (s : State) : (accept w s).nodeCnt = s.nodeCnt := rfl
@[simp] theorem accept_coll (w : Word) (s : State) : (accept w s).coll = s.coll := rfl
@[simp] theorem accept_nleaf (w : Word) (s : State) : (accept w s).nleaf = s.nleaf := rfl
@[simp] theorem accept_rootValid (w : Word) (s : State) : (accept w s).rootValid = s.rootValid := rfl
@[simp] theorem accept_rootIdx (w : Word) (s : State) : (accept w s).rootIdx = s.rootIdx := rfl
@[simp] theorem accept_code (w : Word) (s : State) : (accept w s).code = s.code := rfl
@[simp] theorem accept_decCur (w : Word) (s : State) : (accept w s).decCur = s.decCur := rfl
@[simp] theorem accept_pend (w : Word) (s : State) : (accept w s).pend = ⟨w, s.dataIn⟩ := rfl
@[simp] theorem accept_script (w : Word) (s : State) : (accept w s).script = s.script := rfl
@[simp] theorem accept_sched (w : Word) (s : State) : (accept w s).sched = s.sched := rfl
@[simp] theorem accept_reads (w : Word) (s : State) : (accept w s).reads = s.reads := rfl
@[simp] theorem accept_missed (w : Word) (s : State) : (accept w s).missed = s.missed := rfl
@[simp] theorem accept_draws (w : Word) (s : State) : (accept w s).draws = s.draws := rfl

/-! ### overrun -/

@[simp] theorem overrun_dataIn (s : State) : (overrun s).dataIn = s.dataIn := rfl
@[simp] theorem overrun_busy (s : State) : (overrun s).busy = s.busy := rfl
@[simp] theorem overrun_phase (s : State) : (overrun s).phase = s.phase := rfl
@[simp] theorem overrun_ovr (s : State) : (overrun s).ovr = true := rfl
@[simp] theorem overrun_err (s : State) : (overrun s).err = s.err := rfl
@[simp] theorem overrun_result0 (s : State) : (overrun s).result0 = s.result0 := rfl
@[simp] theorem overrun_result1 (s : State) : (overrun s).result1 = s.result1 := rfl
@[simp] theorem overrun_result2 (s : State) : (overrun s).result2 = s.result2 := rfl
@[simp] theorem overrun_freq (s : State) : (overrun s).freq = s.freq := rfl
@[simp] theorem overrun_node (s : State) : (overrun s).node = s.node := rfl
@[simp] theorem overrun_nodeCnt (s : State) : (overrun s).nodeCnt = s.nodeCnt := rfl
@[simp] theorem overrun_coll (s : State) : (overrun s).coll = s.coll := rfl
@[simp] theorem overrun_nleaf (s : State) : (overrun s).nleaf = s.nleaf := rfl
@[simp] theorem overrun_rootValid (s : State) : (overrun s).rootValid = s.rootValid := rfl
@[simp] theorem overrun_rootIdx (s : State) : (overrun s).rootIdx = s.rootIdx := rfl
@[simp] theorem overrun_code (s : State) : (overrun s).code = s.code := rfl
@[simp] theorem overrun_decCur (s : State) : (overrun s).decCur = s.decCur := rfl
@[simp] theorem overrun_pend (s : State) : (overrun s).pend = s.pend := rfl
@[simp] theorem overrun_script (s : State) : (overrun s).script = s.script := rfl
@[simp] theorem overrun_sched (s : State) : (overrun s).sched = s.sched := rfl
@[simp] theorem overrun_reads (s : State) : (overrun s).reads = s.reads := rfl
@[simp] theorem overrun_missed (s : State) : (overrun s).missed = s.missed := rfl
@[simp] theorem overrun_draws (s : State) : (overrun s).draws = s.draws := rfl

/-! ### hardReset -/

@[simp] theorem hardReset_dataIn (s : State) : (hardReset s).dataIn = State.reset.dataIn := rfl
@[simp] theorem hardReset_busy (s : State) : (hardReset s).busy = State.reset.busy := rfl
@[simp] theorem hardReset_phase (s : State) : (hardReset s).phase = State.reset.phase := rfl
@[simp] theorem hardReset_ovr (s : State) : (hardReset s).ovr = State.reset.ovr := rfl
@[simp] theorem hardReset_err (s : State) : (hardReset s).err = State.reset.err := rfl
@[simp] theorem hardReset_result0 (s : State) : (hardReset s).result0 = State.reset.result0 := rfl
@[simp] theorem hardReset_result1 (s : State) : (hardReset s).result1 = State.reset.result1 := rfl
@[simp] theorem hardReset_result2 (s : State) : (hardReset s).result2 = State.reset.result2 := rfl
@[simp] theorem hardReset_freq (s : State) : (hardReset s).freq = State.reset.freq := rfl
@[simp] theorem hardReset_node (s : State) : (hardReset s).node = State.reset.node := rfl
@[simp] theorem hardReset_nodeCnt (s : State) : (hardReset s).nodeCnt = State.reset.nodeCnt := rfl
@[simp] theorem hardReset_coll (s : State) : (hardReset s).coll = State.reset.coll := rfl
@[simp] theorem hardReset_nleaf (s : State) : (hardReset s).nleaf = State.reset.nleaf := rfl
@[simp] theorem hardReset_rootValid (s : State) : (hardReset s).rootValid = State.reset.rootValid := rfl
@[simp] theorem hardReset_rootIdx (s : State) : (hardReset s).rootIdx = State.reset.rootIdx := rfl
@[simp] theorem hardReset_code (s : State) : (hardReset s).code = State.reset.code := rfl
@[simp] theorem hardReset_decCur (s : State) : (hardReset s).decCur = State.reset.decCur := rfl
@[simp] theorem hardReset_pend (s : State) : (hardReset s).pend = State.reset.pend := rfl
@[simp] theorem hardReset_script (s : State) : (hardReset s).script = s.script := rfl
@[simp] theorem hardReset_sched (s : State) : (hardReset s).sched = s.sched := rfl
@[simp] theorem hardReset_reads (s : State) : (hardReset s).reads = s.reads := rfl
@[simp] theorem hardReset_missed (s : State) : (hardReset s).missed = s.missed := rfl
@[simp] theorem hardReset_draws (s : State) : (hardReset s).draws = s.draws := rfl

/-! ### afterRead -/

@[simp] theorem afterRead_dataIn (s : State) (r : Reg) : (afterRead s r).dataIn = s.dataIn := rfl
@[simp] theorem afterRead_busy (s : State) (r : Reg) : (afterRead s r).busy = s.busy := rfl
@[simp] theorem afterRead_phase (s : State) (r : Reg) : (afterRead s r).phase = s.phase := rfl
@[simp] theorem afterRead_ovr (s : State) (r : Reg) : (afterRead s r).ovr = s.ovr := rfl
@[simp] theorem afterRead_err (s : State) (r : Reg) : (afterRead s r).err = s.err := rfl
@[simp] theorem afterRead_result0 (s : State) (r : Reg) : (afterRead s r).result0 = s.result0 := rfl
@[simp] theorem afterRead_result1 (s : State) (r : Reg) : (afterRead s r).result1 = s.result1 := rfl
@[simp] theorem afterRead_result2 (s : State) (r : Reg) : (afterRead s r).result2 = s.result2 := rfl
@[simp] theorem afterRead_freq (s : State) (r : Reg) : (afterRead s r).freq = s.freq := rfl
@[simp] theorem afterRead_node (s : State) (r : Reg) : (afterRead s r).node = s.node := rfl
@[simp] theorem afterRead_nodeCnt (s : State) (r : Reg) : (afterRead s r).nodeCnt = s.nodeCnt := rfl
@[simp] theorem afterRead_coll (s : State) (r : Reg) : (afterRead s r).coll = s.coll := rfl
@[simp] theorem afterRead_nleaf (s : State) (r : Reg) : (afterRead s r).nleaf = s.nleaf := rfl
@[simp] theorem afterRead_rootValid (s : State) (r : Reg) : (afterRead s r).rootValid = s.rootValid := rfl
@[simp] theorem afterRead_rootIdx (s : State) (r : Reg) : (afterRead s r).rootIdx = s.rootIdx := rfl
@[simp] theorem afterRead_code (s : State) (r : Reg) : (afterRead s r).code = s.code := rfl
@[simp] theorem afterRead_decCur (s : State) (r : Reg) : (afterRead s r).decCur = s.decCur := rfl
@[simp] theorem afterRead_pend (s : State) (r : Reg) : (afterRead s r).pend = s.pend := rfl
@[simp] theorem afterRead_script (s : State) (r : Reg) : (afterRead s r).script = s.script := rfl
@[simp] theorem afterRead_sched (s : State) (r : Reg) : (afterRead s r).sched = s.sched := rfl
@[simp] theorem afterRead_reads (s : State) (r : Reg) : (afterRead s r).reads = readData s r :: s.reads := rfl
@[simp] theorem afterRead_missed (s : State) (r : Reg) : (afterRead s r).missed = s.missed := rfl
@[simp] theorem afterRead_draws (s : State) (r : Reg) : (afterRead s r).draws = if s.busy && !r.exactWhileBusy then s.draws + 1 else s.draws := rfl

end Sys2Proof.Machine
end

