-- ==== Sys2Proof/Laws/Ops.lean ====
section
/-! SUPPORT. The laws of the shared operations: each says once everything its operation can do. -/

namespace Sys2Proof.Machine

/-! ### Bodies and completion -/

@[simp] theorem andThen_ok {α β : Type} (a : α) (f : α → Exec β) : andThen (.ok a) f = f a := rfl

@[simp] theorem andThen_error {α β : Type} (h : Halt) (f : α → Exec β) : andThen (.error h) f = .error h := rfl

theorem andThen_eq_ok {α β : Type} {x : Exec α} {f : α → Exec β} {b : β} :
    andThen x f = .ok b ↔ ∃ a, x = .ok a ∧ f a = .ok b := by
  cases x <;> simp

theorem andThen_eq_error {α β : Type} {x : Exec α} {f : α → Exec β} {h : Halt} :
    andThen x f = .error h ↔ x = .error h ∨ ∃ a, x = .ok a ∧ f a = .error h := by
  cases x <;> simp

theorem andThen_assoc {α β γ : Type} (x : Exec α) (f : α → Exec β) (g : β → Exec γ) :
    andThen (andThen x f) g = andThen x fun a => andThen (f a) g := by
  cases x <;> rfl

@[simp] theorem completion_ok (s t : State) : completion s (.ok t) = .next { t with err := .ok, busy := false } := rfl

@[simp] theorem completion_cmdError (s : State) (e : ErrCode) :
    completion s (cmdError e) = .next { s with err := e, busy := false } := rfl

@[simp] theorem completion_stop (s : State) (f : Fault) : completion s (stop f) = .fault f := rfl

/-- A completion step that gives a next state either applied its body's writes with ERR = 0, or changed ERR and BUSY only. -/
theorem completion_next {s t : State} {r : Exec State} (h : completion s r = .next t) :
    (∃ u, r = .ok u ∧ t = { u with err := .ok, busy := false }) ∨
    (∃ e, r = cmdError e ∧ t = { s with err := e, busy := false }) := by
  match r, h with
  | .ok u, h => exact .inl ⟨u, rfl, by simpa using h.symm⟩
  | .error (.cmdErr e), h => exact .inr ⟨e, rfl, by simpa [completion, raiseCmdError] using h.symm⟩
  | .error (.fault f), h => simp [completion] at h

theorem completion_fault {s : State} {r : Exec State} {f : Fault} (h : completion s r = .fault f) : r = stop f := by
  match r, h with
  | .ok u, h => simp at h
  | .error (.cmdErr e), h => simp [completion, raiseCmdError] at h
  | .error (.fault g), h => simpa [completion, stop] using h

theorem completion_not_refused (s : State) (r : Exec State) (q : Refusal) : completion s r ≠ .refused q := by
  match r with
  | .ok u => simp
  | .error (.cmdErr e) => simp [completion, raiseCmdError]
  | .error (.fault g) => simp [completion]

/-! ### Tables -/

@[simp] theorem Table.get_fill {α : Type} (n : Nat) (a : α) (i : Nat) (h : i < n) : (Table.fill n a).get i h = a := by
  simp [Table.get, Table.fill]

@[simp] theorem Table.get_set_self {α : Type} {n : Nat} (t : Table α n) (i : Nat) (a : α) (h : i < n) :
    (t.set i a).get i h = a := by
  simp [Table.get, Table.set]

theorem Table.get_set_ne {α : Type} {n : Nat} (t : Table α n) (i j : Nat) (a : α) (h : j < n) (hij : i ≠ j) :
    (t.set i a).get j h = t.get j h := by
  simp [Table.get, Table.set, hij]

/-- Two tables with the same entries are equal. -/
theorem Table.eq_of_get {α : Type} {n : Nat} {t u : Table α n} (h : ∀ i (hi : i < n), t.get i hi = u.get i hi) :
    t = u := by
  obtain ⟨l, hl⟩ := t
  obtain ⟨m, hm⟩ := u
  have : l = m := List.ext_getElem (hl.trans hm.symm) fun i h1 _ => h i (hl ▸ h1)
  subst this
  rfl

/-! ### FREQ and CODE entries -/

@[simp] theorem freqAt_setFreq_self (s : State) (y : Sym) (c : Count) : freqAt (setFreq s y c) y = c :=
  Table.get_set_self _ _ _ _

theorem freqAt_setFreq_ne (s : State) (y z : Sym) (c : Count) (h : z ≠ y) :
    freqAt (setFreq s y c) z = freqAt s z :=
  Table.get_set_ne _ _ _ _ _ fun e => h (BitVec.eq_of_toNat_eq e.symm)

@[simp] theorem freqAt_clearFreq (s : State) (y : Sym) : freqAt (clearFreq s) y = 0#32 := Table.get_fill _ _ _ _

theorem codeEntry_set_self (tbl : Table CodeEntry 256) (y : Sym) (e : CodeEntry) :
    (setCodeEntry tbl y e).get y.toNat y.isLt = e := Table.get_set_self _ _ _ _

theorem codeEntry_set_ne (tbl : Table CodeEntry 256) (y z : Sym) (e : CodeEntry) (h : z ≠ y) :
    (setCodeEntry tbl y e).get z.toNat z.isLt = tbl.get z.toNat z.isLt :=
  Table.get_set_ne _ _ _ _ _ fun e => h (BitVec.eq_of_toNat_eq e.symm)

@[simp] theorem clearCode_entry (y : Sym) : clearCode.get y.toNat y.isLt = CodeEntry.clear := Table.get_fill _ _ _ _

/-! ### NODE entries -/

theorem nodeAt_congr {s t : State} (h : s.node = t.node) (i : NodeIdx) : nodeAt s i = nodeAt t i := by
  simp [nodeAt, h]

theorem readNodeRec_eq_ok {s : State} {i : NodeIdx} {r : NodeRec} : readNodeRec s i = .ok r ↔ nodeAt s i = some r := by
  unfold readNodeRec
  cases nodeAt s i <;> simp [stop]

theorem readNodeRec_eq_error {s : State} {i : NodeIdx} {h : Halt} :
    readNodeRec s i = .error h ↔ nodeAt s i = none ∧ h = .fault .nodeNoValue := by
  unfold readNodeRec
  cases nodeAt s i <;> simp [stop, eq_comm]

theorem nodeAt_isSome_lt {s : State} {i : NodeIdx} (h : (nodeAt s i).isSome) : i.toNat < 511 := by
  unfold nodeAt at h
  split at h
  · assumption
  · simp at h

/-- A write of a record replaces that entry and no other field; it fails only at NODE[511]. -/
theorem writeNodeRec_eq_ok {s t : State} {i : NodeIdx} {r : NodeRec} :
    writeNodeRec s i r = .ok t ↔ i.toNat < 511 ∧ t = { s with node := s.node.set i.toNat (some r) } := by
  unfold writeNodeRec
  split <;> simp_all [stop, eq_comm]

theorem nodeAt_writeNodeRec_self {s t : State} {i : NodeIdx} {r : NodeRec} (h : writeNodeRec s i r = .ok t) :
    nodeAt t i = some r := by
  obtain ⟨hi, rfl⟩ := writeNodeRec_eq_ok.mp h
  simp [nodeAt, hi]

theorem nodeAt_writeNodeRec_ne {s t : State} {i j : NodeIdx} {r : NodeRec} (h : writeNodeRec s i r = .ok t)
    (hj : j ≠ i) : nodeAt t j = nodeAt s j := by
  obtain ⟨hi, rfl⟩ := writeNodeRec_eq_ok.mp h
  have : i.toNat ≠ j.toNat := fun e => hj (BitVec.eq_of_toNat_eq e.symm)
  simp [nodeAt, Table.get_set_ne, this]

/-- What putNodes leaves in slot j: the (j - k)-th new record, or what was there. -/
theorem putNodes_get (rs : List NodeRec) (v : Table (Option NodeRec) 511) (k j : Nat) (hj : j < 511) :
    (putNodes v k rs).get j hj =
      if k ≤ j then (match rs[j - k]? with | some r => some r | none => v.get j hj) else v.get j hj := by
  induction rs generalizing v k with
  | nil => simp [putNodes]
  | cons r rs ih =>
    rw [putNodes, ih]
    rcases Nat.lt_trichotomy k j with h | rfl | h
    · have e : j - k = (j - (k + 1)) + 1 := by omega
      have h1 : k + 1 ≤ j := h
      simp only [h1, if_true, Nat.le_of_lt h, e, List.getElem?_cons_succ, Table.get_set_ne _ _ _ _ hj (Nat.ne_of_lt h)]
    · simp
    · simp [show ¬ k + 1 ≤ j by omega, show ¬ k ≤ j by omega, Table.get_set_ne _ _ _ _ hj (Nat.ne_of_gt h)]

/-! ### Selection and merging -/

theorem freq_lt_of_lt_of_le {a b c : Freq} (h : a < b) (h' : b ≤ c) : a < c := by
  rw [BitVec.lt_def] at *
  rw [BitVec.le_def] at h'
  omega

/-- The scan ends at the best position so far or at a later position whose frequency is the least and strictly below all
earlier ones. -/
theorem firstMin_spec (fs : List Freq) (b : Freq) (best k : Nat) :
    (firstMin b best k fs = best ∧ ∀ f ∈ fs, b ≤ f) ∨
    (∃ j f, firstMin b best k fs = k + j ∧ fs[j]? = some f ∧ f < b ∧ (∀ g ∈ fs, f ≤ g) ∧
      ∀ m g, m < j → fs[m]? = some g → f < g) := by
  induction fs generalizing b best k with
  | nil => exact .inl ⟨rfl, by simp⟩
  | cons x xs ih =>
    by_cases hx : x < b
    · rw [firstMin, if_pos hx]
      rcases ih x k (k + 1) with ⟨e, h⟩ | ⟨j, f, e, hf, hlt, hall, hbef⟩
      · refine .inr ⟨0, x, by simpa using e, rfl, hx, ?_, by simp⟩
        intro g hg
        rcases List.mem_cons.mp hg with rfl | hg
        · exact BitVec.le_refl _
        · exact h g hg
      · refine .inr ⟨j + 1, f, by omega, by simpa using hf, BitVec.lt_trans hlt hx, ?_, ?_⟩
        · intro g hg
          rcases List.mem_cons.mp hg with rfl | hg
          · exact BitVec.le_of_lt hlt
          · exact hall g hg
        · intro m g hm hg
          cases m with
          | zero => simp at hg; exact hg ▸ hlt
          | succ m => exact hbef m g (by omega) (by simpa using hg)
    · rw [firstMin, if_neg hx]
      have hbx : b ≤ x := BitVec.not_lt.mp hx
      rcases ih b best (k + 1) with ⟨e, h⟩ | ⟨j, f, e, hf, hlt, hall, hbef⟩
      · refine .inl ⟨e, ?_⟩
        intro g hg
        rcases List.mem_cons.mp hg with rfl | hg
        · exact hbx
        · exact h g hg
      · refine .inr ⟨j + 1, f, by omega, by simpa using hf, hlt, ?_, ?_⟩
        · intro g hg
          rcases List.mem_cons.mp hg with rfl | hg
          · exact BitVec.le_of_lt (freq_lt_of_lt_of_le hlt hbx)
          · exact hall g hg
        · intro m g hm hg
          cases m with
          | zero => simp at hg; exact hg ▸ freq_lt_of_lt_of_le hlt hbx
          | succ m => exact hbef m g (by omega) (by simpa using hg)

/-- The frequencies of a collection whose entries all hold a record. -/
theorem freqsOf_eq_ok {s : State} {is : List NodeIdx} {fs : List Freq} (h : freqsOf s is = .ok fs) :
    List.Forall₂ (fun i f => ∃ r, nodeAt s i = some r ∧ r.freq = f) is fs := by
  induction is generalizing fs with
  | nil => simp [freqsOf] at h; subst h; exact .nil
  | cons i is ih =>
    obtain ⟨r, hr, h⟩ := andThen_eq_ok.mp h
    obtain ⟨gs, hg, h⟩ := andThen_eq_ok.mp h
    cases h
    exact .cons ⟨r, readNodeRec_eq_ok.mp hr, rfl⟩ (ih hg)

theorem freqsOf_isOk {s : State} {is : List NodeIdx} (h : ∀ i ∈ is, (nodeAt s i).isSome) : ∃ fs, freqsOf s is = .ok fs := by
  induction is with
  | nil => exact ⟨[], rfl⟩
  | cons i is ih =>
    obtain ⟨r, hr⟩ := Option.isSome_iff_exists.mp (h i (by simp))
    obtain ⟨fs, hfs⟩ := ih (fun j hj => h j (by simp [hj]))
    exact ⟨r.freq :: fs, by simp [freqsOf, readNodeRec_eq_ok.mpr hr, hfs]⟩

/-- What an extraction that succeeds has done: the node stood at the selected place and is gone from there. -/
theorem extractMin_eq_ok {s : State} {is rest : List NodeIdx} {a : NodeIdx} :
    extractMin s is = .ok (a, rest) ↔ ∃ k, selectMin s is = .ok k ∧ is[k]? = some a ∧ rest = is.eraseIdx k := by
  unfold extractMin
  rw [andThen_eq_ok]
  constructor
  · rintro ⟨k, hk, h⟩
    cases e : is[k]? with
    | none => simp [e, stop] at h
    | some b =>
      simp [e] at h
      exact ⟨k, hk, by rw [e, h.1], h.2.symm⟩
  · rintro ⟨k, hk, e, rfl⟩
    exact ⟨k, hk, by simp [e]⟩

/-- What a merge that succeeds has done (rule R102). -/
theorem mergeOne_eq_ok {s t : State} (h : mergeOne s = .ok t) :
    ∃ a c b d ra rb, s.nodeCnt.toNat < 511 ∧
      extractMin s s.coll = .ok (a, c) ∧ extractMin s c = .ok (b, d) ∧ nodeAt s a = some ra ∧ nodeAt s b = some rb ∧
      t = stopIfOne { s with
        node := s.node.set s.nodeCnt.toNat (some (.internal a b (ra.freq + rb.freq))),
        nodeCnt := s.nodeCnt + 1#9, coll := d ++ [s.nodeCnt] } := by
  obtain ⟨⟨a, c⟩, hx, h⟩ := andThen_eq_ok.mp h
  obtain ⟨⟨b, d⟩, hy, h⟩ := andThen_eq_ok.mp h
  obtain ⟨ra, ha, h⟩ := andThen_eq_ok.mp h
  obtain ⟨rb, hb, h⟩ := andThen_eq_ok.mp h
  obtain ⟨u, hu, h⟩ := andThen_eq_ok.mp h
  obtain ⟨hi, rfl⟩ := writeNodeRec_eq_ok.mp hu
  cases h
  exact ⟨a, c, b, d, ra, rb, hi, hx, hy, readNodeRec_eq_ok.mp ha, readNodeRec_eq_ok.mp hb, rfl⟩

theorem stopIfOne_eq (s : State) : stopIfOne s = s ∨ ∃ i, s.coll = [i] ∧ stopIfOne s = becomeTree s i := by
  unfold stopIfOne
  split
  · exact .inr ⟨_, by assumption, rfl⟩
  · exact .inl rfl

/-! ### Bodies raise only the errors of their own pseudocode -/

theorem readNodeRec_ne_cmdErr (s : State) (i : NodeIdx) (e : ErrCode) : readNodeRec s i ≠ .error (.cmdErr e) := by
  intro h; simpa using (readNodeRec_eq_error.mp h).2

theorem freqsOf_ne_cmdErr (s : State) (is : List NodeIdx) (e : ErrCode) : freqsOf s is ≠ .error (.cmdErr e) := by
  induction is with
  | nil => simp [freqsOf]
  | cons i is ih =>
    intro h
    rcases andThen_eq_error.mp h with h | ⟨r, _, h⟩
    · exact readNodeRec_ne_cmdErr _ _ _ h
    · rcases andThen_eq_error.mp h with h | ⟨fs, _, h⟩
      · exact ih h
      · simp at h

theorem extractMin_ne_cmdErr (s : State) (is : List NodeIdx) (e : ErrCode) : extractMin s is ≠ .error (.cmdErr e) := by
  intro h
  rcases andThen_eq_error.mp h with h | ⟨k, _, h⟩
  · rcases andThen_eq_error.mp h with h | ⟨fs, _, h⟩
    · exact freqsOf_ne_cmdErr _ _ _ h
    · split at h <;> simp [stop] at h
  · split at h <;> simp [stop] at h

theorem mergeOne_ne_cmdErr (s : State) (e : ErrCode) : mergeOne s ≠ .error (.cmdErr e) := by
  intro h
  rcases andThen_eq_error.mp h with h | ⟨x, _, h⟩
  · exact extractMin_ne_cmdErr _ _ _ h
  rcases andThen_eq_error.mp h with h | ⟨y, _, h⟩
  · exact extractMin_ne_cmdErr _ _ _ h
  rcases andThen_eq_error.mp h with h | ⟨ra, _, h⟩
  · exact readNodeRec_ne_cmdErr _ _ _ h
  rcases andThen_eq_error.mp h with h | ⟨rb, _, h⟩
  · exact readNodeRec_ne_cmdErr _ _ _ h
  rcases andThen_eq_error.mp h with h | ⟨u, _, h⟩
  · unfold writeNodeRec at h
    split at h <;> simp [stop] at h
  · simp at h

theorem mergeAll_ne_cmdErr (n : Nat) (s : State) (e : ErrCode) : mergeAll n s ≠ .error (.cmdErr e) := by
  induction n generalizing s with
  | zero => simp [mergeAll]
  | succ n ih =>
    intro h
    unfold mergeAll at h
    split at h
    · rcases andThen_eq_error.mp h with h | ⟨t, _, h⟩
      · exact mergeOne_ne_cmdErr _ _ h
      · exact ih _ h
    · simp at h

theorem visit_ne_cmdErr (s : State) (n : Nat) (i : NodeIdx) (v : BitVec 255) (len : BitVec 8)
    (c : Table CodeEntry 256) (e : ErrCode) : visit s n i v len c ≠ .error (.cmdErr e) := by
  induction n generalizing i v len c with
  | zero => simp [visit, stop]
  | succ n ih =>
    intro h
    rcases andThen_eq_error.mp h with h | ⟨r, _, h⟩
    · exact readNodeRec_ne_cmdErr _ _ _ h
    · cases r with
      | leaf y f => simp at h
      | internal l r f =>
        rcases andThen_eq_error.mp h with h | ⟨c', _, h⟩
        · exact ih _ _ _ _ h
        · exact ih _ _ _ _ h

theorem assign_ne_cmdErr (s : State) (e : ErrCode) : assign s ≠ .error (.cmdErr e) := by
  intro h
  rcases andThen_eq_error.mp h with h | ⟨c, _, h⟩
  · exact visit_ne_cmdErr _ _ _ _ _ _ _ h
  · simp at h

end Sys2Proof.Machine
end

