-- ==== Sys2Proof/Laws/PerInstr.lean ====
section
/-! SUPPORT. What holds of every command as syntax, one lemma per constructor. -/

namespace Sys2Proof.Laws.OpcField

/-- The opcode field of a command's word is the OPC of its mnemonic in the opcode map (30_encoding.md rules R70, R73). -/
def Statement (i : Instr) : Prop := opcOf (encode i) = i.mnemonic.opc

/-- Operand bits that stay below bit 24 leave the opcode field as it is. -/
theorem opcOf_or (o : BitVec 8) (x : Word) (h : x.toNat < 2 ^ 24) : opcOf ((o.setWidth 32 <<< 24) ||| x) = o := by
  have ho : o.toNat < 2 ^ 8 := o.isLt
  have e : ((o.setWidth 32 <<< 24) ||| x).toNat = o.toNat * 2 ^ 24 + x.toNat := by
    rw [BitVec.toNat_or, BitVec.toNat_shiftLeft, BitVec.toNat_setWidth, Nat.mod_eq_of_lt (by omega), Nat.shiftLeft_eq,
      Nat.mod_eq_of_lt (by omega), ← Nat.shiftLeft_eq, ← Nat.shiftLeft_add_eq_or_of_lt h]
  apply BitVec.eq_of_toNat_eq
  rw [opcOf, BitVec.extractLsb'_toNat, e, Nat.shiftRight_eq_div_pow]
  omega

theorem bits_sym (y : Sym) : (y.setWidth 32).toNat < 2 ^ 24 := by
  have := y.isLt; simp; omega

theorem bits_idx (i : NodeIdx) : (i.setWidth 32).toNat < 2 ^ 24 := by
  have := i.isLt; simp; omega

theorem nop : Statement .nop := rfl
theorem clear : Statement .clear := rfl
theorem count (y : Sym) : Statement (.count y) := opcOf_or _ _ (bits_sym y)
theorem loadFreq (y : Sym) : Statement (.loadFreq y) := opcOf_or _ _ (bits_sym y)
theorem readFreq (y : Sym) : Statement (.readFreq y) := opcOf_or _ _ (bits_sym y)
theorem seed : Statement .seed := rfl
theorem merge : Statement .merge := rfl
theorem build : Statement .build := rfl
theorem buildCode : Statement .buildCode := rfl
theorem assign : Statement .assign := rfl
theorem readCode (y : Sym) (w : BitVec 3) : Statement (.readCode y w) := by
  refine opcOf_or _ _ ?_
  have hy := y.isLt
  have hw := w.isLt
  rw [operandBits, BitVec.toNat_or]
  refine Nat.or_lt_two_pow ?_ (bits_sym y)
  simp [Nat.shiftLeft_eq]
  omega
theorem decReset : Statement .decReset := rfl
theorem decBit (b : Bool) : Statement (.decBit b) := by cases b <;> rfl
theorem readNode (i : NodeIdx) : Statement (.readNode i) := opcOf_or _ _ (bits_idx i)
theorem readColl (i : NodeIdx) : Statement (.readColl i) := opcOf_or _ _ (bits_idx i)

end Sys2Proof.Laws.OpcField
end

