-- ==== Sys2Proof/Laws/Step.lean ====
section
/-! SUPPORT. What one step can do, said once: who moved, what the engine did, what the host did. -/

namespace Sys2Proof.Machine

/-- A step is the engine's completion step, one line of the host, or nothing; only the script and the schedule are used up. -/
theorem nextMove_cases (s : State) :
    (∃ q, s.busy = true ∧ nextMove s = .engine { s with sched := q } ∧ (q = s.sched ∨ .engine :: q = s.sched)) ∨
    (∃ l rest q, s.script = l :: rest ∧ nextMove s = .host l { s with script := rest, sched := q } ∧
      (s.busy = false ∧ q = s.sched ∨ s.busy = true ∧ .host :: q = s.sched)) ∨
    (s.busy = false ∧ s.script = [] ∧ nextMove s = .idle) := by
  have script_cases : s.script = [] ∨ ∃ l rest, s.script = l :: rest := by cases s.script <;> simp
  have sched_cases : s.sched = [] ∨ (∃ q, s.sched = .host :: q) ∨ ∃ q, s.sched = .engine :: q := by
    rcases s.sched with _ | ⟨_ | _, q⟩ <;> simp
  rcases Bool.eq_false_or_eq_true s.busy with hb | hb <;> rcases script_cases with hs | ⟨l, rest, hs⟩
  · have h : nextMove s = .engine s := by simp only [nextMove, hb, hs]
    exact .inl ⟨s.sched, hb, h, .inl rfl⟩
  · rcases sched_cases with hq | ⟨q, hq⟩ | ⟨q, hq⟩
    · have h : nextMove s = .engine s := by simp only [nextMove, hb, hs, hq]
      exact .inl ⟨s.sched, hb, h, .inl rfl⟩
    · exact .inr (.inl ⟨l, rest, q, hs, by simp [nextMove, hb, hs, hq], .inr ⟨hb, hq.symm⟩⟩)
    · exact .inl ⟨q, hb, by simp [nextMove, hb, hs, hq], .inr hq.symm⟩
  · exact .inr (.inr ⟨hb, hs, by simp [nextMove, hb, hs]⟩)
  · exact .inr (.inl ⟨l, rest, s.sched, hs, by simp [nextMove, hb, hs], .inl ⟨hb, rfl⟩⟩)

/-- What a line of the host that gives a next state has done. -/
theorem hostMove_cases {l : HostLine} {s t : State} (h : hostMove l s = .next t) :
    (∃ a r, l = .access a ∧ a.admitted = some r ∧ a.write = true ∧ t = writeReg r a.wdata s) ∨
    (∃ a r, l = .access a ∧ a.admitted = some r ∧ a.write = false ∧ t = afterRead s r) ∨
    (∃ rest, l = .poll ∧ t = { afterRead s .status with script := rest } ∧ (rest = s.script ∨ rest = .poll :: s.script)) ∨
    (∃ e m, l = .check e ∧ t = { afterRead s .status with missed := m }) ∨
    (∃ y, l = .readLen y ∧
      t = { afterRead s .result0 with script := readCodeTail y (lenField (readData s .result0)) ++ s.script }) ∨
    (l = .reset ∧ t = hardReset s) := by
  cases l with
  | access a =>
    simp only [hostMove, busAccess] at h
    split at h
    · simp at h
    · split at h
      · exact .inl ⟨a, _, rfl, by assumption, by assumption, by simpa using h.symm⟩
      · exact .inr (.inl ⟨a, _, rfl, by assumption, by simp_all, by simpa using h.symm⟩)
  | poll =>
    simp only [hostMove] at h
    refine .inr (.inr (.inl ?_))
    split at h
    · exact ⟨.poll :: s.script, rfl, by simpa using h.symm, .inr rfl⟩
    · exact ⟨s.script, rfl, (Host.Outcome.next.inj h).symm, .inl rfl⟩
  | check e =>
    simp only [hostMove] at h
    exact .inr (.inr (.inr (.inl ⟨e, _, rfl, by simpa using h.symm⟩)))
  | readLen y =>
    simp only [hostMove] at h
    exact .inr (.inr (.inr (.inr (.inl ⟨y, rfl, by simpa using h.symm⟩))))
  | reset =>
    simp only [hostMove] at h
    exact .inr (.inr (.inr (.inr (.inr ⟨rfl, by simpa using h.symm⟩))))

/-- The lines a read of LEN puts into the script make no access that is answered with DECERR. -/
theorem readCodeTail_isQuiet (y : Sym) (len : Nat) : ∀ l ∈ readCodeTail y len, l.isQuiet = true := by
  have hw : ∀ r v, (wr r v).isQuiet = true := fun r v => by cases r <;> rfl
  have hr : ∀ r, (rd r).isQuiet = true := fun r => by cases r <;> rfl
  intro l hl
  simp only [readCodeTail, issue, List.mem_cons, List.mem_flatMap, List.mem_append, List.mem_nil_iff, or_false] at hl
  rcases hl with rfl | ⟨w, -, (rfl | rfl) | rfl⟩ <;> first | exact hr _ | exact hw _ _ | rfl

/-- A codeword has at most 8 words of 32 bits: the tail of `read_code` never asks for a word that READ_CODE has no number for. -/
theorem lenField_words (v : Word) : (lenField v + 31) / 32 ≤ 8 := by
  have : lenField v < 256 := (v.extractLsb' 0 8).isLt
  omega

/-- What a register write can change: the acceptance, the overrun bit, DATA_IN. -/
theorem writeReg_cases (r : Reg) (v : Word) (s : State) :
    (s.busy = false ∧ r = .cmd ∧ writeReg r v s = accept v s) ∨ (s.busy = true ∧ r = .cmd ∧ writeReg r v s = overrun s) ∨
    (r = .dataIn ∧ writeReg r v s = { s with dataIn := v }) ∨
    (r = .status ∧ writeReg r v s = { s with ovr := false }) ∨ writeReg r v s = s := by
  cases r <;> simp [writeReg]
  · cases s.busy <;> simp
  · by_cases h : v[4] <;> simp [h]

end Sys2Proof.Machine
end

