-- ==== Sys2Proof/Tests/Slice0.lean ====
section
/-! SUPPORT. The model's own tests. Expected values are those of spec/95_test_vectors.md or worked out by hand from the rules
named; the witnesses show that the hypotheses of the obligations can be met. -/

set_option Elab.async false

namespace Sys2Proof.Tests

open Sys2Proof.Machine

/-! ### States -/

/-- Phase COUNT with these counts loaded. -/
def tableOf (ps : List (Sym × Count)) : State := ps.foldl (fun s p => setFreq s p.1 p.2) State.reset

/-- A code table with these entries. -/
def codesOf (es : List (Sym × CodeEntry)) : Table CodeEntry 256 :=
  es.foldl (fun c e => setCodeEntry c e.1 e.2) clearCode

/-- A state after SEED, with these records, collection and number of leaves. -/
def arena (p : Phase) (rs : List NodeRec) (coll : List NodeIdx) (n : BitVec 9) : State :=
  { State.reset with phase := p, node := putNodes State.reset.node 0 rs, nodeCnt := BitVec.ofNat 9 rs.length, coll := coll,
                     nleaf := n }

/-- {A:1, B:1, C:2} loaded (95_test_vectors.md, program P3). -/
def tableP3 : State := tableOf [(0x41#8, 1#32), (0x42#8, 1#32), (0x43#8, 2#32)]

/-- P3 after SEED. -/
def forestP3 : State :=
  arena .forest [.leaf 0x41#8 1#40, .leaf 0x42#8 1#40, .leaf 0x43#8 2#40] [0#9, 1#9, 2#9] 3#9

/-- P3 after its first MERGE: node 3 = (0,1) 2, COLL = [2,3]. -/
def forest2P3 : State :=
  arena .forest [.leaf 0x41#8 1#40, .leaf 0x42#8 1#40, .leaf 0x43#8 2#40, .internal 0#9 1#9 2#40] [2#9, 3#9] 3#9

/-- The records of P3's finished tree. -/
def recordsP3 : List NodeRec :=
  [.leaf 0x41#8 1#40, .leaf 0x42#8 1#40, .leaf 0x43#8 2#40, .internal 0#9 1#9 2#40, .internal 2#9 3#9 4#40]

/-- P3 after its two merges. -/
def treeP3 : State := becomeTree (arena .tree recordsP3 [4#9] 3#9) 4#9

/-- P3 after ASSIGN: A = 10, B = 11, C = 0. -/
def codedP3 : State :=
  { treeP3 with
    phase := .coded,
    code := codesOf [(0x41#8, ⟨true, 2#8, 2#255⟩), (0x42#8, ⟨true, 2#8, 3#255⟩), (0x43#8, ⟨true, 1#8, 0#255⟩)] }

/-- {a:5} after BUILD (SRC-1). -/
def treeOne : State := becomeTree (arena .tree [.leaf 0x61#8 5#40] [0#9] 1#9) 0#9

/-- A command accepted at reset and not yet completed. -/
def busyWith (w : Word) : State := { State.reset with busy := true, pend := ⟨w, 0#32⟩ }

/-! ### The states meet the invariant -/

/-- The entries of an arena filled from slot 0. -/
theorem nodeAt_filled {s : State} {rs : List NodeRec} (hs : s.node = putNodes (Table.fill 511 none) 0 rs)
    (i : NodeIdx) : nodeAt s i = if i.toNat < 511 then rs[i.toNat]? else none := by
  unfold nodeAt
  split
  · rename_i h
    simp only [hs, putNodes_get _ _ _ _ h, Nat.zero_le, if_true, Nat.sub_zero, Table.get_fill]
    cases rs[i.toNat]? <;> rfl
  · rfl

theorem slots_filled {s : State} {rs : List NodeRec} (hs : s.node = putNodes (Table.fill 511 none) 0 rs)
    (hl : rs.length < 511) (hc : s.nodeCnt = BitVec.ofNat 9 rs.length) : SlotsOk s := by
  intro i
  have := i.isLt
  rw [nodeAt_filled hs, hc, Bool.eq_iff_iff]
  split <;> simp [BitVec.lt_def, Nat.mod_eq_of_lt (show rs.length < 512 by omega)]
  omega

theorem forall_filled {s : State} {rs : List NodeRec} {P : NodeIdx → NodeRec → Prop}
    (hs : s.node = putNodes (Table.fill 511 none) 0 rs)
    (h : ∀ k : Fin rs.length, P (BitVec.ofNat 9 k) rs[k]) : ∀ i : NodeIdx, ∀ r ∈ nodeAt s i, P i r := by
  intro i r hr
  rw [nodeAt_filled hs] at hr
  split at hr
  · obtain ⟨hk, rfl⟩ := List.getElem?_eq_some_iff.mp hr
    simpa using h ⟨i.toNat, hk⟩
  · simp at hr

theorem inv_tableP3 : Inv tableP3 where
  slots := slots_filled (rs := []) rfl (by decide) rfl
  freqSum := forall_filled (rs := []) rfl (fun k => k.elim0)
  symsUnique := by decide +kernel
  ownedOnce := by decide +kernel
  edgesDown := forall_filled (rs := []) rfl (fun k => k.elim0)
  collSorted := by decide +kernel
  phaseTable := ⟨fun _ => ⟨rfl, rfl, rfl, rfl, rfl, rfl⟩, by decide, by decide, by decide, by decide⟩
  weights := by decide +kernel
  cursor := by decide
  coded := by intro h; cases h

theorem inv_forestP3 : Inv forestP3 where
  slots := slots_filled rfl (by decide) rfl
  freqSum := forall_filled rfl (by decide +kernel)
  symsUnique := by decide +kernel
  ownedOnce := by decide +kernel
  edgesDown := forall_filled rfl (by decide +kernel)
  collSorted := by decide +kernel
  phaseTable := ⟨by decide, fun _ => ⟨rfl, by decide, by decide, rfl, rfl, rfl, rfl⟩, by decide, by decide, by decide⟩
  weights := by decide +kernel
  cursor := by decide
  coded := by intro h; cases h

theorem inv_forest2P3 : Inv forest2P3 where
  slots := slots_filled rfl (by decide) rfl
  freqSum := forall_filled rfl (by decide +kernel)
  symsUnique := by decide +kernel
  ownedOnce := by decide +kernel
  edgesDown := forall_filled rfl (by decide +kernel)
  collSorted := by decide +kernel
  phaseTable := ⟨by decide, fun _ => ⟨rfl, by decide, by decide, rfl, rfl, rfl, rfl⟩, by decide, by decide, by decide⟩
  weights := by decide +kernel
  cursor := by decide
  coded := by intro h; cases h

theorem inv_treeP3 : Inv treeP3 where
  slots := slots_filled (rs := recordsP3) rfl (by decide) rfl
  freqSum := forall_filled (rs := recordsP3) rfl (by decide +kernel)
  symsUnique := by decide +kernel
  ownedOnce := by decide +kernel
  edgesDown := forall_filled (rs := recordsP3) rfl (by decide +kernel)
  collSorted := by decide +kernel
  phaseTable := ⟨by decide, by decide, fun _ => ⟨rfl, rfl, rfl, by decide, rfl, rfl⟩, fun _ => rfl, by decide⟩
  weights := by decide +kernel
  cursor := by decide +kernel
  coded := by intro h; cases h

theorem validExactlyLeaves_codedP3 : ValidExactlyLeaves codedP3 := by
  have hl : leafSyms codedP3 = [0x41#8, 0x42#8, 0x43#8] := by decide +kernel
  intro y
  rw [hl]
  by_cases h1 : y = 0x41#8
  · subst h1; decide +kernel
  by_cases h2 : y = 0x42#8
  · subst h2; decide +kernel
  by_cases h3 : y = 0x43#8
  · subst h3; decide +kernel
  simp [codeAt, codedP3, codesOf, codeEntry_set_ne, h1, h2, h3, CodeEntry.clear]

theorem inv_codedP3 : Inv codedP3 where
  slots := slots_filled (rs := recordsP3) rfl (by decide) rfl
  freqSum := forall_filled (rs := recordsP3) rfl (by decide +kernel)
  symsUnique := by decide +kernel
  ownedOnce := by decide +kernel
  edgesDown := forall_filled (rs := recordsP3) rfl (by decide +kernel)
  collSorted := by decide +kernel
  phaseTable :=
    ⟨by decide, by decide, fun _ => ⟨rfl, rfl, rfl, by decide, rfl, rfl⟩, by decide, fun _ => validExactlyLeaves_codedP3⟩
  weights := by decide +kernel
  cursor := by decide +kernel
  coded := fun _ => rfl

theorem inv_treeOne : Inv treeOne where
  slots := slots_filled (rs := [.leaf 0x61#8 5#40]) rfl (by decide) rfl
  freqSum := forall_filled (rs := [.leaf 0x61#8 5#40]) rfl (by decide +kernel)
  symsUnique := by decide +kernel
  ownedOnce := by decide +kernel
  edgesDown := forall_filled (rs := [.leaf 0x61#8 5#40]) rfl (by decide +kernel)
  collSorted := by decide +kernel
  phaseTable := ⟨by decide, by decide, fun _ => ⟨rfl, rfl, rfl, by decide, rfl, rfl⟩, fun _ => rfl, by decide⟩
  weights := by decide +kernel
  cursor := by decide +kernel
  coded := by intro h; cases h

/-- The invariant does not look at the bus side of the state: DATA_IN, PEND, BUSY, OVR, ERR, the results, the host's fields. -/
theorem inv_bus_side {s t : State} (h : Inv s) (e : t = { s with
    dataIn := t.dataIn, busy := t.busy, ovr := t.ovr, err := t.err, result0 := t.result0, result1 := t.result1,
    result2 := t.result2, pend := t.pend, script := t.script, sched := t.sched, reads := t.reads, missed := t.missed,
    draws := t.draws }) : Inv t := by
  rw [e]
  have hv : ∀ n i v l c, visit { s with
      dataIn := t.dataIn, busy := t.busy, ovr := t.ovr, err := t.err, result0 := t.result0, result1 := t.result1,
      result2 := t.result2, pend := t.pend, script := t.script, sched := t.sched, reads := t.reads, missed := t.missed,
      draws := t.draws } n i v l c = visit s n i v l c := by
    intro n
    induction n with
    | zero => intros; rfl
    | succ n ih => intro i v l c; simp only [visit, ih]; rfl
  exact ⟨h.slots, h.freqSum, h.symsUnique, h.ownedOnce, h.edgesDown, h.collSorted, h.phaseTable, h.weights, h.cursor,
    fun hp => (hv _ _ _ _ _).trans (h.coded hp)⟩

/-! ### Decoding: words written out from the encodings of 30_encoding.md -/

theorem test_decode_nop : decode 0b00000000000000000000000000000000#32 = .ok .nop := by decide
theorem test_decode_clear : decode 0b00000001000000000000000000000000#32 = .ok .clear := by decide
theorem test_decode_count : decode 0b00010000000000000000000001100001#32 = .ok (.count 0x61#8) := by decide
theorem test_decode_loadFreq : decode 0b00010001000000000000000001100110#32 = .ok (.loadFreq 0x66#8) := by decide
theorem test_decode_readFreq : decode 0b00010010000000000000000011111111#32 = .ok (.readFreq 0xFF#8) := by decide
theorem test_decode_seed : decode 0b00100000000000000000000000000000#32 = .ok .seed := by decide
theorem test_decode_merge : decode 0b00100001000000000000000000000000#32 = .ok .merge := by decide
theorem test_decode_build : decode 0b00100010000000000000000000000000#32 = .ok .build := by decide
theorem test_decode_buildCode : decode 0b00100011000000000000000000000000#32 = .ok .buildCode := by decide
theorem test_decode_assign : decode 0b00110000000000000000000000000000#32 = .ok .assign := by decide
theorem test_decode_readCode : decode 0b00110001000000000000011101100010#32 = .ok (.readCode 0x62#8 7#3) := by decide
theorem test_decode_decReset : decode 0b01000000000000000000000000000000#32 = .ok .decReset := by decide
theorem test_decode_decBit : decode 0b01000001000000000000000000000001#32 = .ok (.decBit true) := by decide
theorem test_decode_readNode : decode 0b01010000000000000000000111111111#32 = .ok (.readNode 511#9) := by decide
theorem test_decode_readColl : decode 0b01010001000000000000000000000100#32 = .ok (.readColl 4#9) := by decide

/-- EN-1, EN-3: unassigned opcodes. -/
theorem test_decode_unassigned :
    [0xFF000000#32, 0x02000000#32, 0x13000000#32, 0x24000000#32, 0x32000000#32, 0x42000000#32, 0x52000000#32].map decode =
      List.replicate 7 (.error .unassignedOpcode) := by decide

/-- EN-2, CA-11, DE-7, IN-7, CT-5: reserved bits. -/
theorem test_decode_reserved :
    [0x10000100#32, 0x31000843#32, 0x41000002#32, 0x50000200#32, 0x00000001#32].map decode =
      List.replicate 5 (.error .reservedBits) := by decide

/-- EN-5: the assembler's words and refusals. -/
theorem test_assemble :
    [⟨.loadFreq, [0x61]⟩, ⟨.readCode, [0x62, 7]⟩, ⟨.decBit, [1]⟩, ⟨.readNode, [10]⟩, ⟨.buildCode, []⟩, ⟨.count, [0x100]⟩,
      ⟨.readCode, [0x61, 8]⟩].map assemble =
    [some 0x11000061#32, some 0x31000762#32, some 0x41000001#32, some 0x5000000A#32, some 0x23000000#32, none, none] := by
  decide

/-! ### WellFormed: an ill-formed term for each check -/

theorem test_illFormed_symbol : AsmCmd.wellFormed ⟨.count, [256]⟩ = false := by decide
theorem test_illFormed_word : AsmCmd.wellFormed ⟨.readCode, [0, 8]⟩ = false := by decide
theorem test_illFormed_codeSymbol : AsmCmd.wellFormed ⟨.readCode, [256, 0]⟩ = false := by decide
theorem test_illFormed_bit : AsmCmd.wellFormed ⟨.decBit, [2]⟩ = false := by decide
theorem test_illFormed_index : AsmCmd.wellFormed ⟨.readNode, [512]⟩ = false := by decide
theorem test_illFormed_missing : AsmCmd.wellFormed ⟨.readColl, []⟩ = false := by decide
theorem test_illFormed_extra : AsmCmd.wellFormed ⟨.nop, [0]⟩ = false := by decide
theorem test_wellFormed_bounds :
    [⟨.count, [255]⟩, ⟨.readCode, [255, 7]⟩, ⟨.decBit, [1]⟩, ⟨.readNode, [511]⟩, ⟨.merge, []⟩].all AsmCmd.wellFormed = true := by
  decide

/-! ### Commands -/

/-- The outcome is a next state with this property. -/
def gives (o : Outcome) (p : State → Bool) : Bool :=
  match o with
  | .next t => p t
  | _ => false

theorem gives_next {o : Outcome} {p : State → Bool} (h : gives o p = true) : ∃ t, o = .next t ∧ p t = true := by
  cases o with
  | next t => exact ⟨t, rfl, h⟩
  | fault f => simp [gives] at h
  | refused r => simp [gives] at h

/-- FR-6: a full counter saturates and reports COUNT_OVF. -/
theorem test_count_full :
    gives (exec (.count 7#8) (tableOf [(7#8, 0xFFFFFFFF#32)])) (fun t => t.err == .countOvf && freqAt t 7#8 == 0xFFFFFFFF#32)
      = true := by decide +kernel

/-- One below full is still counted. -/
theorem test_count_last :
    gives (exec (.count 7#8) (tableOf [(7#8, 0xFFFFFFFE#32)])) (fun t => t.err == .ok && freqAt t 7#8 == 0xFFFFFFFF#32)
      = true := by decide +kernel

/-- FR-10: LOAD_FREQ takes the latched value, not DATA_IN. -/
theorem test_loadFreq_latched :
    gives (exec (.loadFreq 0x41#8) { State.reset with pend := ⟨0x11000041#32, 9#32⟩, dataIn := 4#32 })
      (fun t => freqAt t 0x41#8 == 9#32 && freqAt t 0x42#8 == 0#32) = true := by decide +kernel

/-- FR-3: READ_FREQ. -/
theorem test_readFreq :
    gives (exec (.readFreq 0x66#8) (tableOf [(0x66#8, 45#32)]))
      (fun t => t.result0 == 0x2D#32 && t.result1 == 0#32 && t.result2 == 0#32) = true := by decide +kernel

/-- P3: SEED makes the leaves A, B, C; INFO = 0x00030003, STATUS = 0x00000002. -/
theorem test_seed_P3 :
    gives (exec .seed tableP3) (fun t => decide (t = forestP3) && infoWord t == 0x00030003#32 && statusWord t == 2#32) = true := by
  decide +kernel

/-- FR-9: 0x00 and 0xFF are ordinary symbols. -/
theorem test_seed_ends :
    gives (exec .seed (tableOf [(0xFF#8, 1#32), (0x00#8, 1#32)]))
      (fun t => nodeAt t 0#9 == some (.leaf 0x00#8 1#40) && nodeAt t 1#9 == some (.leaf 0xFF#8 1#40)) = true := by
  decide +kernel

/-- P3: the first MERGE gives node 3 = (0,1) 2 and COLL = [2,3]. -/
theorem test_merge_P3 : gives (exec .merge forestP3) (fun t => decide (t = forest2P3)) = true := by decide +kernel

/-- TB-5: the leaf 2 beats node 3 at equal frequency and becomes LEFT; ROOT = 0x80030004, DECCUR = 4. -/
theorem test_merge_tie :
    gives (exec .merge forest2P3)
      (fun t => decide (t = treeP3) && rootWord t == 0x80030004#32 && decCurWord t == 4#32 && statusWord t == 4#32) = true := by
  decide +kernel

/-- TB-9: the smaller node 1 is extracted first and becomes LEFT. -/
theorem test_build_order :
    gives (exec .build (tableOf [(0x00#8, 7#32), (0x01#8, 3#32)]))
      (fun t => nodeAt t 2#9 == some (.internal 1#9 0#9 10#40) && rootWord t == 0x80020002#32) = true := by decide +kernel

/-- TB-12: no overflow in the sum of two full counts. -/
theorem test_build_wide :
    gives (exec .build (tableOf [(0x00#8, 0xFFFFFFFF#32), (0x01#8, 0xFFFFFFFF#32)]))
      (fun t => nodeAt t 2#9 == some (.internal 0#9 1#9 0x1FFFFFFFE#40)) = true := by decide +kernel

/-- TB-5: codes A = 10, B = 11, C = 0. -/
theorem test_buildCode_P3 : gives (exec .buildCode tableP3) (fun t => decide (t = codedP3)) = true := by decide +kernel

/-- SRC-1: the empty codeword of a single symbol. -/
theorem test_buildCode_one :
    gives (exec .buildCode (tableOf [(0x61#8, 5#32)]))
      (fun t => statusWord t == 6#32 && codeAt t 0x61#8 == ⟨true, 0#8, 0#255⟩ && rootWord t == 0x80010000#32) = true := by
  decide +kernel

/-- SRC-2, P4: no symbol at all. -/
theorem test_buildCode_empty : gives (exec .buildCode State.reset) (fun t => statusWord t == 0x100#32) = true := by
  decide +kernel

/-- P3: ASSIGN. -/
theorem test_assign_P3 : gives (exec .assign treeP3) (fun t => decide (t = codedP3)) = true := by decide +kernel

/-- P3: READ_CODE 'B', 0. -/
theorem test_readCode_P3 :
    gives (exec (.readCode 0x42#8 0#3) codedP3) (fun t => t.result0 == 0x80000002#32 && t.result1 == 3#32) = true := by
  decide +kernel

/-- CA-6: word 1 of symbol 1's codeword in TB-13, thirty-five ones. -/
theorem test_valueWord_high : valueWord (BitVec.ofNat 255 (2 ^ 35 - 1)) 1#3 = 7#32 := by decide

/-- P3: DEC_BIT 1 goes to node 3, DEC_BIT 0 then reports 'A' and returns to the root. -/
theorem test_decBit_inner :
    gives (exec (.decBit true) treeP3) (fun t => t.result0 == 0#32 && t.result1 == 3#32 && t.decCur == 3#9) = true := by
  decide +kernel

theorem test_decBit_leaf :
    gives (exec (.decBit false) { treeP3 with decCur := 3#9 })
      (fun t => t.result0 == 0x80000041#32 && t.result1 == 0#32 && t.decCur == 4#9) = true := by decide +kernel

/-- DE-5: a one-leaf tree decodes nothing. -/
theorem test_decBit_degenerate :
    gives (exec (.decBit false) treeOne) (fun t => t.err == .degenerate && statusWord t == 0x604#32) = true := by
  decide +kernel

/-- DE-4: DEC_RESET. -/
theorem test_decReset : gives (exec .decReset { treeP3 with decCur := 3#9 }) (fun t => t.decCur == 4#9) = true := by
  decide +kernel

/-- P3: READ_NODE 3. -/
theorem test_readNode_internal :
    gives (exec (.readNode 3#9) treeP3)
      (fun t => t.result0 == 0x80010000#32 && t.result1 == 2#32 && t.result2 == 0#32) = true := by decide +kernel

/-- IN-2, IN-6: BAD_INDEX from NODE_CNT on. -/
theorem test_readNode_badIndex :
    (gives (exec (.readNode 5#9) treeP3) (fun t => t.err == .badIndex) &&
      gives (exec (.readNode 511#9) treeP3) (fun t => t.err == .badIndex)) = true := by decide +kernel

/-- P3 after one MERGE: READ_COLL 1. -/
theorem test_readColl_last :
    gives (exec (.readColl 1#9) forest2P3) (fun t => t.result0 == 3#32 && t.result1 == 2#32) = true := by decide +kernel

/-- IN-3: BAD_INDEX from COLL_LEN on. -/
theorem test_readColl_badIndex : gives (exec (.readColl 1#9) treeP3) (fun t => t.err == .badIndex) = true := by
  decide +kernel

/-- CT-1: NOP clears ERR. -/
theorem test_nop : gives (exec .nop { treeP3 with err := .badIndex }) (fun t => statusWord t == 4#32) = true := by
  decide +kernel

/-- CT-2: CLEAR keeps DATA_IN and clears OVR. -/
theorem test_clear :
    gives (exec .clear { codedP3 with ovr := true, dataIn := 45#32 })
      (fun t => decide (t = { State.reset with dataIn := 45#32 })) = true := by decide +kernel

/-! ### The bus and steps -/

/-- BU-1, BU-8: constants and reset views. -/
theorem test_reads_reset :
    allRegs.map (readData State.reset) =
      [0#32, 0#32, 0#32, 0#32, 0#32, 0#32, 0#32, 0#32, 0#32, 0x48554646#32, 0x28200100#32] := by decide +kernel

/-- BU-3: unmapped, misaligned and narrow accesses. -/
theorem test_decErr :
    [BusAccess.mk false 0x2C#8 0xF#4 0#32, ⟨false, 0xFC#8, 0xF#4, 0#32⟩, ⟨false, 0x02#8, 0xF#4, 0#32⟩,
      ⟨false, 0x24#8, 0x1#4, 0#32⟩].map BusAccess.response = List.replicate 4 .decErr := by decide

/-- BU-4: a second CMD write while BUSY = 1 is dropped and sets OVR. -/
theorem test_overrun :
    gives (step { busyWith 0x23000000#32 with script := [wr .cmd 0x01000000#32], sched := [.host] })
      (fun t => t.ovr && t.busy && t.pend.word == 0x23000000#32) = true := by decide +kernel

/-- BU-5: STATUS ignores every bit but bit 4. -/
theorem test_status_write :
    gives (hostMove (wr .status 0x0F#32) { codedP3 with ovr := true }) (fun t => statusWord t == 0x16#32) = true := by
  decide +kernel

theorem test_status_ack :
    gives (hostMove ackOvr { codedP3 with ovr := true }) (fun t => statusWord t == 0x06#32) = true := by decide +kernel

/-- EN-4: ILLEGAL_CMD is checked before BAD_PHASE. -/
theorem test_illegal_first :
    gives (step { codedP3 with busy := true, pend := ⟨0xFF000000#32, 0#32⟩ }) (fun t => statusWord t == 0x306#32) = true := by
  decide +kernel

/-- BU-7: reset while BUSY = 1. -/
theorem test_reset_busy :
    gives (step { busyWith 0x10000061#32 with script := [.reset], sched := [.host] }) (fun t => decide (t = State.reset)) = true := by
  decide +kernel

/-- A table word placed by withFetchWord is what the next step runs. -/
theorem test_fetch :
    gives (step (State.reset.withFetchWord 32 0x10000061)) (fun t => freqAt t 0x61#8 == 1#32 && !t.busy) = true := by
  decide +kernel

theorem test_decodeTableWord :
    (decodeTableWord 32 0x5000000A, decodeTableWord 32 0xFF000000) = (some (.readNode 10#9), none) := by decide

/-- `load 'a', 5` as host program lines (rule R80). -/
theorem test_load_lines :
    load 0x61#8 5#32 =
      [.access ⟨true, 0x04#8, 0xF#4, 5#32⟩, .access ⟨true, 0x00#8, 0xF#4, 0x11000061#32⟩, .poll] := by decide

/-- A codeword of 35 bits has one more word to read (rule R80). -/
theorem test_readLen :
    gives (hostMove (.readLen 0x61#8) { State.reset with result0 := 0x80000023#32, script := [ackOvr] })
      (fun t => t.script == [rd .result1, wr .cmd 0x31000161#32, .poll, rd .result1, ackOvr] &&
        t.reads == [0x80000023#32]) = true := by decide +kernel

/-- Rule R80: with LEN = 32, or 0, one word is all there is to read. -/
theorem test_readLen_oneWord :
    gives (hostMove (.readLen 0x61#8) { State.reset with result0 := 0x80000020#32 }) (fun t => t.script == [rd .result1]) =
        true ∧
    gives (hostMove (.readLen 0x61#8) { State.reset with result0 := 0x80000000#32 }) (fun t => t.script == [rd .result1]) =
        true := by decide +kernel

/-! ### Witnesses: the hypotheses of each obligation are met, all together, by a concrete state -/

theorem freqZero_reset (y : Sym) : freqAt State.reset y = 0#32 := Table.get_fill _ _ _ _

/-- DecodedWordIsItsEncoding: a word that decodes and is selected by a row. -/
theorem witness_decodedWord :
    decode 0x310007FF#32 = .ok (.readCode 0xFF#8 7#3) ∧
      (⟨.readCode, 0x31000000#32, 0xFFFFF800#32⟩ : OpRow) ∈ opcodeMap ∧
      OpRow.selects ⟨.readCode, 0x31000000#32, 0xFFFFF800#32⟩ 0x310007FF#32 = true := by decide

/-- DecodeIsTotalAndIllegalWordsOnlySetErr: a word of no row, and a state with BUSY = 0. -/
theorem witness_illegalWord :
    (∀ r ∈ opcodeMap, 0x31000800#32 &&& r.mask ≠ r.pattern) ∧ State.reset.busy = false := by decide

/-- FailedCommandChangesOnlyErr. -/
theorem witness_failedCommand :
    ∃ t, exec .merge State.reset = .next t ∧ t.err ≠ .ok := ⟨_, rfl, by decide⟩

/-- PhaseLegalityAndTransitions: from each phase a command that succeeds; both cases of SEED and of MERGE. -/
theorem witness_transitions :
    (∃ t, exec .seed tableP3 = .next t ∧ t.err = .ok) ∧ presentCount tableP3 = 3 ∧
    presentCount (tableOf [(0x61#8, 5#32)]) = 1 ∧
    (∃ t, exec .merge forestP3 = .next t ∧ t.err = .ok) ∧ forestP3.coll.length = 3 ∧
    (∃ t, exec .merge forest2P3 = .next t ∧ t.err = .ok) ∧ forest2P3.coll.length = 2 ∧
    (∃ t, exec .assign treeP3 = .next t ∧ t.err = .ok) := by
  exact ⟨⟨_, rfl, rfl⟩, by decide +kernel, by decide +kernel, ⟨_, rfl, rfl⟩, rfl, ⟨_, rfl, rfl⟩, rfl, ⟨_, rfl, rfl⟩⟩

/-- OnlyListedCodesAreRaised: a completion step of a legal and of an illegal word. -/
theorem witness_codes :
    (∃ t, completionStep (busyWith 0x21000000#32) = .next t ∧ t.err = .badPhase) ∧
    (∃ t, completionStep (busyWith 0xFF000000#32) = .next t ∧ t.err = .illegalCmd) := ⟨⟨_, rfl, rfl⟩, ⟨_, rfl, rfl⟩⟩

/-- EmptyAlphabetIsAFailure, and the case n = 0 of SeedMakesOneLeafPerPresentSymbol. -/
theorem witness_emptyAlphabet :
    State.reset.phase = .count ∧ (∀ y, freqAt State.reset y = 0#32) ∧ presentCount State.reset = 0 :=
  ⟨rfl, freqZero_reset, by decide +kernel⟩

/-- CountAddsOneOrReportsOverflow: the three clauses, at the boundary of the count. -/
theorem witness_count :
    treeP3.phase ≠ .count ∧
    (tableOf [(7#8, 0xFFFFFFFF#32)]).phase = .count ∧ (freqAt (tableOf [(7#8, 0xFFFFFFFF#32)]) 7#8).toNat = 2 ^ 32 - 1 ∧
    (tableOf [(7#8, 0xFFFFFFFE#32)]).phase = .count ∧ (freqAt (tableOf [(7#8, 0xFFFFFFFE#32)]) 7#8).toNat < 2 ^ 32 - 1 := by
  decide +kernel

/-- LoadFreqReplacesTheCount, ReadFreqShowsTheCount: both clauses. -/
theorem witness_freqCommands : forestP3.phase ≠ .count ∧ tableP3.phase = .count := by decide

/-- CountsTabulateTheInput: the input "aba". -/
theorem witness_tabulate :
    State.reset.phase = .count ∧ (∀ y, freqAt State.reset y = 0#32) ∧
      ∀ y, [0x61#8, 0x62#8, 0x61#8].count y < 2 ^ 32 :=
  ⟨rfl, freqZero_reset, fun y => Nat.lt_of_le_of_lt List.count_le_length (by decide)⟩

/-- SeedMakesOneLeafPerPresentSymbol: outside COUNT, with one leaf and with several. -/
theorem witness_seed :
    treeOne.phase ≠ .count ∧ (tableOf [(0x61#8, 5#32)]).phase = .count ∧ presentCount (tableOf [(0x61#8, 5#32)]) = 1 ∧
      tableP3.phase = .count ∧ 2 ≤ presentCount tableP3 := by decide +kernel

/-- OneSymbolGetsTheEmptyCodeword. -/
theorem witness_oneSymbol :
    (tableOf [(0x61#8, 5#32)]).phase = .count ∧ freqAt (tableOf [(0x61#8, 5#32)]) 0x61#8 ≠ 0#32 ∧
      ∀ z, z ≠ 0x61#8 → freqAt (tableOf [(0x61#8, 5#32)]) z = 0#32 :=
  ⟨rfl, by decide +kernel, fun z hz => (freqAt_setFreq_ne _ _ _ _ hz).trans (freqZero_reset z)⟩

/-- SelectMinIsTheFirstSmallest. -/
theorem witness_selectMin : [2#9, 3#9] ≠ ([] : List NodeIdx) ∧ ∀ i ∈ [2#9, 3#9], (nodeAt forest2P3 i).isSome = true := by
  decide +kernel

/-- MergeJoinsTheTwoLeast: outside FOREST, with nodes left over, and for the last merge. -/
theorem witness_merge :
    tableP3.phase ≠ .forest ∧ (Inv forestP3 ∧ forestP3.phase = .forest) ∧ (Inv forest2P3 ∧ forest2P3.phase = .forest) :=
  ⟨by decide, ⟨inv_forestP3, rfl⟩, ⟨inv_forest2P3, rfl⟩⟩

/-- BuildFinishesTheTree, BuildIsSeedAndMerges, BuildCodeIsBuildThenAssign: both starting phases, both others, and a table
without a symbol. -/
theorem witness_build :
    (State.reset.phase = .count ∧ presentCount State.reset = 0) ∧
    (treeP3.phase = .tree ∧ codedP3.phase = .coded) ∧
    (Inv tableP3 ∧ tableP3.phase = .count ∧ 2 ≤ presentCount tableP3) ∧
    (Inv forestP3 ∧ forestP3.phase = .forest ∧ 1 + 2 ≤ forestP3.coll.length) :=
  ⟨⟨rfl, by decide +kernel⟩, ⟨rfl, rfl⟩, ⟨inv_tableP3, rfl, by decide +kernel⟩, ⟨inv_forestP3, rfl, by decide⟩⟩

/-- WeightedLengthIsTheInternalSum, CodeIsOptimal, MoreFrequentIsNotLonger: a table that codes, a prefix-free assignment, two
symbols of different counts. -/
theorem witness_optimal :
    Inv tableP3 ∧ tableP3.phase = .count ∧ (∃ t, exec .buildCode tableP3 = .next t ∧ t.err = .ok) ∧
    (∀ y z : Sym, freqAt tableP3 y ≠ 0#32 → freqAt tableP3 z ≠ 0#32 → y ≠ z →
      ¬ (fun x : Sym => (List.range 8).map x.getLsbD) y <+: (fun x : Sym => (List.range 8).map x.getLsbD) z) ∧
    freqAt tableP3 0x41#8 ≠ 0#32 ∧ freqAt tableP3 0x41#8 < freqAt tableP3 0x43#8 := by
  have hrun : ∃ t, exec .buildCode tableP3 = .next t ∧ t.err = .ok := by
    obtain ⟨t, h, e⟩ := gives_next test_buildCode_P3
    exact ⟨t, h, by rw [of_decide_eq_true e]; rfl⟩
  refine ⟨inv_tableP3, rfl, hrun, ?_, by decide +kernel, by decide +kernel⟩
  intro y z _ _ hyz h
  refine hyz (BitVec.eq_of_getLsbD_eq fun i hi => ?_)
  have e := h.eq_of_length (by simp)
  have := congrArg (fun l => l[i]?) e
  simpa [hi] using this

/-- BuildDependsOnlyOnTheTable: two states that differ elsewhere. -/
theorem witness_determinism :
    Inv tableP3 ∧ Inv { tableP3 with dataIn := 7#32, ovr := true } ∧ tableP3.phase = .count ∧
    (∃ t, exec .buildCode tableP3 = .next t) ∧
    ∃ t, exec .buildCode { tableP3 with dataIn := 7#32, ovr := true } = .next t := by
  obtain ⟨t, h, _⟩ := gives_next test_buildCode_P3
  obtain ⟨u, h', _⟩ := gives_next (p := fun t => t.err == .ok)
    (show gives (exec .buildCode { tableP3 with dataIn := 7#32, ovr := true }) _ = true by decide +kernel)
  exact ⟨inv_tableP3, inv_bus_side inv_tableP3 rfl, rfl, ⟨t, h⟩, ⟨u, h'⟩⟩

/-- AssignGivesEachLeafItsPath, DecResetReturnsToTheRoot, DecBitFollowsOneBranch: TREE and CODED, one leaf and several; paths
that lead to a leaf; a symbol without a leaf. -/
theorem witness_tree :
    (Inv treeP3 ∧ treeP3.phase = .tree ∧ treeP3.nleaf ≠ 1#9) ∧ (Inv codedP3 ∧ codedP3.phase = .coded) ∧
    (Inv treeOne ∧ treeOne.phase = .tree ∧ treeOne.nleaf = 1#9) ∧ (forestP3.phase ≠ .tree ∧ forestP3.phase ≠ .coded) ∧
    walk treeP3 treeP3.rootIdx [true, false] = some 0#9 ∧ nodeAt treeP3 0#9 = some (.leaf 0x41#8 1#40) ∧
    walk treeOne treeOne.rootIdx [] = some 0#9 ∧ 0x44#8 ∉ leafSyms treeP3 :=
  ⟨⟨inv_treeP3, rfl, by decide⟩, ⟨inv_codedP3, rfl⟩, ⟨inv_treeOne, rfl, rfl⟩, by decide, by decide +kernel, by decide +kernel,
    by decide +kernel, by decide +kernel⟩

/-- ReadCodeShowsTheEntry: both clauses. -/
theorem witness_readCode : treeP3.phase ≠ .coded ∧ codedP3.phase = .coded := by decide

/-- CodewordsArePrefixFree, KraftSumIsOne, DecodingACodewordGivesItsSymbol: a code of three symbols. -/
theorem witness_coded :
    Inv codedP3 ∧ codedP3.phase = .coded ∧ (codeAt codedP3 0x41#8).valid = true ∧ (codeAt codedP3 0x42#8).valid = true ∧
    2 ≤ codedP3.nleaf.toNat ∧ codedP3.decCur = codedP3.rootIdx ∧ codeBits (codeAt codedP3 0x41#8) = [true] ++ [false] :=
  ⟨inv_codedP3, rfl, by decide +kernel, by decide +kernel, by decide, rfl, by decide +kernel⟩

/-- CodeCoversExactlyThePresentSymbols: BUILD and then ASSIGN. -/
theorem witness_completeness :
    Inv tableP3 ∧ tableP3.phase = .count ∧ .clear ∉ [Instr.assign] ∧ 1 ≤ presentCount tableP3 ∧
    ∃ t, execSeq (.build :: [.assign]) tableP3 = .next t ∧ t.phase = .coded := by
  obtain ⟨t, h, e⟩ := gives_next (p := fun t => t.phase == .coded)
    (show gives (execSeq (.build :: [.assign]) tableP3) _ = true by decide +kernel)
  exact ⟨inv_tableP3, rfl, by decide, by decide +kernel, t, h, by simpa using e⟩

/-- ReadNodeShowsTheRecord: at and just below NODE_CNT; a leaf and an Internal node. -/
theorem witness_readNode :
    treeP3.nodeCnt ≤ 5#9 ∧ Inv treeP3 ∧ 4#9 < treeP3.nodeCnt ∧ 0#9 < treeP3.nodeCnt :=
  ⟨by decide, inv_treeP3, by decide, by decide⟩

/-- ReadCollShowsTheEntry: at and just below COLL_LEN. -/
theorem witness_readColl :
    forest2P3.coll.length ≤ (2#9).toNat ∧ Inv forest2P3 ∧ (1#9).toNat < forest2P3.coll.length :=
  ⟨by decide, inv_forest2P3, by decide⟩

/-- ResultsChangeOnlyByReadCommands: a command of each clause. -/
theorem witness_results :
    (∃ t, exec .merge forestP3 = .next t ∧ isReadType .merge = false ∧ Instr.merge ≠ .clear) ∧
    (∃ t, exec (.readNode 5#9) treeP3 = .next t ∧ t.err ≠ .ok) ∧ (∃ t, exec .clear codedP3 = .next t) ∧
    (∃ t, exec (.readFreq 0x41#8) tableP3 = .next t ∧ t.err = .ok) :=
  ⟨⟨_, rfl, rfl, by decide⟩, ⟨_, rfl, by decide⟩, ⟨_, rfl⟩, ⟨_, rfl, rfl⟩⟩

/-- DataInBelongsToTheHost: a command that gives a next state; BUSY = 0; a LOAD_FREQ that succeeds. -/
theorem witness_dataIn :
    (∃ t, exec (.loadFreq 0x41#8) tableP3 = .next t ∧ t.err = .ok) ∧ tableP3.busy = false := ⟨⟨_, rfl, rfl⟩, rfl⟩

/-- CodeTableEntriesAreWellFormed: a command that leaves CODE; an entry that is not valid. -/
theorem witness_codeTable :
    (∃ t, exec .decReset codedP3 = .next t) ∧ Inv codedP3 ∧ (codeAt codedP3 0x44#8).valid = false :=
  ⟨⟨_, rfl⟩, inv_codedP3, by decide +kernel⟩

/-- NodeRecordsAreNeverChanged. -/
theorem witness_nodeRecords :
    Inv forestP3 ∧ (∃ t, exec .merge forestP3 = .next t) ∧ nodeAt forestP3 2#9 = some (.leaf 0x43#8 2#40) :=
  ⟨inv_forestP3, ⟨_, rfl⟩, by decide +kernel⟩

/-- DecCurFollowsTheRoot: a merge that makes the root, and one that does not. -/
theorem witness_decCur :
    (Inv forest2P3 ∧ ∃ t, exec .merge forest2P3 = .next t ∧ forest2P3.rootValid = false ∧ t.rootValid = true) ∧
    (Inv forestP3 ∧ ∃ t, exec .merge forestP3 = .next t ∧ t.rootValid = false) ∧ (∃ t, exec .clear codedP3 = .next t) :=
  ⟨⟨inv_forest2P3, _, rfl, rfl, rfl⟩, ⟨inv_forestP3, _, rfl, rfl⟩, ⟨_, rfl⟩⟩

/-- StepKeepsTheInvariant, OnlyTheHostCanFault: a state in which a SEED is pending, and its completion step. -/
theorem witness_step :
    Inv { tableP3 with busy := true, pend := ⟨0x20000000#32, 0#32⟩ } ∧
    ∃ t, step { tableP3 with busy := true, pend := ⟨0x20000000#32, 0#32⟩ } = .next t ∧ t.phase = .forest :=
  ⟨inv_bus_side inv_tableP3 rfl, _, rfl, rfl⟩

/-- FrequencySumsAreExact, NodesAreOwnedOnce, PhasesHaveTheirCounts: a state with a counted symbol is reached from reset. -/
theorem witness_reachable : ∃ s, Reachable s ∧ freqAt s 0x61#8 = 1#32 :=
  ⟨_, ⟨[wr .cmd 0x10000061#32], [], 2, rfl⟩, by decide +kernel⟩

/-- The host's writes of CMD for these commands, one after the other. -/
def writesOf (is : List Instr) : List HostLine := is.map fun i => wr .cmd (encode i)

/-- TreeIsBounded: a finished tree reached from reset, and a path to a leaf of greatest depth. -/
theorem witness_bounded :
    ∃ s, Reachable s ∧ s.phase = .tree ∧ walk s s.rootIdx [true] = some 1#9 ∧ nodeAt s 1#9 = some (.leaf 0x42#8 1#40) := by
  obtain ⟨s, h, e⟩ := gives_next (o := Host.Core.run core 6
      { State.reset with script := writesOf [.count 0x41#8, .count 0x42#8, .build], sched := [] })
    (p := fun s => s.phase == .tree && walk s s.rootIdx [true] == some 1#9 &&
      nodeAt s 1#9 == some (.leaf 0x42#8 1#40)) (by decide +kernel)
  simp only [Bool.and_eq_true, beq_iff_eq] at e
  exact ⟨s, ⟨_, _, _, h⟩, e.1.1, e.1.2, e.2⟩

/-- CollectionOrderIsIndexOrder: a selection between a leaf and an Internal node, in a state reached from reset. -/
theorem witness_collectionOrder :
    ∃ s, Reachable s ∧ selectMin s s.coll = .ok 0 ∧ s.coll = [2#9, 3#9] ∧
      nodeAt s 2#9 = some (.leaf 0x43#8 1#40) ∧ nodeAt s 3#9 = some (.internal 0#9 1#9 2#40) := by
  obtain ⟨s, h, e⟩ := gives_next (o := Host.Core.run core 10
      { State.reset with
        script := writesOf [.count 0x41#8, .count 0x42#8, .count 0x43#8, .seed, .merge], sched := [] })
    (p := fun s => decide (selectMin s s.coll = .ok 0) && s.coll == [2#9, 3#9] &&
      nodeAt s 2#9 == some (.leaf 0x43#8 1#40) && nodeAt s 3#9 == some (.internal 0#9 1#9 2#40)) (by decide +kernel)
  simp only [Bool.and_eq_true, beq_iff_eq, decide_eq_true_eq] at e
  exact ⟨s, ⟨_, _, _, h⟩, e.1.1.1, e.1.1.2, e.1.2, e.2⟩

/-- OnlyAdmittedAccessesSucceed: each reason alone, and the last mapped offset. -/
theorem witness_access :
    (0x7#4 ≠ 0xF#4 ∧ (0x2A#8).toNat % 4 ≠ 0 ∧ 0x2C ≤ (0x2C#8).toNat) ∧ (0x28#8).toNat % 4 = 0 ∧ (0x28#8).toNat < 0x2C := by
  decide

/-- CommandIsAcceptedOrDropped, ResetAbandonsTheCommand: the host's turn with BUSY = 0 and with BUSY = 1. -/
theorem witness_hostTurn :
    (∃ s : State, s.busy = false ∧ s.script = wr .cmd 0x20000000#32 :: []) ∧
    (∃ s : State, s.busy = true ∧ s.script = wr .cmd 0x20000000#32 :: [] ∧ s.sched = .host :: []) ∧
    (∃ s : State, s.busy = true ∧ s.script = .reset :: [] ∧ s.sched = .host :: []) ∧
    (∃ s : State, s.busy = false ∧ s.script = .reset :: []) :=
  ⟨⟨{ State.reset with script := [wr .cmd 0x20000000#32] }, rfl, rfl⟩,
    ⟨{ busyWith 0#32 with script := [wr .cmd 0x20000000#32], sched := [.host] }, rfl, rfl, rfl⟩,
    ⟨{ busyWith 0#32 with script := [.reset], sched := [.host] }, rfl, rfl, rfl⟩,
    ⟨{ State.reset with script := [.reset] }, rfl, rfl⟩⟩

/-- RegisterViewsShowTheState, ReadsHaveNoSideEffect: BUSY = 0. -/
theorem witness_idleReads : codedP3.busy = false := rfl

/-- BusyReadsAreDraws: two busy states that differ in what may not show. -/
theorem witness_busyReads :
    (busyWith 0#32).busy = true ∧ ({ treeP3 with busy := true } : State).busy = true ∧
      (busyWith 0#32).draws = ({ treeP3 with busy := true } : State).draws := ⟨rfl, rfl, rfl⟩

/-- HostCannotWriteTheArrays. -/
theorem witness_hostMove : (∃ t, hostMove (wr .status 0x10#32) treeP3 = .next t) ∧ wr .status 0x10#32 ≠ .reset :=
  ⟨⟨_, rfl⟩, by decide⟩

/-- StepRunsTheDecodedCommand: each way the engine comes to move, a word for withFetchWord, and an idle machine. -/
theorem witness_stepRuns :
    (∃ s : State, s.busy = true ∧ decode s.pend.word = .ok .seed ∧ s.script = []) ∧
    (∃ s : State, s.busy = true ∧ decode s.pend.word = .ok .seed ∧ s.script = [.poll] ∧ s.sched = [.engine]) ∧
    decode (BitVec.ofNat 32 0x20000000) = .ok .seed ∧ (State.reset.busy = false ∧ State.reset.script = []) :=
  ⟨⟨busyWith 0x20000000#32, rfl, rfl, rfl⟩,
    ⟨{ busyWith 0x20000000#32 with script := [.poll], sched := [.engine] }, rfl, rfl, rfl, rfl⟩, rfl, rfl, rfl⟩

/-- DoIssuesAndWaits: `do COUNT 'a'` at reset. -/
theorem witness_do :
    ∃ s t : State, s.busy = false ∧ s.sched = [] ∧ s.script = issue (.count 0x61#8) ++ [] ∧
      exec (.count 0x61#8)
        { s with pend := ⟨encode (.count 0x61#8), s.dataIn⟩, busy := true, script := .poll :: [] } = .next t :=
  ⟨{ State.reset with script := issue (.count 0x61#8) ++ [] }, _, rfl, rfl, rfl, rfl⟩

/-- AcceptedCommandsComplete: a pending SEED while the host polls and tries another command. -/
theorem witness_completes :
    ∃ s, Inv s ∧ s.busy = true ∧ (∀ l ∈ s.script, l.isQuiet = true) ∧ s.script ≠ [] ∧ s.sched = [.host, .host] :=
  ⟨{ tableP3 with busy := true, pend := ⟨0x20000000#32, 0#32⟩, script := [.poll, wr .cmd 0#32], sched := [.host, .host] },
    inv_bus_side inv_tableP3 rfl, rfl, by decide, by decide, rfl⟩

end Sys2Proof.Tests
end

/-! ## Frames of the commands -/

namespace Sys2Proof.Machine

/-! ### One body per command -/

/-- The body each command hands to `completion`. -/
def bodyOf (i : Instr) (s : State) : Exec State :=
  match i with
  | .nop => .ok s
  | .clear => .ok (clearAll s)
  | .count y => countBody y s
  | .loadFreq y => loadFreqBody y s
  | .readFreq y => readFreqBody y s
  | .seed => seed s
  | .merge => mergeBody s
  | .build => build s
  | .buildCode => andThen (build s) assign
  | .assign => assignBody s
  | .readCode y w => readCodeBody y w s
  | .decReset => decResetBody s
  | .decBit b => decBitBody b s
  | .readNode k => readNodeBody k s
  | .readColl k => readCollBody k s

theorem exec_eq_completion (i : Instr) (s : State) : exec i s = completion s (bodyOf i s) := by
  cases i <;> rfl

/-! ### What a body that succeeds has done -/

theorem guarded_eq_ok {α : Type} {p : Prop} [Decidable p] {e : ErrCode} {x : Exec α} {a : α} :
    (if p then cmdError e else x) = .ok a ↔ ¬ p ∧ x = .ok a := by
  split <;> simp_all [cmdError]

theorem guarded_eq_cmdError {α : Type} {p : Prop} [Decidable p] {e e' : ErrCode} {x : Exec α} :
    (if p then cmdError e' else x) = cmdError e ↔ p ∧ e = e' ∨ ¬ p ∧ x = cmdError e := by
  split <;> simp_all [cmdError, eq_comm]

theorem inPhase_eq_ok {α : Type} {p q : Phase} {e : ErrCode} {x : Exec α} {a : α} :
    (if p ≠ q then cmdError e else x) = .ok a ↔ p = q ∧ x = .ok a := by
  rw [guarded_eq_ok, Decidable.not_not]

theorem ok_eq_ok {α : Type} {a b : α} : (.ok a : Exec α) = .ok b ↔ b = a :=
  ⟨fun h => (Except.ok.inj h).symm, fun h => h ▸ rfl⟩

theorem countBody_eq_ok {y : Sym} {s u : State} :
    countBody y s = .ok u ↔
      s.phase = .count ∧ freqAt s y ≠ 0xFFFFFFFF#32 ∧ u = setFreq s y (freqAt s y + 1#32) := by
  rw [countBody, inPhase_eq_ok, guarded_eq_ok, ok_eq_ok]

theorem loadFreqBody_eq_ok {y : Sym} {s u : State} :
    loadFreqBody y s = .ok u ↔ s.phase = .count ∧ u = setFreq s y (dataOperand s) := by
  rw [loadFreqBody, inPhase_eq_ok, ok_eq_ok]

theorem readFreqBody_eq_ok {y : Sym} {s u : State} :
    readFreqBody y s = .ok u ↔ s.phase = .count ∧ u = writeResults s (freqAt s y) 0#32 0#32 := by
  rw [readFreqBody, inPhase_eq_ok, ok_eq_ok]

theorem readCodeBody_eq_ok {y : Sym} {w : BitVec 3} {s u : State} :
    readCodeBody y w s = .ok u ↔ s.phase = .coded ∧
      u = writeResults s (flaggedByte (codeAt s y).valid (codeAt s y).len) (valueWord (codeAt s y).val w) 0#32 := by
  rw [readCodeBody, inPhase_eq_ok, ok_eq_ok]

/-- The phases of a finished tree, as the guards of ASSIGN, DEC_RESET and DEC_BIT write them. -/
theorem not_unfinished_iff {p : Phase} : ¬ (p ≠ .tree ∧ p ≠ .coded) ↔ p = .tree ∨ p = .coded := by
  cases p <;> decide

theorem assign_eq_ok {s u : State} :
    assign s = .ok u ↔ ∃ c, visit s (Config.codeLenMax + 1) s.rootIdx 0#255 0#8 clearCode = .ok c ∧
      u = { s with code := c, phase := .coded } := by
  simp only [assign, andThen_eq_ok, ok_eq_ok]

theorem assignBody_eq_ok {s u : State} :
    assignBody s = .ok u ↔ (s.phase = .tree ∨ s.phase = .coded) ∧ assign s = .ok u := by
  rw [assignBody, guarded_eq_ok, not_unfinished_iff]

theorem decResetBody_eq_ok {s u : State} :
    decResetBody s = .ok u ↔ (s.phase = .tree ∨ s.phase = .coded) ∧ u = { s with decCur := s.rootIdx } := by
  rw [decResetBody, guarded_eq_ok, not_unfinished_iff, ok_eq_ok]

/-- DEC_BIT succeeds where the root is an Internal node and the cursor's branch leads to a node. -/
theorem decBitBody_eq_ok {b : Bool} {s u : State} (h : decBitBody b s = .ok u) :
    (s.phase = .tree ∨ s.phase = .coded) ∧ ∃ root c r, nodeAt s s.rootIdx = some root ∧ root.isLeaf = false ∧
      nodeAt s s.decCur = some c ∧ nodeAt s (branch b c) = some r ∧ u = decArrive s (branch b c) r := by
  rw [decBitBody, guarded_eq_ok, not_unfinished_iff] at h
  obtain ⟨hp, h⟩ := h
  obtain ⟨root, hroot, h⟩ := andThen_eq_ok.mp h
  obtain ⟨hleaf, h⟩ := guarded_eq_ok.mp h
  obtain ⟨c, hc, h⟩ := andThen_eq_ok.mp h
  obtain ⟨r, hr, h⟩ := andThen_eq_ok.mp h
  exact ⟨hp, root, c, r, readNodeRec_eq_ok.mp hroot, by simpa using hleaf, readNodeRec_eq_ok.mp hc,
    readNodeRec_eq_ok.mp hr, ok_eq_ok.mp h⟩

theorem readNodeBody_eq_ok {k : NodeIdx} {s u : State} (h : readNodeBody k s = .ok u) :
    ∃ x, nodeAt s k = some x ∧ u = writeResults s (nodeShape x) (freqLow x.freq) (freqHigh x.freq) := by
  obtain ⟨-, h⟩ := guarded_eq_ok.mp h
  obtain ⟨x, hx, h⟩ := andThen_eq_ok.mp h
  exact ⟨x, readNodeRec_eq_ok.mp hx, ok_eq_ok.mp h⟩

theorem readCollBody_eq_ok {k : NodeIdx} {s u : State} (h : readCollBody k s = .ok u) :
    ∃ j x, collAt s k = some j ∧ nodeAt s j = some x ∧
      u = writeResults s (j.setWidth 32) (freqLow x.freq) (freqHigh x.freq) := by
  unfold readCollBody at h
  split at h
  · cases h
  · obtain ⟨x, hx, h⟩ := andThen_eq_ok.mp h
    exact ⟨_, x, by assumption, readNodeRec_eq_ok.mp hx, ok_eq_ok.mp h⟩

theorem mergeBody_eq_ok {s u : State} : mergeBody s = .ok u ↔ s.phase = .forest ∧ mergeOne s = .ok u := by
  rw [mergeBody, inPhase_eq_ok]

/-- SEED succeeds in COUNT with one present symbol, whose leaf is the root, or with several. -/
theorem seed_eq_ok {s u : State} (h : seed s = .ok u) :
    s.phase = .count ∧
      ((∃ y, presentSyms s = [y] ∧ u = becomeTree (plant s [y]) 0#9) ∨
        2 ≤ (presentSyms s).length ∧ u = { plant s (presentSyms s) with phase := .forest }) := by
  obtain ⟨hp, h⟩ := inPhase_eq_ok.mp h
  refine ⟨hp, ?_⟩
  rcases hys : presentSyms s with _ | ⟨y, _ | ⟨z, ys⟩⟩ <;> rw [hys] at h
  · cases h
  · exact .inl ⟨y, rfl, ok_eq_ok.mp h⟩
  · exact .inr ⟨by simp, ok_eq_ok.mp h⟩

theorem buildStart_eq_ok {s u : State} :
    buildStart s = .ok u ↔ s.phase = .count ∧ seed s = .ok u ∨ s.phase = .forest ∧ u = s := by
  cases hp : s.phase <;> simp [buildStart, hp, cmdError, eq_comm (b := u)]

theorem build_eq_ok {s u : State} :
    build s = .ok u ↔ ∃ t, buildStart s = .ok t ∧ mergeAll (collLen t) t = .ok u := andThen_eq_ok

/-- What every merge keeps, the whole loop of rule R104 keeps. -/
theorem mergeAll_induction {R : State → Prop} (hR : ∀ s t, R s → 1 < collLen s → mergeOne s = .ok t → R t)
    {n : Nat} {s t : State} (h : mergeAll n s = .ok t) (hs : R s) : R t := by
  induction n generalizing s with
  | zero => cases h; exact hs
  | succ n ih =>
    unfold mergeAll at h
    split at h
    · obtain ⟨u, hu, h⟩ := andThen_eq_ok.mp h
      exact ih h (hR s u hs (by assumption) hu)
    · cases h; exact hs

/-! ### Only a command's own errors (rule R160) -/

theorem readNodeRec_ne_cmdError (s : State) (i : NodeIdx) (e : ErrCode) : readNodeRec s i ≠ cmdError e :=
  readNodeRec_ne_cmdErr s i e

/-- What an error of a sequence comes from, where its first part raises none. -/
theorem andThen_eq_cmdError {α β : Type} {x : Exec α} {f : α → Exec β} {e : ErrCode}
    (h : andThen x f = cmdError e) (hx : x ≠ cmdError e) : ∃ a, x = .ok a ∧ f a = cmdError e :=
  (andThen_eq_error.mp h).resolve_left hx

theorem seed_raises {s : State} {e : ErrCode} (h : seed s = cmdError e) : e = .badPhase ∨ e = .emptyAlphabet := by
  rcases guarded_eq_cmdError.mp h with ⟨-, rfl⟩ | ⟨-, h⟩
  · exact .inl rfl
  · split at h <;> simp_all [cmdError]

theorem build_raises {s : State} {e : ErrCode} (h : build s = cmdError e) : e = .badPhase ∨ e = .emptyAlphabet := by
  rcases andThen_eq_error.mp h with h | ⟨t, -, h⟩
  · unfold buildStart at h
    split at h
    · exact seed_raises h
    · cases h
    · cases h; exact .inl rfl
    · cases h; exact .inl rfl
  · exact absurd h (mergeAll_ne_cmdErr _ _ e)

theorem decBitBody_raises {b : Bool} {s : State} {e : ErrCode} (h : decBitBody b s = cmdError e) :
    e = .badPhase ∨ e = .degenerate := by
  rcases guarded_eq_cmdError.mp h with ⟨-, rfl⟩ | ⟨-, h⟩
  · exact .inl rfl
  obtain ⟨root, -, h⟩ := andThen_eq_cmdError h (readNodeRec_ne_cmdError _ _ _)
  rcases guarded_eq_cmdError.mp h with ⟨-, rfl⟩ | ⟨-, h⟩
  · exact .inr rfl
  obtain ⟨c, -, h⟩ := andThen_eq_cmdError h (readNodeRec_ne_cmdError _ _ _)
  obtain ⟨r, -, h⟩ := andThen_eq_cmdError h (readNodeRec_ne_cmdError _ _ _)
  cases h

theorem readNodeBody_raises {k : NodeIdx} {s : State} {e : ErrCode} (h : readNodeBody k s = cmdError e) :
    e = .badIndex := by
  rcases guarded_eq_cmdError.mp h with ⟨-, rfl⟩ | ⟨-, h⟩
  · rfl
  · obtain ⟨x, -, h⟩ := andThen_eq_cmdError h (readNodeRec_ne_cmdError _ _ _)
    cases h

theorem readCollBody_raises {k : NodeIdx} {s : State} {e : ErrCode} (h : readCollBody k s = cmdError e) :
    e = .badIndex := by
  unfold readCollBody at h
  split at h
  · cases h; rfl
  · obtain ⟨x, -, h⟩ := andThen_eq_cmdError h (readNodeRec_ne_cmdError _ _ _)
    cases h

theorem bodyOf_raises {i : Instr} {s : State} {e : ErrCode} (h : bodyOf i s = cmdError e) : e ∈ raisable i := by
  cases i with
  | nop | clear => cases h
  | count y =>
    rcases guarded_eq_cmdError.mp h with ⟨-, rfl⟩ | ⟨-, h⟩
    · simp [raisable]
    · rcases guarded_eq_cmdError.mp h with ⟨-, rfl⟩ | ⟨-, h⟩
      · simp [raisable]
      · cases h
  | loadFreq y | readFreq y | readCode y w | decReset =>
    rcases guarded_eq_cmdError.mp h with ⟨-, rfl⟩ | ⟨-, h⟩
    · simp [raisable]
    · cases h
  | seed => simpa [raisable, or_comm] using seed_raises h
  | merge =>
    rcases guarded_eq_cmdError.mp h with ⟨-, rfl⟩ | ⟨-, h⟩
    · simp [raisable]
    · exact absurd h (mergeOne_ne_cmdErr _ e)
  | build => simpa [raisable, or_comm] using build_raises h
  | buildCode =>
    rcases andThen_eq_error.mp h with h | ⟨t, -, h⟩
    · simpa [raisable, or_comm] using build_raises h
    · exact absurd h (assign_ne_cmdErr _ e)
  | assign =>
    rcases guarded_eq_cmdError.mp h with ⟨-, rfl⟩ | ⟨-, h⟩
    · simp [raisable]
    · exact absurd h (assign_ne_cmdErr _ e)
  | decBit b => simpa [raisable] using decBitBody_raises h
  | readNode k => simpa [raisable] using readNodeBody_raises h
  | readColl k => simpa [raisable] using readCollBody_raises h

theorem ok_not_raisable (i : Instr) : ErrCode.ok ∉ raisable i := by
  cases i <;> simp [raisable]

/-- What a command that gives a next state has done: its body's writes, or an error of its own and nothing else. -/
theorem exec_next {i : Instr} {s t : State} (h : exec i s = .next t) :
    (∃ u, bodyOf i s = .ok u ∧ t = { u with err := .ok, busy := false }) ∨
    (∃ e ∈ raisable i, t = { s with err := e, busy := false }) := by
  rw [exec_eq_completion] at h
  rcases completion_next h with ⟨u, hu, rfl⟩ | ⟨e, he, rfl⟩
  · exact .inl ⟨u, hu, rfl⟩
  · exact .inr ⟨e, bodyOf_raises he, rfl⟩

theorem exec_next_of_ok {i : Instr} {s t : State} (h : exec i s = .next t) (ht : t.err = .ok) :
    ∃ u, bodyOf i s = .ok u ∧ t = { u with err := .ok, busy := false } := by
  rcases exec_next h with hu | ⟨e, he, rfl⟩
  · exact hu
  · exact absurd (ht ▸ he) (ok_not_raisable i)

theorem exec_next_of_not_ok {i : Instr} {s t : State} (h : exec i s = .next t) (ht : t.err ≠ .ok) :
    t = { s with err := t.err, busy := false } := by
  rcases exec_next h with ⟨u, -, rfl⟩ | ⟨e, -, rfl⟩
  · exact absurd rfl ht
  · rfl

theorem exec_clear_next {s t : State} (h : exec .clear s = .next t) :
    t = { clearAll s with err := .ok, busy := false } :=
  (Host.Outcome.next.inj h).symm

/-! ### Frames -/

/-- `t` is `s` but for the bus side of the state: DATA_IN, PEND, BUSY, OVR, ERR, the results and the host's own fields. -/
def BusSideOnly (s t : State) : Prop :=
  t = { s with
    dataIn := t.dataIn, busy := t.busy, ovr := t.ovr, err := t.err, result0 := t.result0, result1 := t.result1,
    result2 := t.result2, pend := t.pend, script := t.script, sched := t.sched, reads := t.reads, missed := t.missed,
    draws := t.draws }

/-- `t` is `s` but for what the TreeBuilder writes: FREQ, the arena, COLL, the counters, PHASE, the root and the cursor. -/
def BuilderOnly (s t : State) : Prop :=
  t = { s with
    freq := t.freq, node := t.node, nodeCnt := t.nodeCnt, coll := t.coll, nleaf := t.nleaf, phase := t.phase,
    rootValid := t.rootValid, rootIdx := t.rootIdx, decCur := t.decCur }

/-- `t` is `s` but for what the read-type commands write: the results and the cursor. -/
def ReadingOnly (s t : State) : Prop :=
  t = { s with result0 := t.result0, result1 := t.result1, result2 := t.result2, decCur := t.decCur }

theorem BuilderOnly.trans {s t u : State} (h : BuilderOnly s t) (h' : BuilderOnly t u) : BuilderOnly s u := by
  unfold BuilderOnly at *
  rw [h', h]

theorem mergeOne_builderOnly {s t : State} (h : mergeOne s = .ok t) : BuilderOnly s t := by
  obtain ⟨a, c, b, d, ra, rb, -, -, -, -, -, rfl⟩ := mergeOne_eq_ok h
  rcases stopIfOne_eq _ with e | ⟨k, -, e⟩
  · rw [e]; rfl
  · rw [e]; rfl

theorem seed_builderOnly {s t : State} (h : seed s = .ok t) : BuilderOnly s t := by
  obtain ⟨-, ⟨y, -, rfl⟩ | ⟨-, rfl⟩⟩ := seed_eq_ok h
  · rfl
  · rfl

theorem build_builderOnly {s u : State} (h : build s = .ok u) : BuilderOnly s u := by
  obtain ⟨t, ht, h⟩ := build_eq_ok.mp h
  have hst : BuilderOnly s t := by
    rcases buildStart_eq_ok.mp ht with ⟨-, ht⟩ | ⟨-, rfl⟩
    · exact seed_builderOnly ht
    · rfl
  exact mergeAll_induction (R := BuilderOnly s) (fun _ _ hs _ hm => hs.trans (mergeOne_builderOnly hm)) h hst

theorem bodyOf_readingOnly {i : Instr} {s u : State} (hi : isReadType i = true) (h : bodyOf i s = .ok u) :
    ReadingOnly s u := by
  cases i with
  | readFreq y => obtain ⟨-, rfl⟩ := readFreqBody_eq_ok.mp h; rfl
  | readCode y w => obtain ⟨-, rfl⟩ := readCodeBody_eq_ok.mp h; rfl
  | decBit b =>
    obtain ⟨-, root, c, r, -, -, -, -, rfl⟩ := decBitBody_eq_ok h
    cases r <;> rfl
  | readNode k => obtain ⟨x, -, rfl⟩ := readNodeBody_eq_ok h; rfl
  | readColl k => obtain ⟨j, x, -, -, rfl⟩ := readCollBody_eq_ok h; rfl
  | nop | clear | count y | loadFreq y | seed | merge | build | buildCode | assign | decReset => cases hi

/-- A command that neither reads nor clears nor assigns codewords writes what the TreeBuilder writes, or less. -/
theorem bodyOf_builderOnly {i : Instr} {s u : State} (hi : isReadType i = false) (hc : i ≠ .clear)
    (ha : i ≠ .assign) (hb : i ≠ .buildCode) (h : bodyOf i s = .ok u) : BuilderOnly s u := by
  cases i with
  | nop => cases h; rfl
  | count y => obtain ⟨-, -, rfl⟩ := countBody_eq_ok.mp h; rfl
  | loadFreq y => obtain ⟨-, rfl⟩ := loadFreqBody_eq_ok.mp h; rfl
  | seed => exact seed_builderOnly h
  | merge => exact mergeOne_builderOnly (mergeBody_eq_ok.mp h).2
  | build => exact build_builderOnly h
  | decReset => obtain ⟨-, rfl⟩ := decResetBody_eq_ok.mp h; rfl
  | clear => exact absurd rfl hc
  | assign => exact absurd rfl ha
  | buildCode => exact absurd rfl hb
  | readFreq y | readCode y w | decBit b | readNode k | readColl k => cases hi

/-- ASSIGN and BUILD_CODE put the codewords in place after a builder's work (rules R105, R121). -/
theorem bodyOf_assigning {i : Instr} {s u : State} (hi : i = .assign ∨ i = .buildCode) (h : bodyOf i s = .ok u) :
    ∃ t, BuilderOnly s t ∧ assign t = .ok u := by
  rcases hi with rfl | rfl
  · exact ⟨s, rfl, (assignBody_eq_ok.mp h).2⟩
  · obtain ⟨t, ht, h⟩ := andThen_eq_ok.mp h
    exact ⟨t, build_builderOnly ht, h⟩

/-- A command that is neither read-type nor CLEAR writes what the TreeBuilder and Assign write, or less. -/
theorem bodyOf_treeOnly {i : Instr} {s u : State} (hi : isReadType i = false) (hc : i ≠ .clear)
    (h : bodyOf i s = .ok u) : ∃ t c p, BuilderOnly s t ∧ u = { t with code := c, phase := p } := by
  by_cases ha : i = .assign ∨ i = .buildCode
  · obtain ⟨t, ht, h⟩ := bodyOf_assigning ha h
    obtain ⟨c, -, rfl⟩ := assign_eq_ok.mp h
    exact ⟨t, c, .coded, ht, rfl⟩
  · rw [not_or] at ha
    exact ⟨u, u.code, u.phase, bodyOf_builderOnly hi hc ha.1 ha.2 h, rfl⟩

end Sys2Proof.Machine

/-! ## The arena and its collection -/

namespace Sys2Proof.Machine

/-! ### Records and entries -/

theorem nodeAt_eq_get {s : State} {i : NodeIdx} (h : i.toNat < 511) : nodeAt s i = s.node.get i.toNat h := by
  simp [nodeAt, h]

theorem mem_records {s : State} {r : NodeRec} : r ∈ records s ↔ ∃ i, nodeAt s i = some r := by
  have hr : r ∈ records s ↔ some r ∈ s.node.entries := by simp [records]
  rw [hr, List.mem_iff_getElem]
  constructor
  · rintro ⟨k, hk, e⟩
    have hk' : k < 511 := s.node.size ▸ hk
    have hi : (BitVec.ofNat 9 k).toNat = k := by simp; omega
    refine ⟨BitVec.ofNat 9 k, ?_⟩
    rw [nodeAt_eq_get (hi.symm ▸ hk'), ← e]
    simp only [hi, Table.get]
  · rintro ⟨i, e⟩
    have hi := nodeAt_isSome_lt (s := s) (i := i) (by simp [e])
    exact ⟨i.toNat, s.node.size.symm ▸ hi, by rw [← e, nodeAt_eq_get hi, Table.get]⟩

theorem mem_leafSyms {s : State} {y : Sym} : y ∈ leafSyms s ↔ ∃ i f, nodeAt s i = some (.leaf y f) := by
  rw [leafSyms, List.mem_filterMap]
  constructor
  · rintro ⟨r, hr, e⟩
    obtain ⟨i, hi⟩ := mem_records.mp hr
    cases r with
    | leaf z f => cases e; exact ⟨i, f, hi⟩
    | internal l r f => cases e
  · rintro ⟨i, f, hi⟩
    exact ⟨_, mem_records.mpr ⟨i, hi⟩, rfl⟩

theorem mem_children {s : State} {j : NodeIdx} :
    j ∈ children s ↔ ∃ i l r f, nodeAt s i = some (.internal l r f) ∧ (j = l ∨ j = r) := by
  rw [children, List.mem_flatMap]
  constructor
  · rintro ⟨x, hx, hj⟩
    obtain ⟨i, hi⟩ := mem_records.mp hx
    cases x with
    | leaf z f => cases hj
    | internal l r f => exact ⟨i, l, r, f, hi, by simpa using hj⟩
  · rintro ⟨i, l, r, f, hi, hj⟩
    exact ⟨_, mem_records.mpr ⟨i, hi⟩, by simpa using hj⟩

theorem freqNat_eq {s : State} {i : NodeIdx} {r : NodeRec} (h : nodeAt s i = some r) : freqNat s i = r.freq.toNat := by
  simp [freqNat, h]

theorem freqNat_congr {s t : State} {i j : NodeIdx} (h : nodeAt s i = nodeAt t j) : freqNat s i = freqNat t j := by
  rw [freqNat, freqNat, h]

/-- Filling an empty slot adds its record to the others. -/
theorem filterMap_set_none {l : List (Option NodeRec)} {k : Nat} (hk : k < l.length) (h : l[k] = none) (r : NodeRec) :
    ((l.set k (some r)).filterMap id).Perm (r :: l.filterMap id) := by
  have hl : l.filterMap id = (l.take k ++ l.drop (k + 1)).filterMap id := by
    conv_lhs => rw [← List.take_append_drop k l, List.drop_eq_getElem_cons hk, h]
    simp
  rw [hl, List.set_eq_take_append_cons_drop, if_pos hk]
  simp

theorem records_set {s t : State} {k : Nat} {r : NodeRec} (hk : k < 511) (h : s.node.get k hk = none)
    (ht : t.node = s.node.set k (some r)) : (records t).Perm (r :: records s) := by
  rw [records, ht]
  exact filterMap_set_none (s.node.size.symm ▸ hk) h r

theorem leafSyms_of_internal {s t : State} {a b : NodeIdx} {f : Freq}
    (h : (records t).Perm (.internal a b f :: records s)) : (leafSyms t).Perm (leafSyms s) :=
  h.filterMap _

theorem children_of_internal {s t : State} {a b : NodeIdx} {f : Freq}
    (h : (records t).Perm (.internal a b f :: records s)) : (children t).Perm (a :: b :: children s) :=
  h.flatMap_right _

theorem leafSyms_of_leaves {s t : State} {ys : List Sym} (h : (records t).Perm (ys.map (leafOf s))) :
    (leafSyms t).Perm ys := by
  have := h.filterMap fun | .leaf y _ => some y | .internal _ _ _ => none
  rw [List.filterMap_map] at this
  exact this.trans (by simp [leafOf, Function.comp_def])

theorem children_of_leaves {s t : State} {ys : List Sym} (h : (records t).Perm (ys.map (leafOf s))) :
    children t = [] := by
  rw [List.eq_nil_iff_forall_not_mem]
  intro j hj
  obtain ⟨i, l, r, f, hi, -⟩ := mem_children.mp hj
  obtain ⟨y, -, hy⟩ := List.mem_map.mp (h.mem_iff.mp (mem_records.mpr ⟨i, hi⟩))
  cases hy

end Sys2Proof.Machine

/-! ## The invariant's arena part -/

namespace Sys2Proof.Machine

/-- The part of `Inv` that speaks of the arena alone: NODE, NODE_CNT, COLL and NLEAF. -/
structure ArenaOk (s : State) : Prop where
  slots : SlotsOk s
  freqSum : FreqSumOk s
  symsUnique : SymsUnique s
  ownedOnce : OwnedOnce s
  edgesDown : EdgesDown s
  collSorted : CollSorted s
  weights : WeightsBounded s

theorem Inv.arena {s : State} (h : Inv s) : ArenaOk s :=
  ⟨h.slots, h.freqSum, h.symsUnique, h.ownedOnce, h.edgesDown, h.collSorted, h.weights⟩

theorem ArenaOk.inv {s : State} (h : ArenaOk s) (hp : PhaseTable s) (hc : CursorOk s) (hv : CodedByTree s) : Inv s :=
  ⟨h.slots, h.freqSum, h.symsUnique, h.ownedOnce, h.edgesDown, h.collSorted, hp, h.weights, hc, hv⟩

theorem ArenaOk.congr {s t : State} (h : ArenaOk s) (hn : t.node = s.node) (hk : t.nodeCnt = s.nodeCnt)
    (hc : t.coll = s.coll) (hl : t.nleaf = s.nleaf) : ArenaOk t := by
  have hnode : nodeAt t = nodeAt s := funext fun i => nodeAt_congr hn i
  have hfreq : freqNat t = freqNat s := funext fun i => freqNat_congr (congrFun hnode i)
  have hrec : records t = records s := by rw [records, records, hn]
  have hsyms : leafSyms t = leafSyms s := by rw [leafSyms, leafSyms, hrec]
  have hch : children t = children s := by rw [children, children, hrec]
  obtain ⟨h1, h2, h3, h4, h5, h6, h7⟩ := h
  constructor <;> simpa only [SlotsOk, FreqSumOk, SymsUnique, OwnedOnce, EdgesDown, CollSorted, WeightsBounded, hnode,
    hfreq, hsyms, hch, hk, hc, hl]

section
variable {s : State} (h : ArenaOk s)
include h

theorem ArenaOk.isSome_iff {i : NodeIdx} : (nodeAt s i).isSome = true ↔ i < s.nodeCnt := by
  rw [h.slots i, decide_eq_true_iff]

theorem ArenaOk.lt_nodeCnt {i : NodeIdx} {r : NodeRec} (hi : nodeAt s i = some r) : i < s.nodeCnt :=
  h.isSome_iff.mp (by simp [hi])

theorem ArenaOk.nodeAt_eq_none {i : NodeIdx} (hi : ¬ i < s.nodeCnt) : nodeAt s i = none :=
  Option.not_isSome_iff_eq_none.mp (mt h.isSome_iff.mp hi)

theorem ArenaOk.exists_node {i : NodeIdx} (hi : i < s.nodeCnt) : ∃ r, nodeAt s i = some r :=
  Option.isSome_iff_exists.mp (h.isSome_iff.mpr hi)

theorem ArenaOk.mem_owned {i : NodeIdx} : i ∈ s.coll ++ children s ↔ i < s.nodeCnt := by
  rw [h.ownedOnce.mem_iff, List.mem_map, BitVec.lt_def]
  constructor
  · rintro ⟨k, hk, rfl⟩
    have := List.mem_range.mp hk
    have := s.nodeCnt.isLt
    simp only [BitVec.toNat_ofNat]
    omega
  · intro hi
    exact ⟨i.toNat, List.mem_range.mpr hi, by simp⟩

theorem ArenaOk.lt_of_mem_coll {i : NodeIdx} (hi : i ∈ s.coll) : i < s.nodeCnt :=
  h.mem_owned.mp (List.mem_append_left _ hi)

/-- Rule R38, last part, for an Internal node: its children lie below it. -/
theorem ArenaOk.children_lt {i l r : NodeIdx} {f : Freq} (hi : nodeAt s i = some (.internal l r f)) : l < i ∧ r < i :=
  (h.edgesDown i _ hi).2

/-- Rule R36 for an Internal node. -/
theorem ArenaOk.freq_internal {i l r : NodeIdx} {f : Freq} (hi : nodeAt s i = some (.internal l r f)) :
    f.toNat = freqNat s l + freqNat s r := h.freqSum i _ hi

/-- Rule R36 for a Leaf. -/
theorem ArenaOk.freq_leaf {i : NodeIdx} {y : Sym} {f : Freq} (hi : nodeAt s i = some (.leaf y f)) : 1 ≤ f.toNat :=
  h.freqSum i _ hi

end

/-- An arena without records and an empty collection meet their part of the invariant. -/
theorem ArenaOk.of_empty {s : State} (hn : ∀ i, nodeAt s i = none) (hk : s.nodeCnt = 0#9) (hc : s.coll = [])
    (hl : s.nleaf = 0#9) : ArenaOk s := by
  have hrec : records s = [] := List.eq_nil_iff_forall_not_mem.mpr fun r hr => by
    obtain ⟨i, hi⟩ := mem_records.mp hr
    simp [hn] at hi
  constructor
  · intro i; simp [hn, hk, BitVec.lt_def]
  · intro i r hr; simp [hn] at hr
  · simp [SymsUnique, leafSyms, hrec]
  · simp [OwnedOnce, children, hrec, hk, hc]
  · intro i r hr; simp [hn] at hr
  · simp [CollSorted, hc]
  · simp [WeightsBounded, hl, hc]

/-! ### Reset and CLEAR -/

theorem nodeAt_reset (i : NodeIdx) : nodeAt State.reset i = none := by
  unfold nodeAt
  split
  · exact Table.get_fill _ _ _ _
  · rfl

theorem inv_reset : Inv State.reset :=
  (ArenaOk.of_empty nodeAt_reset rfl rfl rfl).inv
    ⟨fun _ => ⟨rfl, rfl, rfl, rfl, rfl, rfl⟩, by decide, by decide, by decide, by decide⟩ (by decide) nofun

theorem visit_congr {s t : State} (h : t.node = s.node) (levels : Nat) (i : NodeIdx) (v : BitVec 255) (len : BitVec 8)
    (c : Table CodeEntry 256) : visit t levels i v len c = visit s levels i v len c := by
  have hread : readNodeRec t = readNodeRec s := funext fun i => by rw [readNodeRec, readNodeRec, nodeAt_congr h]
  induction levels generalizing i v len c with
  | zero => rfl
  | succ levels ih => simp only [visit, ih, hread]

theorem Inv.congr {s t : State} (h : Inv s) (e : BusSideOnly s t) : Inv t := by
  have harena : ArenaOk t := h.arena.congr (by rw [e]) (by rw [e]) (by rw [e]) (by rw [e])
  refine harena.inv ?_ ?_ ?_
  · have := h.phaseTable
    rw [e]; exact this
  · have := h.cursor
    rw [e]; exact this
  · have := h.coded
    rw [CodedByTree, visit_congr (show t.node = s.node by rw [e]), e]; exact this

/-! ### Planting the leaves (rule R100) -/

/-- Records put into empty slots from slot k on are all there is above the records of before. -/
theorem filterMap_putNodes (rs : List NodeRec) (v : Table (Option NodeRec) 511) (k : Nat) (hk : k + rs.length ≤ 511)
    (hv : ∀ j (hj : j < 511), k ≤ j → v.get j hj = none) :
    ((putNodes v k rs).entries.filterMap id).Perm (rs ++ v.entries.filterMap id) := by
  induction rs generalizing v k with
  | nil => exact .refl _
  | cons r rs ih =>
    have hk' : k < 511 := by rw [List.length_cons] at hk; omega
    have hset : ((v.set k (some r)).entries.filterMap id).Perm (r :: v.entries.filterMap id) :=
      filterMap_set_none (v.size.symm ▸ hk') (hv k hk' (Nat.le_refl k)) r
    refine (ih (v.set k (some r)) (k + 1) (by rw [List.length_cons] at hk; omega) ?_).trans ?_
    · intro j hj hkj
      rw [Table.get_set_ne _ _ _ _ hj (by omega)]
      exact hv j hj (by omega)
    · exact (hset.append_left rs).trans List.perm_middle

theorem presentSyms_nodup (s : State) : (presentSyms s).Nodup := by
  refine List.Nodup.filter _ (List.Nodup.map_on ?_ List.nodup_range)
  intro a ha b hb e
  have := congrArg BitVec.toNat e
  simp only [List.mem_range] at ha hb
  simpa [Nat.mod_eq_of_lt ha, Nat.mod_eq_of_lt hb] using this

theorem presentSyms_length_le (s : State) : (presentSyms s).length ≤ 256 :=
  (List.length_filter_le _ allSyms).trans_eq (by simp [allSyms])

theorem freqAt_ne_zero_of_present {s : State} {y : Sym} (h : y ∈ presentSyms s) : freqAt s y ≠ 0#32 := by
  simpa [presentSyms] using (List.mem_filter.mp h).2

section
variable {s : State} {ys : List Sym} (hn : ∀ i, nodeAt s i = none) (hlen : ys.length ≤ 256)
include hn hlen

/-- Leaf k is NODE[k]. -/
theorem nodeAt_plant (i : NodeIdx) : nodeAt (plant s ys) i = (ys[i.toNat]?).map (leafOf s) := by
  by_cases hi : i.toNat < 511
  · have hnone : s.node.get i.toNat hi = none := (nodeAt_eq_get hi).symm.trans (hn i)
    rw [nodeAt_eq_get hi, plant_node, putNodes_get, if_pos (Nat.zero_le _), hnone, Nat.sub_zero, List.getElem?_map]
    cases ys[i.toNat]? <;> rfl
  · rw [nodeAt, dif_neg hi, List.getElem?_eq_none (by omega), Option.map_none]

theorem records_plant : (records (plant s ys)).Perm (ys.map (leafOf s)) := by
  have hempty : records s = [] := List.eq_nil_iff_forall_not_mem.mpr fun r hr => by
    obtain ⟨i, hi⟩ := mem_records.mp hr
    simp [hn] at hi
  have h := filterMap_putNodes (ys.map (leafOf s)) s.node 0 (by rw [List.length_map]; omega) ?_
  · rw [← records, hempty, List.append_nil] at h
    exact h
  · intro j hj _
    have hj9 : (BitVec.ofNat 9 j).toNat = j := by simp; omega
    have := hn (BitVec.ofNat 9 j)
    rw [nodeAt_eq_get (hj9.symm ▸ hj)] at this
    simpa only [hj9] using this

theorem freqNat_plant {k : Nat} (hk : k < ys.length) :
    freqNat (plant s ys) (BitVec.ofNat 9 k) = (freqAt s ys[k]).toNat := by
  have hk9 : (BitVec.ofNat 9 k).toNat = k := by simp; omega
  have hnode : nodeAt (plant s ys) (BitVec.ofNat 9 k) = some (leafOf s ys[k]) := by
    rw [nodeAt_plant hn hlen, hk9, List.getElem?_eq_getElem hk, Option.map_some]
  rw [freqNat_eq hnode, leafOf, NodeRec.freq, BitVec.toNat_setWidth]
  have := (freqAt s ys[k]).isLt
  omega

theorem arenaOk_plant (hnodup : ys.Nodup) (hpos : ∀ y ∈ ys, freqAt s y ≠ 0#32) : ArenaOk (plant s ys) := by
  have hcnt : (plant s ys).nodeCnt.toNat = ys.length := by simp; omega
  have hleaf : ∀ (i : NodeIdx) (r : NodeRec), nodeAt (plant s ys) i = some r →
      ∃ y, ys[i.toNat]? = some y ∧ r = leafOf s y := by
    intro i r hr
    rw [nodeAt_plant hn hlen] at hr
    obtain ⟨y, hy, e⟩ := Option.map_eq_some_iff.mp hr
    exact ⟨y, hy, e.symm⟩
  constructor
  case slots =>
    intro i
    rw [nodeAt_plant hn hlen, Option.isSome_map, Bool.eq_iff_iff, decide_eq_true_iff, BitVec.lt_def, hcnt]
    simp
  case freqSum =>
    intro i r hr
    obtain ⟨y, hy, rfl⟩ := hleaf i r hr
    have hne : (freqAt s y).toNat ≠ 0 := fun e => hpos y (List.mem_of_getElem? hy) (BitVec.eq_of_toNat_eq e)
    have hlt := (freqAt s y).isLt
    simp only [leafOf, NodeRec.isLeaf, if_true, NodeRec.freq, BitVec.toNat_setWidth]
    omega
  case symsUnique => exact (leafSyms_of_leaves (records_plant hn hlen)).nodup_iff.mpr hnodup
  case ownedOnce =>
    rw [OwnedOnce, children_of_leaves (records_plant hn hlen), hcnt, plant_coll, List.append_nil]
  case edgesDown =>
    intro i r hr
    obtain ⟨y, hy, rfl⟩ := hleaf i r hr
    have hi := (List.getElem?_eq_some_iff.mp hy).1
    simp only [leafOf, NodeRec.isLeaf, if_true, plant_nleaf, BitVec.lt_def, BitVec.toNat_ofNat]
    omega
  case collSorted =>
    rw [CollSorted, plant_coll, List.pairwise_map]
    refine List.pairwise_lt_range.imp_of_mem ?_
    intro a b ha hb hab
    rw [List.mem_range] at ha hb
    simp only [BitVec.lt_def, BitVec.toNat_ofNat]
    omega
  case weights =>
    have hnleaf : (plant s ys).nleaf.toNat = ys.length := hcnt
    refine ⟨hnleaf ▸ hlen, ?_⟩
    have hle : ∀ w ∈ ((plant s ys).coll.map (freqNat (plant s ys))), w ≤ 2 ^ 32 - 1 := by
      intro w hw
      rw [plant_coll, List.map_map] at hw
      obtain ⟨k, hk, rfl⟩ := List.mem_map.mp hw
      rw [Function.comp_apply, freqNat_plant hn hlen (List.mem_range.mp hk)]
      have := (freqAt s (ys[k]'(List.mem_range.mp hk))).isLt
      omega
    exact (List.sum_le_card_nsmul _ _ hle).trans_eq
      (by rw [List.length_map, plant_coll, List.length_map, List.length_range, hnleaf, smul_eq_mul])

end

end Sys2Proof.Machine

/-! ## The builder keeps the invariant -/

namespace Sys2Proof.Machine

/-! ### SEED -/

theorem Inv.nodeAt_count {s : State} (h : Inv s) (hp : s.phase = .count) (i : NodeIdx) : nodeAt s i = none := by
  have hcnt : s.nodeCnt = 0#9 := (h.phaseTable.1 hp).1
  refine h.arena.nodeAt_eq_none ?_
  simp [hcnt, BitVec.lt_def]

theorem arenaOk_presentSyms {s : State} (h : Inv s) (hp : s.phase = .count) : ArenaOk (plant s (presentSyms s)) :=
  arenaOk_plant (h.nodeAt_count hp) (presentSyms_length_le s) (presentSyms_nodup s)
    fun _ hy => freqAt_ne_zero_of_present hy

theorem seed_inv {s u : State} (h : Inv s) (hu : seed s = .ok u) : Inv u := by
  obtain ⟨hp, hcase⟩ := seed_eq_ok hu
  obtain ⟨-, -, -, hvalid, hroot, hcode⟩ := h.phaseTable.1 hp
  have harena := arenaOk_presentSyms h hp
  have hlen := presentSyms_length_le s
  rcases hcase with ⟨y, hys, rfl⟩ | ⟨htwo, rfl⟩
  · rw [hys] at harena
    have hnode : nodeAt (plant s [y]) 0#9 = some (leafOf s y) := nodeAt_plant (h.nodeAt_count hp) (by simp) 0#9
    refine (harena.congr rfl rfl rfl rfl : ArenaOk (becomeTree (plant s [y]) 0#9)).inv ?_ ?_ nofun
    · exact ⟨nofun, nofun, fun _ => ⟨rfl, rfl, rfl, Nat.le_refl 1, rfl, rfl⟩, fun _ => hcode, nofun⟩
    · exact fun _ => ⟨Option.isSome_iff_exists.mpr ⟨_, hnode⟩, rfl, fun _ => rfl⟩
  · have hcnt : (BitVec.ofNat 9 (presentSyms s).length).toNat = (presentSyms s).length := by simp; omega
    have hcoll : (plant s (presentSyms s)).coll.length = (presentSyms s).length := by simp
    refine (harena.congr rfl rfl rfl rfl : ArenaOk { plant s (presentSyms s) with phase := .forest }).inv ?_ ?_ nofun
    · refine ⟨nofun, fun _ => ⟨?_, ?_, ?_, hvalid, hroot, rfl, hcode⟩, by simp, nofun, nofun⟩
      · simp only [plant_nodeCnt, plant_nleaf, hcnt, hcoll, Nat.sub_self, Nat.add_zero]
      · exact hcoll.symm ▸ htwo
      · simp only [plant_nleaf, hcnt, hcoll, Nat.le_refl]
    · intro hv
      exact absurd (hvalid.symm.trans hv) (by decide)

/-! ### MERGE -/

/-- The state after a merge, before the test for a finished tree: a new Internal node over `a` and `b`, and what is left of
the collection with the new node at its end (rule R102). -/
def joined (s : State) (a b : NodeIdx) (f : Freq) (d : List NodeIdx) : State :=
  { s with
    node := s.node.set s.nodeCnt.toNat (some (.internal a b f)), nodeCnt := s.nodeCnt + 1#9, coll := d ++ [s.nodeCnt] }

/-- An extraction takes one node out of the collection and leaves the others in their order. -/
theorem extractMin_split {s : State} {is rest : List NodeIdx} {a : NodeIdx} (h : extractMin s is = .ok (a, rest)) :
    is.Perm (a :: rest) ∧ rest.Sublist is := by
  obtain ⟨k, -, hk, rfl⟩ := extractMin_eq_ok.mp h
  obtain ⟨hlt, rfl⟩ := List.getElem?_eq_some_iff.mp hk
  exact ⟨(List.getElem_cons_eraseIdx_perm hlt).symm, List.eraseIdx_sublist _ _⟩

/-- What a merge that succeeds has done to the collection: it extracted two nodes of it. -/
theorem mergeOne_joined {s t : State} (h : mergeOne s = .ok t) :
    ∃ a b ra rb d, s.nodeCnt.toNat < 511 ∧ nodeAt s a = some ra ∧ nodeAt s b = some rb ∧
      s.coll.Perm (a :: b :: d) ∧ d.Sublist s.coll ∧ t = stopIfOne (joined s a b (ra.freq + rb.freq) d) := by
  obtain ⟨a, c, b, d, ra, rb, hn, ha, hb, hra, hrb, rfl⟩ := mergeOne_eq_ok h
  obtain ⟨hpa, hsa⟩ := extractMin_split ha
  obtain ⟨hpb, hsb⟩ := extractMin_split hb
  exact ⟨a, b, ra, rb, d, hn, hra, hrb, hpa.trans (hpb.cons a), hsb.trans hsa, rfl⟩

section
variable {s : State} {a b : NodeIdx} {f : Freq} {d : List NodeIdx}

theorem nodeAt_joined_ne {i : NodeIdx} (hi : i ≠ s.nodeCnt) : nodeAt (joined s a b f d) i = nodeAt s i := by
  have hne : s.nodeCnt.toNat ≠ i.toNat := fun e => hi (BitVec.eq_of_toNat_eq e.symm)
  simp only [nodeAt, joined, Table.get_set_ne _ _ _ _ _ hne]

theorem freqNat_joined_of_lt {i : NodeIdx} (hi : i < s.nodeCnt) : freqNat (joined s a b f d) i = freqNat s i :=
  freqNat_congr (nodeAt_joined_ne (BitVec.ne_of_lt hi))

section
variable (hn : s.nodeCnt.toNat < 511)
include hn

theorem nodeAt_joined_self : nodeAt (joined s a b f d) s.nodeCnt = some (.internal a b f) := by
  rw [nodeAt_eq_get hn]
  exact Table.get_set_self _ _ _ _

theorem nodeCnt_joined : (joined s a b f d).nodeCnt.toNat = s.nodeCnt.toNat + 1 := by
  simp [joined, BitVec.toNat_add]
  omega

variable (h : ArenaOk s)
include h

/-- A node of the new arena is the new node or one of before. -/
theorem nodeAt_joined_cases {i : NodeIdx} {r : NodeRec} (hi : nodeAt (joined s a b f d) i = some r) :
    i = s.nodeCnt ∧ r = .internal a b f ∨ i < s.nodeCnt ∧ nodeAt s i = some r := by
  by_cases e : i = s.nodeCnt
  · subst e
    exact .inl ⟨rfl, Option.some.inj (hi.symm.trans (nodeAt_joined_self hn))⟩
  · rw [nodeAt_joined_ne e] at hi
    exact .inr ⟨h.lt_nodeCnt hi, hi⟩

theorem records_joined : (records (joined s a b f d)).Perm (.internal a b f :: records s) := by
  refine records_set hn ?_ rfl
  rw [← nodeAt_eq_get hn]
  exact h.nodeAt_eq_none (BitVec.lt_irrefl _)

theorem slotsOk_joined : SlotsOk (joined s a b f d) := by
  intro i
  rw [Bool.eq_iff_iff, decide_eq_true_iff, BitVec.lt_def, nodeCnt_joined hn]
  by_cases hi : i = s.nodeCnt
  · simp [hi, nodeAt_joined_self hn]
  · have hne : i.toNat ≠ s.nodeCnt.toNat := fun e => hi (BitVec.eq_of_toNat_eq e)
    rw [nodeAt_joined_ne hi, h.isSome_iff, BitVec.lt_def]
    omega

variable (ha : a < s.nodeCnt) (hb : b < s.nodeCnt)
include ha hb

theorem freqSumOk_joined (hf : f.toNat = freqNat s a + freqNat s b) : FreqSumOk (joined s a b f d) := by
  intro i r hr
  rcases nodeAt_joined_cases hn h hr with ⟨rfl, rfl⟩ | ⟨hi, hr⟩
  · show f.toNat = freqNat (joined s a b f d) a + freqNat (joined s a b f d) b
    rw [freqNat_joined_of_lt ha, freqNat_joined_of_lt hb, hf]
  · cases r with
    | leaf y g => exact h.freq_leaf hr
    | internal l r g =>
      obtain ⟨hl, hr'⟩ := h.children_lt hr
      show g.toNat = freqNat (joined s a b f d) l + freqNat (joined s a b f d) r
      rw [freqNat_joined_of_lt (BitVec.lt_trans hl hi), freqNat_joined_of_lt (BitVec.lt_trans hr' hi), h.freq_internal hr]

theorem edgesDown_joined (hleaf : s.nleaf ≤ s.nodeCnt) : EdgesDown (joined s a b f d) := by
  intro i r hr
  rcases nodeAt_joined_cases hn h hr with ⟨rfl, rfl⟩ | ⟨-, hr⟩
  · exact ⟨hleaf, ha, hb⟩
  · exact h.edgesDown i r hr

end

section
variable (h : ArenaOk s) (hperm : s.coll.Perm (a :: b :: d))
include h hperm

/-- The two nodes taken out of COLL become children, and the new node takes their place. -/
theorem ownedOnce_joined (hn : s.nodeCnt.toNat < 511) : OwnedOnce (joined s a b f d) := by
  have hrange : (List.range (s.nodeCnt.toNat + 1)).map (BitVec.ofNat 9) =
      (List.range s.nodeCnt.toNat).map (BitVec.ofNat 9) ++ [s.nodeCnt] := by
    rw [List.range_succ, List.map_append, List.map_singleton, BitVec.ofNat_toNat, BitVec.setWidth_eq]
  have hchildren := children_of_internal (records_joined (a := a) (b := b) (f := f) (d := d) hn h)
  rw [OwnedOnce, nodeCnt_joined hn, hrange]
  refine ((hchildren.append_left (d ++ [s.nodeCnt])).trans ?_).trans (h.ownedOnce.append_right [s.nodeCnt])
  refine .trans ?_ ((hperm.symm.append_right (children s)).append_right [s.nodeCnt])
  rw [List.perm_iff_count]
  intro i
  simp only [List.count_append, List.count_cons]
  omega

/-- The weight of COLL stays the same: the new node weighs what the two nodes weighed. -/
theorem weightsBounded_joined (hn : s.nodeCnt.toNat < 511) (hf : f.toNat = freqNat s a + freqNat s b)
    (hd : ∀ i ∈ d, i < s.nodeCnt) : WeightsBounded (joined s a b f d) := by
  have hrest : d.map (freqNat (joined s a b f d)) = d.map (freqNat s) :=
    List.map_congr_left fun i hi => freqNat_joined_of_lt (hd i hi)
  have hself : freqNat (joined s a b f d) s.nodeCnt = f.toNat := freqNat_eq (nodeAt_joined_self hn)
  have hsum := (hperm.map (freqNat s)).sum_eq
  refine ⟨h.weights.1, ?_⟩
  calc ((d ++ [s.nodeCnt]).map (freqNat (joined s a b f d))).sum
    _ = (s.coll.map (freqNat s)).sum := by
      simp only [List.map_append, List.map_cons, List.map_nil, List.sum_append, List.sum_cons, List.sum_nil] at hsum ⊢
      rw [hrest, hself]
      omega
    _ ≤ s.nleaf.toNat * (2 ^ 32 - 1) := h.weights.2

/-- A merge of two nodes of the collection keeps the arena's part of the invariant. -/
theorem arenaOk_joined (hn : s.nodeCnt.toNat < 511) (hsub : d.Sublist s.coll) (hleaf : s.nleaf ≤ s.nodeCnt)
    (hf : f.toNat = freqNat s a + freqNat s b) : ArenaOk (joined s a b f d) := by
  have ha : a < s.nodeCnt := h.lt_of_mem_coll (hperm.mem_iff.mpr (by simp))
  have hb : b < s.nodeCnt := h.lt_of_mem_coll (hperm.mem_iff.mpr (by simp))
  have hd : ∀ i ∈ d, i < s.nodeCnt := fun i hi => h.lt_of_mem_coll (hsub.subset hi)
  constructor
  case slots => exact slotsOk_joined hn h
  case freqSum => exact freqSumOk_joined hn h ha hb hf
  case symsUnique => exact (leafSyms_of_internal (records_joined hn h)).nodup_iff.mpr h.symsUnique
  case ownedOnce => exact ownedOnce_joined h hperm hn
  case edgesDown => exact edgesDown_joined hn h ha hb hleaf
  case collSorted =>
    exact List.pairwise_append.mpr
      ⟨h.collSorted.sublist hsub, List.pairwise_singleton _ _, fun i hi j hj => List.mem_singleton.mp hj ▸ hd i hi⟩
  case weights => exact weightsBounded_joined h hperm hn hf hd

/-- Rule R109: what stands in COLL weighs less than 2^40 together, so the sum of two of its nodes does not overflow. -/
theorem toNat_freq_add {ra rb : NodeRec} (ha : nodeAt s a = some ra) (hb : nodeAt s b = some rb) :
    (ra.freq + rb.freq).toNat = freqNat s a + freqNat s b := by
  obtain ⟨hleaves, hsum⟩ := h.weights
  rw [(hperm.map (freqNat s)).sum_eq, List.map_cons, List.map_cons, List.sum_cons, List.sum_cons] at hsum
  rw [BitVec.toNat_add, ← freqNat_eq ha, ← freqNat_eq hb]
  omega

end

end

theorem stopIfOne_coll (s : State) : (stopIfOne s).coll = s.coll := by
  rcases stopIfOne_eq s with e | ⟨i, -, e⟩ <;> rw [e]
  rfl

theorem stopIfOne_joined_nil (s : State) (a b : NodeIdx) (f : Freq) :
    stopIfOne (joined s a b f []) = becomeTree (joined s a b f []) s.nodeCnt := rfl

theorem stopIfOne_joined_cons (s : State) (a b : NodeIdx) (f : Freq) (x : NodeIdx) (d : List NodeIdx) :
    stopIfOne (joined s a b f (x :: d)) = joined s a b f (x :: d) := by
  cases d <;> rfl

theorem mergeOne_inv {s t : State} (h : Inv s) (hp : s.phase = .forest) (ht : mergeOne s = .ok t) : Inv t := by
  obtain ⟨a, b, ra, rb, d, hn, ha, hb, hperm, hsub, rfl⟩ := mergeOne_joined ht
  obtain ⟨hcnt, htwo, hle, hvalid, hroot, hfreq, hcode⟩ := h.phaseTable.2.1 hp
  have hlen : s.coll.length = d.length + 2 := hperm.length_eq
  have hleaf : s.nleaf ≤ s.nodeCnt := by rw [BitVec.le_def]; omega
  have hf := toNat_freq_add h.arena hperm ha hb
  generalize ra.freq + rb.freq = f at hf ⊢
  have harena := arenaOk_joined h.arena hperm hn hsub hleaf hf
  have hcnt' : (joined s a b f d).nodeCnt.toNat = s.nodeCnt.toNat + 1 := nodeCnt_joined hn
  cases d with
  | nil =>
    have hnode : nodeAt (joined s a b f []) s.nodeCnt = some (.internal a b f) := nodeAt_joined_self hn
    rw [stopIfOne_joined_nil]
    refine (harena.congr rfl rfl rfl rfl : ArenaOk (becomeTree (joined s a b f []) s.nodeCnt)).inv ?_ ?_ nofun
    · refine ⟨nofun, nofun, fun _ => ⟨?_, rfl, hcnt'.symm, ?_, rfl, hfreq⟩, fun _ => hcode, nofun⟩
      · show (joined s a b f []).nodeCnt.toNat + 1 = 2 * s.nleaf.toNat
        rw [List.length_nil] at hlen
        omega
      · show 1 ≤ s.nleaf.toNat
        omega
    · exact fun _ => ⟨Option.isSome_iff_exists.mpr ⟨_, hnode⟩, rfl, fun _ => rfl⟩
  | cons x d =>
    have hphase : (joined s a b f (x :: d)).phase = .forest := hp
    have hcoll : (joined s a b f (x :: d)).coll.length = d.length + 2 := by simp [joined]
    have hnleaf : (joined s a b f (x :: d)).nleaf = s.nleaf := rfl
    rw [List.length_cons] at hlen
    rw [stopIfOne_joined_cons]
    refine harena.inv ?_ ?_ ?_
    · simp only [PhaseTable, hphase, reduceCtorEq, false_implies, true_implies, or_self, true_and, and_true]
      refine ⟨?_, ?_, ?_, hvalid, hroot, hfreq, hcode⟩
      · rw [hcnt', hcoll, hnleaf]; omega
      · rw [hcoll]; omega
      · rw [hcoll, hnleaf]; omega
    · intro hv
      exact absurd (hvalid.symm.trans hv) (by decide)
    · intro hc
      exact absurd (hphase.symm.trans hc) (by decide)

end Sys2Proof.Machine

/-! ## The loop of BUILD -/

namespace Sys2Proof.Machine

/-- Only phase FOREST has a collection with something to merge. -/
theorem Inv.forest_of_two {s : State} (h : Inv s) (hs : 1 < collLen s) : s.phase = .forest := by
  obtain ⟨hcount, -, hdone, -, -⟩ := h.phaseTable
  unfold collLen at hs
  cases hp : s.phase with
  | count => simp [(hcount hp).2.1] at hs
  | forest => rfl
  | tree => simp [(hdone (.inl hp)).2.1] at hs
  | coded => simp [(hdone (.inr hp)).2.1] at hs

theorem mergeAll_inv {n : Nat} {s t : State} (h : Inv s) (ht : mergeAll n s = .ok t) : Inv t :=
  mergeAll_induction (fun _ _ hs htwo hm => mergeOne_inv hs (hs.forest_of_two htwo) hm) ht h

/-- "each call of MergeOne lowers COLL_LEN by exactly 1" (rule R102). -/
theorem mergeOne_collLen {s t : State} (ht : mergeOne s = .ok t) : collLen t + 1 = collLen s := by
  obtain ⟨a, b, ra, rb, d, -, -, -, hperm, -, rfl⟩ := mergeOne_joined ht
  have hlen : s.coll.length = d.length + 2 := hperm.length_eq
  rw [collLen, collLen, hlen, stopIfOne_coll]
  simp [joined]

theorem mergeAll_collLen {n : Nat} {s t : State} (hn : collLen s ≤ n + 1) (ht : mergeAll n s = .ok t) :
    collLen t ≤ 1 := by
  induction n generalizing s with
  | zero => cases ht; exact hn
  | succ n ih =>
    unfold mergeAll at ht
    split at ht
    · obtain ⟨u, hu, ht⟩ := andThen_eq_ok.mp ht
      have := mergeOne_collLen hu
      exact ih (by omega) ht
    · cases ht; omega

theorem mergeOne_phase {s t : State} (hp : s.phase = .forest) (ht : mergeOne s = .ok t) :
    t.phase = .forest ∨ t.phase = .tree := by
  obtain ⟨a, b, ra, rb, d, -, -, -, -, -, rfl⟩ := mergeOne_joined ht
  rcases stopIfOne_eq (joined s a b (ra.freq + rb.freq) d) with e | ⟨i, -, e⟩ <;> rw [e]
  · exact .inl hp
  · exact .inr rfl

theorem buildStart_inv {s u : State} (h : Inv s) (hu : buildStart s = .ok u) : Inv u := by
  rcases buildStart_eq_ok.mp hu with ⟨-, hu⟩ | ⟨-, rfl⟩
  · exact seed_inv h hu
  · exact h

theorem buildStart_phase {s u : State} (hu : buildStart s = .ok u) : u.phase = .forest ∨ u.phase = .tree := by
  rcases buildStart_eq_ok.mp hu with ⟨-, hu⟩ | ⟨hp, rfl⟩
  · obtain ⟨-, ⟨y, -, rfl⟩ | ⟨-, rfl⟩⟩ := seed_eq_ok hu
    · exact .inr rfl
    · exact .inl rfl
  · exact .inl hp

theorem build_inv {s u : State} (h : Inv s) (hu : build s = .ok u) : Inv u := by
  obtain ⟨t, ht, hu⟩ := build_eq_ok.mp hu
  exact mergeAll_inv (buildStart_inv h ht) hu

/-- BUILD ends with the finished tree: one node is left in the collection. -/
theorem build_phase {s u : State} (h : Inv s) (hu : build s = .ok u) : u.phase = .tree := by
  have hinv := build_inv h hu
  obtain ⟨t, ht, hu⟩ := build_eq_ok.mp hu
  have hone : collLen u ≤ 1 := mergeAll_collLen (Nat.le_succ _) hu
  have hphase : u.phase = .forest ∨ u.phase = .tree :=
    (mergeAll_induction (R := fun t => Inv t ∧ (t.phase = .forest ∨ t.phase = .tree))
      (fun _ _ hs htwo hm => have hp := hs.1.forest_of_two htwo; ⟨mergeOne_inv hs.1 hp hm, mergeOne_phase hp hm⟩)
      hu ⟨buildStart_inv h ht, buildStart_phase ht⟩).2
  refine hphase.resolve_left fun hf => ?_
  have := (hinv.phaseTable.2.1 hf).2.1
  unfold collLen at hone
  omega

end Sys2Proof.Machine

/-! ## The codewords Visit writes -/

namespace Sys2Proof.Machine

/-! ### Paths -/

theorem walk_internal {s : State} {i l r : NodeIdx} {f : Freq} (hi : nodeAt s i = some (.internal l r f)) (b : Bool)
    (p : List Bool) : walk s i (b :: p) = walk s (if b then r else l) p := by
  rw [walk, hi]

theorem walk_leaf {s : State} {i : NodeIdx} {y : Sym} {f : Freq} (hi : nodeAt s i = some (.leaf y f)) (b : Bool)
    (p : List Bool) : walk s i (b :: p) = none := by
  rw [walk, hi]

theorem walk_append (s : State) (i : NodeIdx) (p q : List Bool) :
    walk s i (p ++ q) = (walk s i p).bind fun j => walk s j q := by
  induction p generalizing i with
  | nil => rfl
  | cons b p ih =>
    rw [List.cons_append, walk, walk]
    split
    · exact ih _
    · rfl

/-- The value of a path that goes on from one of value v (rule R13). -/
def pathValFrom (v : Nat) (p : List Bool) : Nat := p.foldl (fun v b => 2 * v + b.toNat) v

theorem pathValFrom_zero (p : List Bool) : pathValFrom 0 p = pathVal p := rfl

theorem pathValFrom_lt (v : Nat) (p : List Bool) : pathValFrom v p < (v + 1) * 2 ^ p.length := by
  induction p generalizing v with
  | nil => simp [pathValFrom]
  | cons b p ih =>
    calc pathValFrom v (b :: p)
      _ = pathValFrom (2 * v + b.toNat) p := rfl
      _ < (2 * v + b.toNat + 1) * 2 ^ p.length := ih _
      _ ≤ (2 * (v + 1)) * 2 ^ p.length := Nat.mul_le_mul_right _ (by have := b.toNat_le; omega)
      _ = (v + 1) * 2 ^ (b :: p).length := by rw [List.length_cons, Nat.pow_succ]; ring

theorem pathVal_lt (p : List Bool) : pathVal p < 2 ^ p.length := by
  simpa [pathValFrom_zero] using pathValFrom_lt 0 p

/-! ### Entries -/

/-- CODE entry y of a table. -/
abbrev entryOf (c : Table CodeEntry 256) (y : Sym) : CodeEntry := c.get y.toNat y.isLt

/-- The entry Visit writes at the end of path p, from a node that stands at depth n on a path of value v (rule R120). -/
def pathEntry (n v : Nat) (p : List Bool) : CodeEntry :=
  ⟨true, BitVec.ofNat 8 (n + p.length), BitVec.ofNat 255 (pathValFrom v p)⟩

theorem pathEntry_cons (n v : Nat) (b : Bool) (p : List Bool) :
    pathEntry n v (b :: p) = pathEntry (n + 1) (2 * v + b.toNat) p := by
  rw [pathEntry, pathEntry, List.length_cons, Nat.add_assoc, Nat.add_comm 1]
  rfl

/-- Visit at an Internal node: the left subtree, then the right one, a level deeper. -/
theorem visit_internal {s : State} {levels : Nat} {i l r : NodeIdx} {f : Freq} {n v : Nat}
    {c c' : Table CodeEntry 256} (hi : nodeAt s i = some (.internal l r f))
    (h : visit s (levels + 1) i (BitVec.ofNat 255 v) (BitVec.ofNat 8 n) c = .ok c') :
    ∃ m, visit s levels l (BitVec.ofNat 255 (2 * v)) (BitVec.ofNat 8 (n + 1)) c = .ok m ∧
      visit s levels r (BitVec.ofNat 255 (2 * v + 1)) (BitVec.ofNat 8 (n + 1)) m = .ok c' := by
  rw [visit, readNodeRec_eq_ok.mpr hi, andThen_ok] at h
  obtain ⟨m, hl, hr⟩ := andThen_eq_ok.mp h
  rw [BitVec.ofNat_add, BitVec.ofNat_mul, BitVec.ofNat_add, BitVec.ofNat_mul]
  exact ⟨m, hl, hr⟩

theorem visit_leaf {s : State} {levels : Nat} {i : NodeIdx} {y : Sym} {f : Freq} {v : BitVec 255} {len : BitVec 8}
    {c c' : Table CodeEntry 256} (hi : nodeAt s i = some (.leaf y f)) (h : visit s (levels + 1) i v len c = .ok c') :
    c' = setCodeEntry c y ⟨true, len, v⟩ := by
  rw [visit, readNodeRec_eq_ok.mpr hi, andThen_ok] at h
  exact ok_eq_ok.mp h

/-- Visit succeeds only at a node that holds a record, with a level left. -/
theorem visit_node {s : State} {levels : Nat} {i : NodeIdx} {v : BitVec 255} {len : BitVec 8}
    {c c' : Table CodeEntry 256} (h : visit s levels i v len c = .ok c') :
    ∃ k r, levels = k + 1 ∧ nodeAt s i = some r := by
  cases levels with
  | zero => cases h
  | succ k =>
    obtain ⟨r, hr, -⟩ := andThen_eq_ok.mp h
    exact ⟨k, r, rfl, readNodeRec_eq_ok.mp hr⟩

/-- `e` is the entry of a leaf of symbol y that lies below node i, fewer than `levels` branches down; node i stands at depth
n on a path of value v. -/
def LeafEntry (s : State) (levels : Nat) (i : NodeIdx) (n v : Nat) (y : Sym) (e : CodeEntry) : Prop :=
  ∃ p j f, walk s i p = some j ∧ nodeAt s j = some (.leaf y f) ∧ p.length < levels ∧ e = pathEntry n v p

theorem LeafEntry.of_child {s : State} {levels : Nat} {i l r : NodeIdx} {f : Freq} {n v : Nat} {y : Sym} {e : CodeEntry}
    (hi : nodeAt s i = some (.internal l r f)) (b : Bool)
    (h : LeafEntry s levels (if b then r else l) (n + 1) (2 * v + b.toNat) y e) : LeafEntry s (levels + 1) i n v y e := by
  obtain ⟨p, j, g, hw, hj, hp, he⟩ := h
  exact ⟨b :: p, j, g, by rw [walk_internal hi, hw], hj, by rw [List.length_cons]; omega, by rw [he, pathEntry_cons]⟩

/-- Each entry Visit leaves is the one of before or that of a leaf below the visited node, at its path. -/
theorem visit_entry {s : State} {levels : Nat} {i : NodeIdx} {n v : Nat} {c c' : Table CodeEntry 256}
    (h : visit s levels i (BitVec.ofNat 255 v) (BitVec.ofNat 8 n) c = .ok c') (y : Sym) :
    entryOf c' y = entryOf c y ∨ LeafEntry s levels i n v y (entryOf c' y) := by
  induction levels generalizing i n v c c' with
  | zero => cases h
  | succ levels ih =>
    obtain ⟨_, x, -, hx⟩ := visit_node h
    cases x with
    | leaf z f =>
      obtain rfl := visit_leaf hx h
      by_cases hy : y = z
      · subst hy
        exact .inr ⟨[], i, f, rfl, hx, Nat.succ_pos _, codeEntry_set_self _ _ _⟩
      · exact .inl (codeEntry_set_ne _ _ _ _ hy)
    | internal l r f =>
      obtain ⟨m, hl, hr⟩ := visit_internal hx h
      rcases ih hr with hright | hright
      · rw [hright]
        exact (ih hl).imp_right (LeafEntry.of_child hx false)
      · exact .inr (LeafEntry.of_child hx true hright)

/-- Every leaf below the visited node has a valid entry. -/
theorem visit_reaches {s : State} {levels : Nat} {i : NodeIdx} {n v : Nat} {c c' : Table CodeEntry 256}
    (h : visit s levels i (BitVec.ofNat 255 v) (BitVec.ofNat 8 n) c = .ok c') {p : List Bool} {j : NodeIdx} {y : Sym}
    {f : Freq} (hw : walk s i p = some j) (hj : nodeAt s j = some (.leaf y f)) : (entryOf c' y).valid = true := by
  induction levels generalizing i n v c c' p with
  | zero => cases h
  | succ levels ih =>
    obtain ⟨_, x, -, hx⟩ := visit_node h
    cases x with
    | leaf z g =>
      cases p with
      | nil =>
        cases hw
        cases hx.symm.trans hj
        obtain rfl := visit_leaf hx h
        rw [entryOf, codeEntry_set_self]
      | cons b p => rw [walk_leaf hx] at hw; cases hw
    | internal l r g =>
      obtain ⟨m, hl, hr⟩ := visit_internal hx h
      cases p with
      | nil => cases hw; cases hx.symm.trans hj
      | cons b p =>
        rw [walk_internal hx] at hw
        cases b with
        | true => exact ih hr hw
        | false =>
          have hm := ih hl hw
          rcases visit_entry hr y with e | ⟨q, k, g', -, -, -, e⟩
          · rw [e]; exact hm
          · rw [e]; rfl

/-! ### Every node of a finished tree is reached from its root -/

theorem reached_from_root {s : State} (h : ArenaOk s) (hc : s.coll = [s.rootIdx]) (i : NodeIdx) (hi : i < s.nodeCnt) :
    ∃ p, walk s s.rootIdx p = some i := by
  have howned := h.mem_owned.mpr hi
  rw [hc, List.singleton_append, List.mem_cons] at howned
  rcases howned with rfl | hchild
  · exact ⟨[], rfl⟩
  · obtain ⟨k, l, r, f, hk, hlr⟩ := mem_children.mp hchild
    obtain ⟨hl, hr⟩ := h.children_lt hk
    have hik : i < k := by rcases hlr with rfl | rfl <;> assumption
    obtain ⟨p, hp⟩ := reached_from_root h hc k (h.lt_nodeCnt hk)
    rcases hlr with rfl | rfl
    · exact ⟨p ++ [false], by rw [walk_append, hp, Option.bind_some, walk_internal hk]; rfl⟩
    · exact ⟨p ++ [true], by rw [walk_append, hp, Option.bind_some, walk_internal hk]; rfl⟩
termination_by s.nodeCnt.toNat - i.toNat
decreasing_by
  rw [BitVec.lt_def] at hi hik
  omega

/-! ### ASSIGN -/

/-- The code table of a finished tree: an entry is clear or that of a leaf at its path. -/
theorem assigned_entry {s : State} {c : Table CodeEntry 256}
    (h : visit s (Config.codeLenMax + 1) s.rootIdx 0#255 0#8 clearCode = .ok c) (y : Sym) :
    entryOf c y = CodeEntry.clear ∨
      ∃ p j f, walk s s.rootIdx p = some j ∧ nodeAt s j = some (.leaf y f) ∧ p.length ≤ 255 ∧
        entryOf c y = ⟨true, BitVec.ofNat 8 p.length, BitVec.ofNat 255 (pathVal p)⟩ := by
  rcases visit_entry (n := 0) (v := 0) h y with e | ⟨p, j, f, hw, hj, hp, e⟩
  · exact .inl (e.trans (clearCode_entry y))
  · exact .inr ⟨p, j, f, hw, hj, Nat.le_of_lt_succ hp, by rw [e, pathEntry, Nat.zero_add, pathValFrom_zero]⟩

theorem assigned_valid_iff {s : State} {c : Table CodeEntry 256} (h : ArenaOk s) (hc : s.coll = [s.rootIdx])
    (hv : visit s (Config.codeLenMax + 1) s.rootIdx 0#255 0#8 clearCode = .ok c) (y : Sym) :
    (entryOf c y).valid = true ↔ y ∈ leafSyms s := by
  rw [mem_leafSyms]
  constructor
  · intro hvalid
    rcases assigned_entry hv y with e | ⟨p, j, f, -, hj, -, -⟩
    · rw [e] at hvalid; cases hvalid
    · exact ⟨j, f, hj⟩
  · rintro ⟨j, f, hj⟩
    obtain ⟨p, hp⟩ := reached_from_root h hc j (h.lt_nodeCnt hj)
    exact visit_reaches (n := 0) (v := 0) hv hp hj

theorem assign_inv {s u : State} (h : Inv s) (hp : s.phase = .tree ∨ s.phase = .coded) (hu : assign s = .ok u) :
    Inv u := by
  obtain ⟨c, hc, rfl⟩ := assign_eq_ok.mp hu
  have hdone := h.phaseTable.2.2.1 hp
  have hvalid : ValidExactlyLeaves { s with code := c, phase := .coded } := fun y =>
    Bool.eq_iff_iff.mpr ((assigned_valid_iff h.arena hdone.2.1 hc y).trans decide_eq_true_iff.symm)
  refine (h.arena.congr rfl rfl rfl rfl : ArenaOk { s with code := c, phase := .coded }).inv ?_ h.cursor ?_
  · exact ⟨nofun, nofun, fun _ => hdone, nofun, fun _ => hvalid⟩
  · refine fun _ => Eq.trans (visit_congr ?_ _ _ _ _ _) hc
    rfl

end Sys2Proof.Machine

/-! ## Every step keeps the invariant -/

namespace Sys2Proof.Machine

/-! ### Commands -/

/-- The counts are free in phase COUNT. -/
theorem inv_setFreq {s : State} (h : Inv s) (hp : s.phase = .count) (y : Sym) (c : Count) : Inv (setFreq s y c) := by
  have htable := h.phaseTable.1 hp
  refine (h.arena.congr rfl rfl rfl rfl : ArenaOk (setFreq s y c)).inv ?_ h.cursor ?_
  · simp only [PhaseTable, setFreq_phase, hp, reduceCtorEq, false_implies, true_implies, or_self, and_true]
    exact htable
  · intro hc
    exact absurd (hp.symm.trans hc) (by decide)

theorem Inv.moveCursor {s : State} (h : Inv s) {j : NodeIdx} (hj : CursorOk { s with decCur := j }) :
    Inv { s with decCur := j } := by
  refine (h.arena.congr rfl rfl rfl rfl : ArenaOk { s with decCur := j }).inv h.phaseTable hj fun hp => ?_
  refine Eq.trans (visit_congr ?_ _ _ _ _ _) (h.coded hp)
  rfl

/-- A cursor at the root is where it may be. -/
theorem Inv.cursorToRoot {s : State} (h : Inv s) : Inv { s with decCur := s.rootIdx } :=
  h.moveCursor fun hv => ⟨(h.cursor hv).1, rfl, fun _ => rfl⟩

/-- A cursor at an Internal node is where it may be, if the root is one. -/
theorem Inv.cursorToInternal {s : State} (h : Inv s) {root : NodeRec} (hroot : nodeAt s s.rootIdx = some root)
    (hleaf : root.isLeaf = false) {j l r : NodeIdx} {f : Freq} (hj : nodeAt s j = some (.internal l r f)) :
    Inv { s with decCur := j } := by
  have hroot' : (nodeAt s s.rootIdx).map NodeRec.isLeaf = some false := by rw [hroot, Option.map_some, hleaf]
  have hj' : (nodeAt s j).map NodeRec.isLeaf = some false := by rw [hj]; rfl
  refine h.moveCursor fun hv => ⟨(h.cursor hv).1, hj'.trans hroot'.symm, fun hone => ?_⟩
  exact absurd (hroot'.symm.trans hone) (by decide)

theorem decBitBody_inv {b : Bool} {s u : State} (h : Inv s) (hu : decBitBody b s = .ok u) : Inv u := by
  obtain ⟨-, root, c, r, hroot, hleaf, -, hr, rfl⟩ := decBitBody_eq_ok hu
  cases r with
  | leaf y f => exact h.cursorToRoot.congr rfl
  | internal l r f => exact (h.cursorToInternal hroot hleaf hr).congr rfl

theorem bodyOf_inv {i : Instr} {s u : State} (h : Inv s) (hu : bodyOf i s = .ok u) : Inv u := by
  cases i with
  | nop => cases hu; exact h
  | clear => cases hu; exact inv_reset.congr rfl
  | count y => obtain ⟨hp, -, rfl⟩ := countBody_eq_ok.mp hu; exact inv_setFreq h hp _ _
  | loadFreq y => obtain ⟨hp, rfl⟩ := loadFreqBody_eq_ok.mp hu; exact inv_setFreq h hp _ _
  | readFreq y => obtain ⟨-, rfl⟩ := readFreqBody_eq_ok.mp hu; exact h.congr rfl
  | seed => exact seed_inv h hu
  | merge => obtain ⟨hp, hu⟩ := mergeBody_eq_ok.mp hu; exact mergeOne_inv h hp hu
  | build => exact build_inv h hu
  | buildCode =>
    obtain ⟨t, ht, hu⟩ := andThen_eq_ok.mp hu
    exact assign_inv (build_inv h ht) (.inl (build_phase h ht)) hu
  | assign => obtain ⟨hp, hu⟩ := assignBody_eq_ok.mp hu; exact assign_inv h hp hu
  | readCode y w => obtain ⟨-, rfl⟩ := readCodeBody_eq_ok.mp hu; exact h.congr rfl
  | decReset => obtain ⟨-, rfl⟩ := decResetBody_eq_ok.mp hu; exact h.cursorToRoot
  | decBit b => exact decBitBody_inv h hu
  | readNode k => obtain ⟨x, -, rfl⟩ := readNodeBody_eq_ok hu; exact h.congr rfl
  | readColl k => obtain ⟨j, x, -, -, rfl⟩ := readCollBody_eq_ok hu; exact h.congr rfl

theorem exec_inv {i : Instr} {s t : State} (h : Inv s) (ht : exec i s = .next t) : Inv t := by
  rcases exec_next ht with ⟨u, hu, rfl⟩ | ⟨e, -, rfl⟩
  · exact (bodyOf_inv h hu).congr rfl
  · exact h.congr rfl

/-! ### Steps -/

theorem completionStep_inv {s t : State} (h : Inv s) (ht : completionStep s = .next t) : Inv t := by
  unfold completionStep at ht
  split at ht
  · exact exec_inv h ht
  · cases ht; exact h.congr rfl

theorem writeReg_busSideOnly (r : Reg) (v : Word) (s : State) : BusSideOnly s (writeReg r v s) := by
  rcases writeReg_cases r v s with ⟨-, -, e⟩ | ⟨-, -, e⟩ | ⟨-, e⟩ | ⟨-, e⟩ | e <;> rw [e] <;> rfl

theorem hostMove_inv {l : HostLine} {s t : State} (h : Inv s) (ht : hostMove l s = .next t) : Inv t := by
  rcases hostMove_cases ht with ⟨a, r, -, -, -, rfl⟩ | ⟨a, r, -, -, -, rfl⟩ | ⟨rest, -, rfl, -⟩ | ⟨e, m, -, rfl⟩ |
    ⟨y, -, rfl⟩ | ⟨-, rfl⟩
  · exact h.congr (writeReg_busSideOnly _ _ _)
  · exact h.congr rfl
  · exact h.congr rfl
  · exact h.congr rfl
  · exact h.congr rfl
  · exact inv_reset.congr rfl

theorem step_inv {s t : State} (h : Inv s) (ht : step s = .next t) : Inv t := by
  unfold step at ht
  rcases nextMove_cases s with ⟨q, -, e, -⟩ | ⟨l, rest, q, -, e, -⟩ | ⟨-, -, e⟩ <;> rw [e] at ht
  · refine completionStep_inv (h.congr ?_) ht
    rfl
  · refine hostMove_inv (h.congr ?_) ht
    rfl
  · cases ht; exact h

/-! ### Runs from reset -/

theorem run_succ_eq_next {M : Host.Core} {n : Nat} {s t : M.State} :
    M.run (n + 1) s = .next t ↔ ∃ u, M.step s = .next u ∧ M.run n u = .next t := by
  rw [Host.Core.run]
  cases M.step s <;> simp

/-- What every step keeps, every run keeps. -/
theorem run_induction {R : State → Prop} (hR : ∀ s t, R s → step s = .next t → R t) {n : Nat} {s t : State}
    (hs : R s) (h : Host.Core.run core n s = .next t) : R t := by
  induction n generalizing s with
  | zero => cases h; exact hs
  | succ n ih =>
    obtain ⟨u, hu, h⟩ := run_succ_eq_next.mp h
    exact ih (hR s u hs hu) h

theorem Reachable.inv {s : State} (h : Reachable s) : Inv s := by
  obtain ⟨script, sched, n, hrun⟩ := h
  refine run_induction (fun _ _ => step_inv) (inv_reset.congr ?_) hrun
  rfl

end Sys2Proof.Machine

/-! ## Rules of 10_state.md: what commands leave alone, and what every reachable state satisfies -/

namespace Sys2Proof.Machine

/-! ### What a command leaves of DATA_IN, the results and CODE -/

theorem bodyOf_dataIn {i : Instr} {s u : State} (h : bodyOf i s = .ok u) : u.dataIn = s.dataIn := by
  by_cases hr : isReadType i = true
  · rw [bodyOf_readingOnly hr h]
  · by_cases hc : i = .clear
    · subst hc; cases h; rfl
    · obtain ⟨t, c, p, ht, rfl⟩ := bodyOf_treeOnly (Bool.eq_false_iff.mpr hr) hc h
      rw [ht]

theorem exec_dataIn {i : Instr} {s t : State} (h : exec i s = .next t) : t.dataIn = s.dataIn := by
  rcases exec_next h with ⟨u, hu, rfl⟩ | ⟨e, -, rfl⟩
  · exact (bodyOf_dataIn hu : u.dataIn = s.dataIn)
  · rfl

theorem exec_results {i : Instr} {s t : State} (h : exec i s = .next t)
    (hi : (isReadType i = false ∧ i ≠ .clear) ∨ t.err ≠ .ok) :
    t.result0 = s.result0 ∧ t.result1 = s.result1 ∧ t.result2 = s.result2 := by
  by_cases ht : t.err = .ok
  · obtain ⟨hr, hc⟩ := hi.resolve_right fun hne => hne ht
    obtain ⟨u, hu, rfl⟩ := exec_next_of_ok h ht
    obtain ⟨v, c, p, hv, rfl⟩ := bodyOf_treeOnly hr hc hu
    rw [hv]
    exact ⟨rfl, rfl, rfl⟩
  · rw [exec_next_of_not_ok h ht]
    exact ⟨rfl, rfl, rfl⟩

theorem exec_code {i : Instr} {s t : State} (h : exec i s = .next t) (ha : i ≠ .assign) (hb : i ≠ .buildCode)
    (hc : i ≠ .clear) : t.code = s.code := by
  rcases exec_next h with ⟨u, hu, rfl⟩ | ⟨e, -, rfl⟩
  · show u.code = s.code
    by_cases hr : isReadType i = true
    · rw [bodyOf_readingOnly hr hu]
    · rw [bodyOf_builderOnly (Bool.eq_false_iff.mpr hr) hc ha hb hu]
  · rfl

/-! ### Entries of CODE (rule R39) -/

/-- The stored form of an entry: clear where VALID = 0, and no bit of VAL at LEN or above. -/
def CodeEntry.StoredForm (e : CodeEntry) : Prop :=
  (e.valid = false → e.len = 0#8 ∧ e.val = 0#255) ∧ e.val.toNat < 2 ^ e.len.toNat

theorem storedForm_clear : CodeEntry.clear.StoredForm := ⟨fun _ => ⟨rfl, rfl⟩, by decide⟩

theorem storedForm_path {p : List Bool} (hp : p.length ≤ 255) :
    CodeEntry.StoredForm ⟨true, BitVec.ofNat 8 p.length, BitVec.ofNat 255 (pathVal p)⟩ := by
  refine ⟨nofun, ?_⟩
  have hlen : (BitVec.ofNat 8 p.length).toNat = p.length := by
    rw [BitVec.toNat_ofNat, Nat.mod_eq_of_lt (by omega)]
  rw [hlen, BitVec.toNat_ofNat]
  exact (Nat.mod_le _ _).trans_lt (pathVal_lt p)

theorem Inv.codeClear {s : State} (h : Inv s) (hp : s.phase ≠ .coded) : CodeClear s := by
  obtain ⟨hcount, hforest, -, htree, -⟩ := h.phaseTable
  cases e : s.phase with
  | count => exact (hcount e).2.2.2.2.2
  | forest => exact (hforest e).2.2.2.2.2.2
  | tree => exact htree e
  | coded => exact absurd e hp

theorem codeAt_of_codeClear {s : State} (h : CodeClear s) (y : Sym) : codeAt s y = CodeEntry.clear := by
  rw [codeAt, h]
  exact clearCode_entry y

theorem Inv.storedForm {s : State} (h : Inv s) (y : Sym) : (codeAt s y).StoredForm := by
  by_cases hp : s.phase = .coded
  · rcases assigned_entry (h.coded hp) y with e | ⟨p, j, f, -, -, hlen, e⟩
    · rw [show codeAt s y = _ from e]; exact storedForm_clear
    · rw [show codeAt s y = _ from e]; exact storedForm_path hlen
  · rw [codeAt_of_codeClear (h.codeClear hp)]; exact storedForm_clear

theorem freqAt_of_freqZero {s : State} (h : FreqZero s) (y : Sym) : freqAt s y = 0#32 := by
  rw [freqAt, h]
  exact Table.get_fill _ _ _ _

/-! ### Records stay (rule R32) -/

/-- Every record of `s` is still a record of `t`, at its index. -/
def RecordsKept (s t : State) : Prop := ∀ k r, nodeAt s k = some r → nodeAt t k = some r

theorem RecordsKept.of_node_eq {s t : State} (h : t.node = s.node) : RecordsKept s t :=
  fun k _ hr => (nodeAt_congr h k).trans hr

theorem RecordsKept.trans {s t u : State} (h : RecordsKept s t) (h' : RecordsKept t u) : RecordsKept s u :=
  fun k r hr => h' k r (h k r hr)

theorem recordsKept_joined {s : State} (h : ArenaOk s) (a b : NodeIdx) (f : Freq) (d : List NodeIdx) :
    RecordsKept s (joined s a b f d) :=
  fun _ _ hr => (nodeAt_joined_ne (BitVec.ne_of_lt (h.lt_nodeCnt hr))).trans hr

theorem mergeOne_recordsKept {s t : State} (h : Inv s) (ht : mergeOne s = .ok t) : RecordsKept s t := by
  obtain ⟨a, b, ra, rb, d, -, -, -, -, -, rfl⟩ := mergeOne_joined ht
  have hjoin := recordsKept_joined h.arena a b (ra.freq + rb.freq) d
  rcases stopIfOne_eq (joined s a b (ra.freq + rb.freq) d) with e | ⟨i, -, e⟩ <;> rw [e]
  · exact hjoin
  · exact hjoin.trans (.of_node_eq rfl)

theorem buildStart_recordsKept {s t : State} (h : Inv s) (ht : buildStart s = .ok t) : RecordsKept s t := by
  rcases buildStart_eq_ok.mp ht with ⟨hp, -⟩ | ⟨-, rfl⟩
  · intro k r hr
    rw [h.nodeAt_count hp] at hr
    cases hr
  · exact .of_node_eq rfl

theorem build_recordsKept {s u : State} (h : Inv s) (hu : build s = .ok u) : RecordsKept s u := by
  obtain ⟨t, ht, hu⟩ := build_eq_ok.mp hu
  exact (mergeAll_induction (R := fun t => Inv t ∧ RecordsKept s t)
    (fun _ _ hs htwo hm => ⟨mergeOne_inv hs.1 (hs.1.forest_of_two htwo) hm, hs.2.trans (mergeOne_recordsKept hs.1 hm)⟩)
    hu ⟨buildStart_inv h ht, buildStart_recordsKept h ht⟩).2

theorem assign_node {s u : State} (hu : assign s = .ok u) : u.node = s.node := by
  obtain ⟨c, -, rfl⟩ := assign_eq_ok.mp hu
  rfl

theorem bodyOf_recordsKept {i : Instr} {s u : State} (h : Inv s) (hc : i ≠ .clear) (hu : bodyOf i s = .ok u) :
    RecordsKept s u := by
  cases i with
  | nop => cases hu; exact .of_node_eq rfl
  | clear => exact absurd rfl hc
  | count y => obtain ⟨-, -, rfl⟩ := countBody_eq_ok.mp hu; exact .of_node_eq rfl
  | loadFreq y => obtain ⟨-, rfl⟩ := loadFreqBody_eq_ok.mp hu; exact .of_node_eq rfl
  | decReset => obtain ⟨-, rfl⟩ := decResetBody_eq_ok.mp hu; exact .of_node_eq rfl
  | readFreq y | readCode y w | decBit b | readNode k | readColl k =>
    exact .of_node_eq (by rw [bodyOf_readingOnly rfl hu])
  | seed =>
    intro k r hr
    rw [h.nodeAt_count (seed_eq_ok hu).1] at hr
    cases hr
  | merge => exact mergeOne_recordsKept h (mergeBody_eq_ok.mp hu).2
  | build => exact build_recordsKept h hu
  | buildCode =>
    obtain ⟨t, ht, hu⟩ := andThen_eq_ok.mp hu
    exact (build_recordsKept h ht).trans (.of_node_eq (assign_node hu))
  | assign => exact .of_node_eq (assign_node (assignBody_eq_ok.mp hu).2)

/-! ### The cursor follows the root (rule R40) -/

/-- `t` has the root and the cursor of `s`. -/
def SameCursor (s t : State) : Prop := t.rootValid = s.rootValid ∧ t.rootIdx = s.rootIdx ∧ t.decCur = s.decCur

/-- `t` has a root, and its cursor stands there. -/
def CursorAtNewRoot (t : State) : Prop := t.rootValid = true ∧ t.decCur = t.rootIdx

theorem mergeOne_cursor {s t : State} (ht : mergeOne s = .ok t) : SameCursor s t ∨ CursorAtNewRoot t := by
  obtain ⟨a, b, ra, rb, d, -, -, -, -, -, rfl⟩ := mergeOne_joined ht
  rcases stopIfOne_eq (joined s a b (ra.freq + rb.freq) d) with e | ⟨i, -, e⟩ <;> rw [e]
  · exact .inl ⟨rfl, rfl, rfl⟩
  · exact .inr ⟨rfl, rfl⟩

theorem cursor_trans {s t u : State} (h : SameCursor s t ∨ CursorAtNewRoot t)
    (h' : SameCursor t u ∨ CursorAtNewRoot u) : SameCursor s u ∨ CursorAtNewRoot u := by
  rcases h' with ⟨hv', hi', hc'⟩ | h'
  · rcases h with ⟨hv, hi, hc⟩ | ⟨hv, hc⟩
    · exact .inl ⟨hv'.trans hv, hi'.trans hi, hc'.trans hc⟩
    · exact .inr ⟨hv'.trans hv, hc'.trans (hc.trans hi'.symm)⟩
  · exact .inr h'

theorem seed_cursor {s u : State} (hu : seed s = .ok u) : SameCursor s u ∨ CursorAtNewRoot u := by
  obtain ⟨-, ⟨y, -, rfl⟩ | ⟨-, rfl⟩⟩ := seed_eq_ok hu
  · exact .inr ⟨rfl, rfl⟩
  · exact .inl ⟨rfl, rfl, rfl⟩

theorem build_cursor {s u : State} (hu : build s = .ok u) : SameCursor s u ∨ CursorAtNewRoot u := by
  obtain ⟨t, ht, hu⟩ := build_eq_ok.mp hu
  refine mergeAll_induction (R := fun t => SameCursor s t ∨ CursorAtNewRoot t)
    (fun _ _ hs _ hm => cursor_trans hs (mergeOne_cursor hm)) hu ?_
  rcases buildStart_eq_ok.mp ht with ⟨-, ht⟩ | ⟨-, rfl⟩
  · exact seed_cursor ht
  · exact .inl ⟨rfl, rfl, rfl⟩

theorem assign_cursor {s u : State} (hu : assign s = .ok u) : SameCursor s u := by
  obtain ⟨c, -, rfl⟩ := assign_eq_ok.mp hu
  exact ⟨rfl, rfl, rfl⟩

/-- A tree is built only where there is no root yet. -/
theorem Inv.rootValid_of_building {s : State} (h : Inv s) (hp : s.phase = .count ∨ s.phase = .forest) :
    s.rootValid = false := by
  rcases hp with hp | hp
  · exact (h.phaseTable.1 hp).2.2.2.1
  · exact (h.phaseTable.2.1 hp).2.2.2.1

theorem buildStart_building {s t : State} (ht : buildStart s = .ok t) : s.phase = .count ∨ s.phase = .forest :=
  (buildStart_eq_ok.mp ht).imp And.left And.left

/-- Only the decoder and CLEAR move the cursor of a root that was there before; a command that makes the root puts the
cursor on it. -/
theorem bodyOf_cursor {i : Instr} {s u : State} (h : Inv s) (hr : i ≠ .decReset) (hb : ∀ b, i ≠ .decBit b)
    (hc : i ≠ .clear) (hu : bodyOf i s = .ok u) : SameCursor s u ∨ s.rootValid = false ∧ CursorAtNewRoot u := by
  cases i with
  | nop => cases hu; exact .inl ⟨rfl, rfl, rfl⟩
  | clear => exact absurd rfl hc
  | decReset => exact absurd rfl hr
  | decBit b => exact absurd rfl (hb b)
  | count y => obtain ⟨-, -, rfl⟩ := countBody_eq_ok.mp hu; exact .inl ⟨rfl, rfl, rfl⟩
  | loadFreq y => obtain ⟨-, rfl⟩ := loadFreqBody_eq_ok.mp hu; exact .inl ⟨rfl, rfl, rfl⟩
  | readFreq y => obtain ⟨-, rfl⟩ := readFreqBody_eq_ok.mp hu; exact .inl ⟨rfl, rfl, rfl⟩
  | readCode y w => obtain ⟨-, rfl⟩ := readCodeBody_eq_ok.mp hu; exact .inl ⟨rfl, rfl, rfl⟩
  | readNode k => obtain ⟨x, -, rfl⟩ := readNodeBody_eq_ok hu; exact .inl ⟨rfl, rfl, rfl⟩
  | readColl k => obtain ⟨j, x, -, -, rfl⟩ := readCollBody_eq_ok hu; exact .inl ⟨rfl, rfl, rfl⟩
  | seed =>
    have hroot := h.rootValid_of_building (.inl (seed_eq_ok hu).1)
    exact (seed_cursor hu).imp_right fun hn => ⟨hroot, hn⟩
  | merge =>
    obtain ⟨hp, hu⟩ := mergeBody_eq_ok.mp hu
    exact (mergeOne_cursor hu).imp_right fun hn => ⟨h.rootValid_of_building (.inr hp), hn⟩
  | build =>
    obtain ⟨t, ht, -⟩ := build_eq_ok.mp hu
    exact (build_cursor hu).imp_right fun hn => ⟨h.rootValid_of_building (buildStart_building ht), hn⟩
  | buildCode =>
    obtain ⟨v, hv, hu⟩ := andThen_eq_ok.mp hu
    obtain ⟨t, ht, -⟩ := build_eq_ok.mp hv
    exact (cursor_trans (build_cursor hv) (.inl (assign_cursor hu))).imp_right
      fun hn => ⟨h.rootValid_of_building (buildStart_building ht), hn⟩
  | assign => exact .inl (assign_cursor (assignBody_eq_ok.mp hu).2)

theorem exec_cursor {i : Instr} {s t : State} (h : Inv s) (hr : i ≠ .decReset) (hb : ∀ b, i ≠ .decBit b)
    (hc : i ≠ .clear) (ht : exec i s = .next t) : SameCursor s t ∨ s.rootValid = false ∧ CursorAtNewRoot t := by
  rcases exec_next ht with ⟨u, hu, rfl⟩ | ⟨e, -, rfl⟩
  · exact (bodyOf_cursor h hr hb hc hu : SameCursor s u ∨ s.rootValid = false ∧ CursorAtNewRoot u)
  · exact .inl ⟨rfl, rfl, rfl⟩

/-- DEC_RESET, DEC_BIT and CLEAR make no root. -/
theorem exec_rootValid {i : Instr} {s t : State} (hi : i = .decReset ∨ (∃ b, i = .decBit b) ∨ i = .clear)
    (ht : exec i s = .next t) (hs : s.rootValid = false) : t.rootValid = false := by
  rcases exec_next ht with ⟨u, hu, rfl⟩ | ⟨e, -, rfl⟩
  · rcases hi with rfl | ⟨b, rfl⟩ | rfl
    · obtain ⟨-, rfl⟩ := decResetBody_eq_ok.mp hu
      exact hs
    · show u.rootValid = false
      rw [bodyOf_readingOnly rfl hu]
      exact hs
    · cases hu; rfl
  · exact hs

/-! ### Nodes owned once (rules R37, R38) -/

theorem ArenaOk.leaf_ne_of_lt {s : State} (h : ArenaOk s) {i j : NodeIdx} {y z : Sym} {f g : Freq} (hij : i < j)
    (hi : nodeAt s i = some (.leaf y f)) (hj : nodeAt s j = some (.leaf z g)) : y ≠ z := by
  have hpairs := List.pairwise_filterMap.mp (List.pairwise_filterMap.mp h.symsUnique)
  have hi' := nodeAt_isSome_lt (Option.isSome_iff_exists.mpr ⟨_, hi⟩)
  have hj' := nodeAt_isSome_lt (Option.isSome_iff_exists.mpr ⟨_, hj⟩)
  rw [nodeAt_eq_get hi'] at hi
  rw [nodeAt_eq_get hj'] at hj
  exact List.pairwise_iff_getElem.mp hpairs i.toNat j.toNat _ _ (BitVec.lt_def.mp hij) _ hi _ hj y rfl z rfl

theorem ArenaOk.leaf_unique {s : State} (h : ArenaOk s) {i j : NodeIdx} {y : Sym} {f g : Freq}
    (hi : nodeAt s i = some (.leaf y f)) (hj : nodeAt s j = some (.leaf y g)) : i = j := by
  rcases BitVec.lt_trichotomy i j with hlt | e | hlt
  · exact absurd rfl (h.leaf_ne_of_lt hlt hi hj)
  · exact e
  · exact absurd rfl (h.leaf_ne_of_lt hlt hj hi)

theorem ArenaOk.owned_nodup {s : State} (h : ArenaOk s) : (s.coll ++ children s).Nodup := by
  refine h.ownedOnce.nodup_iff.mpr (List.Nodup.map_on ?_ List.nodup_range)
  intro i hi j hj e
  have hcnt := s.nodeCnt.isLt
  rw [List.mem_range] at hi hj
  simpa [Nat.mod_eq_of_lt (hi.trans hcnt), Nat.mod_eq_of_lt (hj.trans hcnt)] using congrArg BitVec.toNat e

/-! ### Register fields -/

/-- A field above n lower bits. -/
theorem toNat_append_add {m n : Nat} (x : BitVec m) (y : BitVec n) : (x ++ y).toNat = x.toNat * 2 ^ n + y.toNat := by
  rw [BitVec.toNat_append, ← Nat.shiftLeft_add_eq_or_of_lt y.isLt, Nat.shiftLeft_eq]

theorem Phase.bits_toNat (p : Phase) :
    p.bits.toNat = match p with | .count => 0 | .forest => 1 | .tree => 2 | .coded => 3 := by
  cases p <;> rfl

theorem ErrCode.bits_toNat (e : ErrCode) :
    e.bits.toNat = match e with
      | .ok => 0 | .emptyAlphabet => 1 | .badPhase => 2 | .illegalCmd => 3 | .countOvf => 4 | .badIndex => 5
      | .degenerate => 6 := by
  cases e <;> rfl

theorem statusWord_toNat (s : State) :
    (statusWord s).toNat =
      s.busy.toNat + s.phase.bits.toNat * 2 + s.ovr.toNat * 2 ^ 4 + s.err.bits.toNat * 2 ^ 8 := by
  simp only [statusWord, toNat_append_add, BitVec.toNat_ofBool, BitVec.toNat_ofNat]
  omega

theorem infoWord_toNat (s : State) :
    (infoWord s).toNat = s.coll.length % 2 ^ 9 + s.nodeCnt.toNat * 2 ^ 16 := by
  simp only [infoWord, collLen, toNat_append_add, BitVec.toNat_ofNat]
  omega

theorem rootWord_toNat (s : State) :
    (rootWord s).toNat = s.rootIdx.toNat + s.nleaf.toNat * 2 ^ 16 + s.rootValid.toNat * 2 ^ 31 := by
  simp only [rootWord, toNat_append_add, BitVec.toNat_ofBool, BitVec.toNat_ofNat]
  omega

theorem decCurWord_toNat (s : State) : (decCurWord s).toNat = s.decCur.toNat := by
  simp only [decCurWord, toNat_append_add, BitVec.toNat_ofNat]
  omega

theorem readData_idle {s : State} (h : s.busy = false) (r : Reg) : readData s r = regValue s r := by
  simp [readData, h]

/-! ### Admitted accesses -/

theorem hostMove_wr (r : Reg) (v : Word) (s : State) : hostMove (wr r v) s = .next (writeReg r v s) := by
  cases r <;> rfl

theorem hostMove_rd (r : Reg) (s : State) : hostMove (rd r) s = .next (afterRead s r) := by
  cases r <;> rfl

theorem readData_exact {r : Reg} (h : r.exactWhileBusy = true) (s : State) : readData s r = regValue s r := by
  simp [readData, h]

theorem afterRead_exact {r : Reg} (h : r.exactWhileBusy = true) (s : State) :
    afterRead s r = { s with reads := regValue s r :: s.reads } := by
  simp [afterRead, readData_exact, h]

end Sys2Proof.Machine

/-! ## The obligations of 10_state.md -/

namespace Sys2Proof.Machine

/-- Settles O42: the parts of the invariant, for every body, every host line and reset. -/
theorem stepKeepsTheInvariant : Obligations.StepKeepsTheInvariant := by
  unfold Obligations.StepKeepsTheInvariant
  exact fun _ _ => step_inv

/-- Settles O43: the arena of reset is empty. -/
theorem resetMeetsTheInvariant : Obligations.ResetMeetsTheInvariant := by
  unfold Obligations.ResetMeetsTheInvariant
  exact inv_reset

/-- Settles O37: the frames of the commands that do not read, and the bodies of those that do. -/
theorem resultsChangeOnlyByReadCommands : Obligations.ResultsChangeOnlyByReadCommands := by
  unfold Obligations.ResultsChangeOnlyByReadCommands
  refine ⟨fun _ _ _ => exec_results, ?_, ?_, ?_⟩
  · intro s t h
    rw [exec_clear_next h]
    exact ⟨rfl, rfl, rfl⟩
  · intro i s t h ht
    obtain ⟨u, hu, rfl⟩ := exec_next_of_ok h ht
    cases i with
    | readFreq y => obtain ⟨-, rfl⟩ := readFreqBody_eq_ok.mp hu; exact ⟨rfl, rfl⟩
    | readCode y w => obtain ⟨-, rfl⟩ := readCodeBody_eq_ok.mp hu; rfl
    | decBit b =>
      obtain ⟨-, root, c, r, -, -, -, -, rfl⟩ := decBitBody_eq_ok hu
      cases r <;> rfl
    | nop | clear | count y | loadFreq y | seed | merge | build | buildCode | assign | decReset | readNode k
    | readColl k => trivial
  · exact fun _ _ => ⟨rfl, rfl, rfl⟩

/-- Settles O38: no body writes DATA_IN, and LOAD_FREQ takes PEND.DATA. -/
theorem dataInBelongsToTheHost : Obligations.DataInBelongsToTheHost := by
  unfold Obligations.DataInBelongsToTheHost
  refine ⟨fun _ _ _ => exec_dataIn, ?_, ?_, rfl⟩
  · intro v s
    exact ⟨_, hostMove_wr .dataIn v s, rfl, _, hostMove_rd .dataIn _, afterRead_exact rfl _⟩
  · intro w v s hs
    have haccept : writeReg .cmd w s = accept w s := by rw [writeReg, hs]; rfl
    refine ⟨accept w s, { accept w s with dataIn := v }, haccept ▸ hostMove_wr .cmd w s, hostMove_wr .dataIn v _, rfl, ?_⟩
    intro y u h hok
    obtain ⟨t, ht, rfl⟩ := exec_next_of_ok h hok
    obtain ⟨-, rfl⟩ := loadFreqBody_eq_ok.mp ht
    exact freqAt_setFreq_self _ y _

/-- Settles O39: CODE is clear outside phase CODED, and there each entry is a path of at most 255 branches. -/
theorem codeTableEntriesAreWellFormed : Obligations.CodeTableEntriesAreWellFormed := by
  unfold Obligations.CodeTableEntriesAreWellFormed
  exact ⟨fun _ _ _ => exec_code, fun _ y h => h.storedForm y⟩

/-- Settles O40: a merge writes the first slot without a record, and SEED starts from an empty arena. -/
theorem nodeRecordsAreNeverChanged : Obligations.NodeRecordsAreNeverChanged := by
  unfold Obligations.NodeRecordsAreNeverChanged
  intro i s t k r h ht hc hr
  rcases exec_next ht with ⟨u, hu, rfl⟩ | ⟨e, -, rfl⟩
  · exact bodyOf_recordsKept h hc hu k r hr
  · exact hr

/-- Settles O41: a command keeps root and cursor, or makes the root and puts the cursor there. -/
theorem decCurFollowsTheRoot : Obligations.DecCurFollowsTheRoot := by
  unfold Obligations.DecCurFollowsTheRoot
  refine ⟨?_, ?_, ?_, rfl⟩
  · intro i s t h ht hs hv
    have hne : ¬ (i = .decReset ∨ (∃ b, i = .decBit b) ∨ i = .clear) := fun hi =>
      absurd (hv.symm.trans (exec_rootValid hi ht hs)) (by decide)
    simp only [not_or, not_exists] at hne
    rcases exec_cursor h hne.1 hne.2.1 hne.2.2 ht with ⟨hsame, -, -⟩ | ⟨-, -, hcur⟩
    · exact absurd (hv.symm.trans (hsame.trans hs)) (by decide)
    · exact hcur
  · intro i s t h ht hnew hr hb hc
    rcases exec_cursor h hr hb hc ht with ⟨-, -, hcur⟩ | ⟨hs, hv, -⟩
    · exact hcur
    · exact absurd ⟨hs, hv⟩ hnew
  · intro s t h
    rw [exec_clear_next h]
    rfl

/-- Settles O45: the invariant's FREQ sums, with the children below their node and so allocated. -/
theorem frequencySumsAreExact : Obligations.FrequencySumsAreExact := by
  unfold Obligations.FrequencySumsAreExact
  intro s hs i
  have h := hs.inv.arena
  refine ⟨?_, fun y f hi => h.freq_leaf hi⟩
  intro l r f hi
  obtain ⟨hl, hr⟩ := h.children_lt hi
  have hlt := h.lt_nodeCnt hi
  obtain ⟨a, ha⟩ := h.exists_node (BitVec.lt_trans hl hlt)
  obtain ⟨b, hb⟩ := h.exists_node (BitVec.lt_trans hr hlt)
  exact ⟨a, b, ha, hb, by rw [h.freq_internal hi, freqNat_eq ha, freqNat_eq hb]⟩

/-- Settles O46: each part is the invariant's, read at single nodes. -/
theorem nodesAreOwnedOnce : Obligations.NodesAreOwnedOnce := by
  unfold Obligations.NodesAreOwnedOnce
  intro s hs
  have h := hs.inv.arena
  refine ⟨fun i j y f g => h.leaf_unique, ?_, fun i l r f => h.children_lt⟩
  intro i hi
  exact List.count_eq_one_of_mem h.owned_nodup (h.mem_owned.mpr hi)

/-- Settles O47: the row of the phase in the invariant's table, with its tables read entry by entry. -/
theorem phasesHaveTheirCounts : Obligations.PhasesHaveTheirCounts := by
  unfold Obligations.PhasesHaveTheirCounts
  intro s hs
  have h := hs.inv
  obtain ⟨hcount, hforest, hdone, htree, hcoded⟩ := h.phaseTable
  split
  next hp =>
    obtain ⟨hcnt, hcoll, hleaf, hvalid, -, hcode⟩ := hcount hp
    exact ⟨by simp [hcnt], by simp [hcoll], by simp [hleaf], hvalid, codeAt_of_codeClear hcode⟩
  next hp =>
    obtain ⟨hcnt, htwo, hle, hvalid, -, hfreq, hcode⟩ := hforest hp
    exact ⟨hcnt, htwo, hle, htwo.trans hle, hvalid, freqAt_of_freqZero hfreq, codeAt_of_codeClear hcode⟩
  next hp =>
    obtain ⟨hcnt, hcoll, hroot, hone, hvalid, hfreq⟩ := hdone (.inl hp)
    exact ⟨by omega, hcoll, by omega, hone, hvalid, freqAt_of_freqZero hfreq, codeAt_of_codeClear (htree hp)⟩
  next hp =>
    obtain ⟨hcnt, hcoll, hroot, hone, hvalid, hfreq⟩ := hdone (.inr hp)
    refine ⟨by omega, hcoll, by omega, hone, hvalid, freqAt_of_freqZero hfreq, fun y => ?_⟩
    rw [hcoded hp y, decide_eq_true_iff, mem_leafSyms]

/-- Settles O53: each view is a concatenation of fields, read as a sum. -/
theorem registerViewsShowTheState : Obligations.RegisterViewsShowTheState := by
  unfold Obligations.RegisterViewsShowTheState
  intro s hs
  simp only [readData_idle hs]
  refine ⟨?_, infoWord_toNat s, rootWord_toNat s, decCurWord_toNat s, rfl, rfl, rfl, rfl, rfl, rfl, rfl⟩
  have hstatus : (statusWord s).toNat = s.phase.bits.toNat * 2 + s.ovr.toNat * 2 ^ 4 + s.err.bits.toNat * 2 ^ 8 := by
    rw [statusWord_toNat, hs, Bool.toNat_false, Nat.zero_add]
  exact hstatus.trans
    (congrArg₂ (fun p e => p * 2 + s.ovr.toNat * 2 ^ 4 + e * 2 ^ 8) s.phase.bits_toNat s.err.bits_toNat)

end Sys2Proof.Machine

/-! ## Rules of 20_memory.md: the host's accesses, and which agent a step lets move -/

namespace Sys2Proof.Machine

/-! ### Which accesses are admitted (rules R53, R54) -/

/-- The registers stand at consecutive multiples of 4, from offset 0. -/
theorem offset_allRegs : ∀ k : Fin 11, (allRegs.get k).offset.toNat = 4 * k := by
  decide

theorem regAt_isSome_iff {off : BitVec 8} : (regAt off).isSome = true ↔ off.toNat % 4 = 0 ∧ off.toNat < 0x2C := by
  rw [regAt, List.find?_isSome]
  constructor
  · rintro ⟨r, -, hr⟩
    obtain rfl := eq_of_beq hr
    cases r <;> decide
  · rintro ⟨haligned, hmapped⟩
    have hplace := offset_allRegs ⟨off.toNat / 4, by omega⟩
    refine ⟨_, List.get_mem allRegs _, beq_iff_eq.mpr (BitVec.eq_of_toNat_eq (hplace.trans ?_))⟩
    exact Nat.mul_div_cancel' (Nat.dvd_of_mod_eq_zero haligned)

theorem admitted_isSome_iff {a : BusAccess} :
    a.admitted.isSome = true ↔ a.byteEn = 0xF#4 ∧ a.off.toNat % 4 = 0 ∧ a.off.toNat < 0x2C := by
  rw [← regAt_isSome_iff, BusAccess.admitted]
  by_cases h : a.byteEn = 0xF#4 <;> simp [h]

/-- An admitted access is answered OKAY and gives a next state. -/
theorem access_of_admitted {a : BusAccess} (h : a.admitted.isSome = true) (s : State) :
    a.response = .okay ∧ ∃ t, hostMove (.access a) s = .next t := by
  refine ⟨if_pos h, ?_⟩
  obtain ⟨r, hr⟩ := Option.isSome_iff_exists.mp h
  rw [hostMove, busAccess, hr]
  cases a.write
  · exact ⟨afterRead s r, rfl⟩
  · exact ⟨writeReg r a.wdata s, rfl⟩

/-- Any other access is answered DECERR and is the host's fault. -/
theorem access_of_not_admitted {a : BusAccess} (h : ¬ a.admitted.isSome = true) (s : State) :
    a.response = .decErr ∧ hostMove (.access a) s = .fault .decErr := by
  refine ⟨if_neg h, ?_⟩
  rw [hostMove, busAccess, Option.not_isSome_iff_eq_none.mp h]

/-! ### Writes (rules R52, R56, R58) -/

theorem writeReg_cmd_idle {s : State} (h : s.busy = false) (w : Word) : writeReg .cmd w s = accept w s := by
  rw [writeReg, h]; rfl

theorem writeReg_cmd_busy {s : State} (h : s.busy = true) (w : Word) : writeReg .cmd w s = overrun s := by
  rw [writeReg, h]; rfl

/-- STATUS is written to clear OVR, by bit 4 of the value (rules R22, R52). -/
theorem writeReg_status (v : Word) (s : State) : writeReg .status v s = { s with ovr := s.ovr && !v.getLsbD 4 } := by
  rw [writeReg]
  cases v.getLsbD 4
  · rw [Bool.not_false, Bool.and_true]; rfl
  · rw [Bool.not_true, Bool.and_false]; rfl

theorem writeReg_ignored {r : Reg} (hcmd : r ≠ .cmd) (hdata : r ≠ .dataIn) (hstatus : r ≠ .status) (v : Word)
    (s : State) : writeReg r v s = s := by
  cases r with
  | cmd | dataIn | status => contradiction
  | result0 | result1 | result2 | info | root | decCur | id | params => rfl

/-! ### Reads (rules R51, R59) -/

theorem regValue_afterRead (s : State) (r r' : Reg) : regValue (afterRead s r) r' = regValue s r' := by
  cases r' <;> rfl

theorem afterRead_draws_idle {s : State} (h : s.busy = false) (r : Reg) : (afterRead s r).draws = s.draws := by
  simp [afterRead, h]

theorem readData_status_busy {s : State} (h : s.busy = true) :
    readData s .status = busyStatusWord s (Config.busyDraw s.draws) := by
  simp [readData, h, Reg.exactWhileBusy]

/-- A register that rule R59 leaves open, STATUS apart, reads as the next draw. -/
theorem readData_open {s : State} (h : s.busy = true) {r : Reg} (hopen : r.exactWhileBusy = false)
    (hstatus : r ≠ .status) : readData s r = Config.busyDraw s.draws := by
  have hdraw : (s.busy && !r.exactWhileBusy) = true := by rw [h, hopen]; rfl
  cases r with
  | status => contradiction
  | cmd | dataIn | id | params => cases hopen
  | result0 | result1 | result2 | info | root | decCur => exact if_pos hdraw

/-- STATUS while BUSY = 1, bit by bit: BUSY and OVR stand in it, and the rest is the draw's. -/
theorem getLsbD_busyStatusWord (s : State) (draw : Word) (k : Nat) :
    (busyStatusWord s draw).getLsbD k = if k = 0 then true else if k = 4 then s.ovr else draw.getLsbD k := by
  simp only [busyStatusWord, BitVec.getLsbD_append, BitVec.getLsbD_extractLsb', BitVec.getLsbD_ofBool]
  by_cases h0 : k = 0
  · simp [h0]
  by_cases h4 : k = 4
  · simp [h4]
  rw [if_neg h0, if_neg h4]
  rcases Nat.lt_or_gt_of_ne h4 with hlow | hhigh
  · have hplace : 1 + (k - 1) = k := by omega
    simp [hplace, show ¬ k < 1 by omega, show k - 1 < 3 by omega]
  · have hplace : 5 + (k - 1 - 3 - 1) = k := by omega
    have hwidth : draw.getLsbD k = true → k - 1 - 3 - 1 < 27 := fun hbit => by
      have := BitVec.lt_of_getLsbD hbit
      omega
    simpa [hplace, show ¬ k < 1 by omega, show ¬ k - 1 < 3 by omega, show ¬ k - 1 - 3 < 1 by omega] using hwidth

/-! ### What no host line but reset changes (rule R189) -/

/-- `t` is `s` but for what the host's accesses write: DATA_IN, PEND, BUSY, OVR and the host's own fields. -/
def HostSideOnly (s t : State) : Prop :=
  t = { s with
    dataIn := t.dataIn, busy := t.busy, ovr := t.ovr, pend := t.pend, script := t.script, sched := t.sched,
    reads := t.reads, missed := t.missed, draws := t.draws }

theorem writeReg_hostSideOnly (r : Reg) (v : Word) (s : State) : HostSideOnly s (writeReg r v s) := by
  rcases writeReg_cases r v s with ⟨-, -, e⟩ | ⟨-, -, e⟩ | ⟨-, e⟩ | ⟨-, e⟩ | e <;> rw [e] <;> rfl

theorem hostMove_hostSideOnly {l : HostLine} {s t : State} (h : hostMove l s = .next t) (hl : l ≠ .reset) :
    HostSideOnly s t := by
  rcases hostMove_cases h with ⟨a, r, -, -, -, rfl⟩ | ⟨a, r, -, -, -, rfl⟩ | ⟨rest, -, rfl, -⟩ | ⟨e, m, -, rfl⟩ |
    ⟨y, -, rfl⟩ | ⟨hreset, -⟩
  · exact writeReg_hostSideOnly r a.wdata s
  · rfl
  · rfl
  · rfl
  · rfl
  · exact absurd hreset hl

/-! ### Which agent a step lets move (rules R57, R62, R175) -/

theorem step_host_idle {s : State} {l : HostLine} {rest : List HostLine} (hb : s.busy = false)
    (hs : s.script = l :: rest) : step s = hostMove l { s with script := rest } := by
  simp only [step, nextMove, hb, hs]

theorem step_host_busy {s : State} {l : HostLine} {rest : List HostLine} {q : List Agent} (hb : s.busy = true)
    (hs : s.script = l :: rest) (hq : s.sched = .host :: q) :
    step s = hostMove l { s with script := rest, sched := q } := by
  simp only [step, nextMove, hb, hs, hq]

theorem step_engine {s : State} (hb : s.busy = true) (h : s.script = [] ∨ s.sched = []) :
    step s = completionStep s := by
  rcases h with hs | hq
  · simp only [step, nextMove, hb, hs]
  · cases hs : s.script <;> simp only [step, nextMove, hb, hs, hq]

theorem step_engine_scheduled {s : State} {l : HostLine} {rest : List HostLine} {q : List Agent} (hb : s.busy = true)
    (hs : s.script = l :: rest) (hq : s.sched = .engine :: q) :
    step s = completionStep { s with sched := q } := by
  simp only [step, nextMove, hb, hs, hq]

theorem step_idle {s : State} (hb : s.busy = false) (hs : s.script = []) : step s = .next s := by
  simp only [step, nextMove, hb, hs]

theorem completionStep_of_decode {s : State} {i : Instr} (h : decode s.pend.word = .ok i) :
    completionStep s = exec i s := by
  rw [completionStep, h]

/-- `withFetchWord` makes the engine the next to move: the step completes the word, whatever the host's script holds. -/
theorem step_withFetchWord (s : State) (w : Nat) :
    step (s.withFetchWord 32 w) = completionStep { s with pend := ⟨BitVec.ofNat 32 w, s.dataIn⟩, busy := true } := by
  have hword : BitVec.ofNat 32 (w % 2 ^ 32) = BitVec.ofNat 32 w := BitVec.eq_of_toNat_eq (Nat.mod_mod ..)
  rw [State.withFetchWord, loadCommand, hword]
  by_cases hs : s.script = []
  · rw [if_pos (List.isEmpty_iff.mpr hs)]
    exact step_engine (s := accept (BitVec.ofNat 32 w) s) rfl (.inl hs)
  · obtain ⟨l, rest, hcons⟩ := List.exists_cons_of_ne_nil hs
    rw [if_neg (mt List.isEmpty_iff.mp hs)]
    exact step_engine_scheduled (s := accept (BitVec.ofNat 32 w) { s with sched := .engine :: s.sched }) rfl hcons rfl

end Sys2Proof.Machine

/-! ## The obligations of 20_memory.md -/

namespace Sys2Proof.Machine

/-- Settles O50: the two clauses are an access that is not admitted and one that is. -/
theorem onlyAdmittedAccessesSucceed : Obligations.OnlyAdmittedAccessesSucceed := by
  unfold Obligations.OnlyAdmittedAccessesSucceed
  intro a s
  constructor
  · intro h
    refine access_of_not_admitted (fun hadm => ?_) s
    obtain ⟨hbytes, haligned, hmapped⟩ := admitted_isSome_iff.mp hadm
    rcases h with h | h | h
    · exact h hbytes
    · exact h haligned
    · exact absurd hmapped (Nat.not_lt.mpr h)
  · intro hbytes haligned hmapped
    exact access_of_admitted (admitted_isSome_iff.mpr ⟨hbytes, haligned, hmapped⟩) s

/-- Settles O54: STATUS bit by bit, the exact registers as they stand, and one draw for the others in both states. -/
theorem busyReadsAreDraws : Obligations.BusyReadsAreDraws := by
  unfold Obligations.BusyReadsAreDraws
  intro s t hs ht hdraws
  simp only [readData_status_busy hs, readData_status_busy ht, getLsbD_busyStatusWord]
  refine ⟨rfl, rfl, fun k hk => ?_, readData_exact rfl s, readData_exact rfl s, readData_exact rfl s,
    readData_exact rfl s, fun r hr => ?_⟩
  · rw [if_neg hk, if_neg hk, hdraws]
  · obtain ⟨hopen, hstatus⟩ : r.exactWhileBusy = false ∧ r ≠ .status := by
      revert r; decide
    rw [readData_open hs hopen hstatus, readData_open ht hopen hstatus, hdraws]

/-- Settles O57: each of these fields is outside what a host line writes. -/
theorem hostCannotWriteTheArrays : Obligations.HostCannotWriteTheArrays := by
  unfold Obligations.HostCannotWriteTheArrays
  intro l s t h hl
  rw [hostMove_hostSideOnly h hl]
  exact ⟨rfl, rfl, rfl, rfl, rfl, rfl, rfl, rfl, rfl, rfl, rfl, rfl, rfl, rfl⟩

/-- Settles O51: the host's line is the step, and BUSY says what its write of CMD does. -/
theorem commandIsAcceptedOrDropped : Obligations.CommandIsAcceptedOrDropped := by
  unfold Obligations.CommandIsAcceptedOrDropped
  intro w s rest
  constructor
  · intro hb hs
    rw [step_host_idle hb hs, hostMove_wr]
    exact congrArg Host.Outcome.next (writeReg_cmd_idle (s := { s with script := rest }) hb w)
  · intro q hb hs hq
    rw [step_host_busy hb hs hq, hostMove_wr]
    exact congrArg Host.Outcome.next (writeReg_cmd_busy (s := { s with script := rest, sched := q }) hb w)

/-- Settles O52: the effect of `writeReg` on each register. -/
theorem hostWritesHaveTheirEffect : Obligations.HostWritesHaveTheirEffect := by
  unfold Obligations.HostWritesHaveTheirEffect
  intro v s
  simp only [hostMove_wr]
  refine ⟨rfl, rfl, ?_, fun r hcmd hdata hstatus => ?_⟩
  · rw [writeReg_status]
  · rw [writeReg_ignored hcmd hdata hstatus]

/-- Settles O55: a read adds to the record of reads, and no register shows that record. -/
theorem readsHaveNoSideEffect : Obligations.ReadsHaveNoSideEffect := by
  unfold Obligations.ReadsHaveNoSideEffect
  intro r s
  refine ⟨by cases r <;> rfl, afterRead s r, hostMove_rd r s, rfl, fun hb => ⟨afterRead_draws_idle hb r, fun r' => ?_⟩⟩
  have hb' : (afterRead s r).busy = false := hb
  rw [readData_idle hb', readData_idle hb, regValue_afterRead]

/-- Settles O58: on each way the engine comes to move, the step is the completion step of the decoded word. -/
theorem stepRunsTheDecodedCommand : Obligations.StepRunsTheDecodedCommand := by
  unfold Obligations.StepRunsTheDecodedCommand
  intro s i
  refine ⟨fun hb hi => ⟨fun h => ?_, fun l rest q hs hq => ?_⟩, fun w hi => ?_, step_idle⟩
  · rw [step_engine hb h, completionStep_of_decode hi]
  · rw [step_engine_scheduled hb hs hq]
    exact completionStep_of_decode hi
  · rw [step_withFetchWord]
    exact completionStep_of_decode hi

end Sys2Proof.Machine

/-! ## Rules of 30_encoding.md: fields, rows of the opcode map, decoder and assembler -/

namespace Sys2Proof

/-! ### Fields (rules R70 to R72) -/

theorem mnemonic_instrOf (m : Mnemonic) (w : Word) : (instrOf m w).mnemonic = m := by
  cases m <;> rfl

theorem toNat_operandBits_readCode (y : Sym) (w : BitVec 3) :
    (operandBits (.readCode y w)).toNat = w.toNat * 2 ^ 8 + y.toNat := by
  have hw := w.isLt
  have hy := y.isLt
  rw [operandBits, BitVec.toNat_or, BitVec.toNat_shiftLeft, BitVec.toNat_setWidth, BitVec.toNat_setWidth,
    Nat.mod_eq_of_lt (a := w.toNat) (by omega), Nat.mod_eq_of_lt (a := y.toNat) (by omega), Nat.shiftLeft_eq,
    Nat.mod_eq_of_lt (by omega), ← Nat.shiftLeft_eq, ← Nat.shiftLeft_add_eq_or_of_lt hy]

/-- The operand bits of a command stay below the opcode. -/
theorem operandBits_lt (i : Instr) : (operandBits i).toNat < 2 ^ 24 := by
  cases i with
  | count y | loadFreq y | readFreq y => exact Laws.OpcField.bits_sym y
  | readNode k | readColl k => exact Laws.OpcField.bits_idx k
  | decBit b => cases b <;> decide
  | readCode y w =>
    have hw := w.isLt
    have hy := y.isLt
    rw [toNat_operandBits_readCode]
    omega
  | nop | clear | seed | merge | build | buildCode | assign | decReset => decide

theorem opcOf_encode (i : Instr) : opcOf (encode i) = i.mnemonic.opc :=
  Laws.OpcField.opcOf_or _ _ (operandBits_lt i)

/-- A field below the opcode is that of the operand bits. -/
theorem extractLsb'_encode (i : Instr) {a n : Nat} (h : a + n ≤ 24) :
    (encode i).extractLsb' a n = (operandBits i).extractLsb' a n := by
  ext k hk
  have hlow : a + k < 24 := by omega
  simp [encode, hlow]

theorem symOf_encode (i : Instr) : symOf (encode i) = symOf (operandBits i) := extractLsb'_encode i (by decide)

theorem wordSelOf_encode (i : Instr) : wordSelOf (encode i) = wordSelOf (operandBits i) :=
  extractLsb'_encode i (by decide)

theorem idxOf_encode (i : Instr) : idxOf (encode i) = idxOf (operandBits i) := extractLsb'_encode i (by decide)

theorem bitOf_encode (i : Instr) : bitOf (encode i) = bitOf (operandBits i) := by
  simp [bitOf, encode]

theorem symOf_setWidth (y : Sym) : symOf (y.setWidth 32) = y :=
  (BitVec.extractLsb'_setWidth_of_le (by decide)).trans BitVec.extractLsb'_eq_self

theorem idxOf_setWidth (k : NodeIdx) : idxOf (k.setWidth 32) = k :=
  (BitVec.extractLsb'_setWidth_of_le (by decide)).trans BitVec.extractLsb'_eq_self

theorem symOf_operandBits_readCode (y : Sym) (w : BitVec 3) : symOf (operandBits (.readCode y w)) = y := by
  have hy := y.isLt
  apply BitVec.eq_of_toNat_eq
  rw [symOf, BitVec.extractLsb'_toNat, toNat_operandBits_readCode, Nat.shiftRight_zero]
  omega

theorem wordSelOf_operandBits_readCode (y : Sym) (w : BitVec 3) : wordSelOf (operandBits (.readCode y w)) = w := by
  have hy := y.isLt
  have hw := w.isLt
  apply BitVec.eq_of_toNat_eq
  rw [wordSelOf, BitVec.extractLsb'_toNat, toNat_operandBits_readCode, Nat.shiftRight_eq_div_pow]
  omega

theorem bitOf_operandBits_decBit (b : Bool) : bitOf (operandBits (.decBit b)) = b := by
  cases b <;> rfl

/-- The fields of a command's encoding are its operands. -/
theorem instrOf_encode (i : Instr) : instrOf i.mnemonic (encode i) = i := by
  cases i with
  | count y => exact congrArg Instr.count ((symOf_encode _).trans (symOf_setWidth y))
  | loadFreq y => exact congrArg Instr.loadFreq ((symOf_encode _).trans (symOf_setWidth y))
  | readFreq y => exact congrArg Instr.readFreq ((symOf_encode _).trans (symOf_setWidth y))
  | readNode k => exact congrArg Instr.readNode ((idxOf_encode _).trans (idxOf_setWidth k))
  | readColl k => exact congrArg Instr.readColl ((idxOf_encode _).trans (idxOf_setWidth k))
  | decBit b => exact congrArg Instr.decBit ((bitOf_encode _).trans (bitOf_operandBits_decBit b))
  | readCode y w =>
    simp only [Instr.mnemonic, instrOf, symOf_encode, wordSelOf_encode, symOf_operandBits_readCode,
      wordSelOf_operandBits_readCode]
  | nop | clear | seed | merge | build | buildCode | assign | decReset => rfl

/-! ### Rows of the opcode map (rule R73) -/

theorem exists_row (m : Mnemonic) : ∃ r ∈ opcodeMap, r.mnemonic = m := by
  cases m <;> decide

/-- An opcode stands in one row only. -/
theorem row_eq_of_opc : ∀ a ∈ opcodeMap, ∀ b ∈ opcodeMap, a.mnemonic.opc = b.mnemonic.opc → a = b := by decide

/-- A row's match is its opcode in place, and its mask drops none of it. -/
theorem row_pattern :
    ∀ r ∈ opcodeMap, r.mnemonic.opc.setWidth 32 <<< 24 = r.pattern ∧ r.pattern &&& r.mask = r.pattern := by
  decide

/-- The low n bits of a word, widened, are the word with its other bits cleared. -/
theorem setWidth_lowField (n : Nat) (w : Word) :
    (w.extractLsb' 0 n).setWidth 32 = w &&& (BitVec.allOnes n).setWidth 32 := by
  ext k hk
  simp [BitVec.getElem_setWidth, Bool.and_comm, hk]

/-- SYM and WORD stand side by side (rule R72). -/
theorem operandBits_readCode_fields (w : Word) :
    operandBits (.readCode (symOf w) (wordSelOf w)) = (w.extractLsb' 0 11).setWidth 32 := by
  apply BitVec.eq_of_toNat_eq
  rw [toNat_operandBits_readCode, symOf, wordSelOf, BitVec.toNat_setWidth]
  simp only [BitVec.extractLsb'_toNat, Nat.shiftRight_eq_div_pow]
  omega

/-- The operand bits of a row's command are the bits of the word that the row's mask leaves out. -/
theorem operandBits_instrOf (w : Word) :
    ∀ r ∈ opcodeMap, operandBits (instrOf r.mnemonic w) = w &&& ~~~ r.mask := by
  have hsym : (symOf w).setWidth 32 = w &&& ~~~ 0xFFFFFF00#32 := setWidth_lowField 8 w
  have hidx : (idxOf w).setWidth 32 = w &&& ~~~ 0xFFFFFE00#32 := setWidth_lowField 9 w
  have hbit : (BitVec.ofBool (bitOf w)).setWidth 32 = w &&& ~~~ 0xFFFFFFFE#32 :=
    BitVec.and_one_eq_setWidth_ofBool_getLsbD.symm
  have hcode : operandBits (.readCode (symOf w) (wordSelOf w)) = w &&& ~~~ 0xFFFFF800#32 := by
    rw [operandBits_readCode_fields]
    exact setWidth_lowField 11 w
  have hnone : (0#32 : Word) = w &&& ~~~ 0xFFFFFFFF#32 := BitVec.and_zero.symm
  simp only [opcodeMap, List.forall_mem_cons, List.not_mem_nil, false_implies, implies_true, and_true]
  exact ⟨hnone, hnone, hsym, hsym, hsym, hnone, hnone, hnone, hnone, hnone, hcode, hnone, hbit, hidx, hidx⟩

/-- A row selects exactly the encodings of its commands: outside the mask stand the operand bits, and on it the match. -/
theorem selects_iff {r : OpRow} (hr : r ∈ opcodeMap) (w : Word) :
    r.selects w = true ↔ encode (instrOf r.mnemonic w) = w := by
  obtain ⟨hopc, hmask⟩ := row_pattern r hr
  have henc : encode (instrOf r.mnemonic w) = r.pattern ||| (w &&& ~~~ r.mask) := by
    rw [encode, mnemonic_instrOf, hopc, operandBits_instrOf w r hr]
  rw [henc, OpRow.selects, beq_iff_eq]
  constructor
  · intro h
    rw [← h, ← BitVec.and_or_distrib_left, BitVec.or_not_self, BitVec.and_allOnes]
  · intro h
    calc w &&& r.mask = (r.pattern ||| (w &&& ~~~ r.mask)) &&& r.mask := by rw [h]
      _ = r.pattern := by
        rw [BitVec.and_or_distrib_right, hmask, BitVec.and_assoc, BitVec.not_and_self]
        simp

/-- No two rows select one word: a row that selects a word has the word's opcode. -/
theorem row_unique {w : Word} {a b : OpRow} (ha : a ∈ opcodeMap) (hb : b ∈ opcodeMap)
    (haw : a.selects w = true) (hbw : b.selects w = true) : a = b := by
  have hopc : ∀ r ∈ opcodeMap, r.selects w = true → opcOf w = r.mnemonic.opc := by
    intro r hr hrw
    rw [← (selects_iff hr w).mp hrw, opcOf_encode, mnemonic_instrOf]
  exact row_eq_of_opc a ha b hb ((hopc a ha haw).symm.trans (hopc b hb hbw))

/-! ### Decode (rule R74) -/

/-- A word decodes to a command exactly when a row selects it, and then to the row's mnemonic with the word's fields. -/
theorem decode_eq_ok {w : Word} {i : Instr} :
    decode w = .ok i ↔ ∃ r ∈ opcodeMap, r.selects w = true ∧ instrOf r.mnemonic w = i := by
  cases h : opcodeMap.find? (fun r => r.selects w) with
  | none =>
    simp only [decode, h, reduceCtorEq, false_iff]
    rintro ⟨r, hr, hrw, -⟩
    exact List.find?_eq_none.mp h r hr hrw
  | some r =>
    have hr := List.mem_of_find?_eq_some h
    have hrw := List.find?_some h
    simp only [decode, h, Except.ok.injEq]
    constructor
    · intro hi
      exact ⟨r, hr, hrw, hi⟩
    · rintro ⟨a, ha, haw, hi⟩
      rw [row_unique hr ha hrw haw]
      exact hi

/-- The encoding of a command is selected by the row of its mnemonic. -/
theorem decode_encode (i : Instr) : decode (encode i) = .ok i := by
  obtain ⟨r, hr, hm⟩ := exists_row i.mnemonic
  have hi : instrOf r.mnemonic (encode i) = i := hm ▸ instrOf_encode i
  exact decode_eq_ok.mpr ⟨r, hr, (selects_iff hr _).mpr (congrArg encode hi), hi⟩

theorem decode_eq_error {w : Word} (h : ∀ r ∈ opcodeMap, w &&& r.mask ≠ r.pattern) :
    ∃ e, decode w = .error e := by
  cases hd : decode w with
  | error e => exact ⟨e, rfl⟩
  | ok i =>
    obtain ⟨r, hr, hrw, -⟩ := decode_eq_ok.mp hd
    exact absurd (beq_iff_eq.mp hrw) (h r hr)

/-! ### The assembler (rule R79) -/

theorem toNat_encode (i : Instr) : (encode i).toNat = i.mnemonic.opc.toNat * 2 ^ 24 + (operandBits i).toNat := by
  have hhigh := congrArg BitVec.toNat (opcOf_encode i)
  have hlow := congrArg BitVec.toNat (extractLsb'_encode i (a := 0) (n := 24) (by decide))
  have hw := (encode i).isLt
  have hbits := operandBits_lt i
  rw [opcOf, BitVec.extractLsb'_toNat, Nat.shiftRight_eq_div_pow] at hhigh
  rw [BitVec.extractLsb'_toNat, BitVec.extractLsb'_toNat, Nat.shiftRight_zero, Nat.shiftRight_zero] at hlow
  omega

/-- The number an operand list stands for in the low bits of its word: for READ_CODE the word number at bit 8. -/
def operandValue : List Nat → Nat
  | [] => 0
  | [a] => a
  | a :: b :: _ => b * 2 ^ 8 + a

/-- The operand lists a format takes, each operand in its range (rules R71, R79). -/
def Format.Admits : Format → List Nat → Prop
  | .z, ops => ops = []
  | .s, ops => ∃ s ≤ 255, ops = [s]
  | .c, ops => ∃ s ≤ 255, ∃ w ≤ 7, ops = [s, w]
  | .b, ops => ∃ b ≤ 1, ops = [b]
  | .n, ops => ∃ i ≤ 511, ops = [i]

theorem Format.Admits.length_le {f : Format} {ops : List Nat} (h : f.Admits ops) : ops.length ≤ 2 := by
  cases f with
  | z => obtain rfl : ops = [] := h; decide
  | s => obtain ⟨s, -, rfl⟩ := h; exact Nat.le_succ 1
  | c => obtain ⟨s, -, w, -, rfl⟩ := h; exact Nat.le_refl 2
  | b => obtain ⟨b, -, rfl⟩ := h; exact Nat.le_succ 1
  | n => obtain ⟨i, -, rfl⟩ := h; exact Nat.le_succ 1

theorem AsmCmd.admits_of_wellFormed {m : Mnemonic} {ops : List Nat} (h : AsmCmd.wellFormed ⟨m, ops⟩ = true) :
    m.format.Admits ops := by
  simp only [AsmCmd.wellFormed] at h
  split at h
  case h_1 hf => rw [hf]; rfl
  case h_2 s hf => rw [hf]; exact ⟨s, of_decide_eq_true h, rfl⟩
  case h_3 s w hf =>
    obtain ⟨hs, hw⟩ := (Bool.and_eq_true _ _).mp h
    rw [hf]
    exact ⟨s, of_decide_eq_true hs, w, of_decide_eq_true hw, rfl⟩
  case h_4 b hf => rw [hf]; exact ⟨b, of_decide_eq_true h, rfl⟩
  case h_5 i hf => rw [hf]; exact ⟨i, of_decide_eq_true h, rfl⟩
  case h_6 => cases h

theorem AsmCmd.toInstr_of_wellFormed {m : Mnemonic} {ops : List Nat} (h : AsmCmd.wellFormed ⟨m, ops⟩ = true) :
    ∃ i, AsmCmd.toInstr ⟨m, ops⟩ = some i ∧ i.mnemonic = m ∧ (operandBits i).toNat = operandValue ops := by
  have hadm := AsmCmd.admits_of_wellFormed h
  rw [AsmCmd.toInstr, if_pos h]
  cases m with
  | nop | clear | seed | merge | build | buildCode | assign | decReset =>
    obtain rfl : ops = [] := hadm
    exact ⟨_, rfl, rfl, rfl⟩
  | count | loadFreq | readFreq =>
    obtain ⟨s, hs, rfl⟩ := hadm
    refine ⟨_, rfl, rfl, ?_⟩
    simp only [operandBits, operandValue, BitVec.toNat_setWidth, BitVec.toNat_ofNat]
    omega
  | readCode =>
    obtain ⟨s, hs, w, hw, rfl⟩ := hadm
    refine ⟨_, rfl, rfl, ?_⟩
    rw [toNat_operandBits_readCode, operandValue, BitVec.toNat_ofNat, BitVec.toNat_ofNat]
    omega
  | decBit =>
    obtain ⟨b, hb, rfl⟩ := hadm
    refine ⟨_, rfl, rfl, ?_⟩
    obtain rfl | rfl : b = 0 ∨ b = 1 := by omega
    · rfl
    · rfl
  | readNode | readColl =>
    obtain ⟨i, hi, rfl⟩ := hadm
    refine ⟨_, rfl, rfl, ?_⟩
    simp only [operandBits, operandValue, BitVec.toNat_setWidth, BitVec.toNat_ofNat]
    omega

end Sys2Proof

namespace Sys2Proof.Machine

/-! ### Completion and `do` (rules R57, R74, R80) -/

theorem completionStep_of_error {s : State} {e : DecodeError} (h : decode s.pend.word = .error e) :
    completionStep s = .next { s with err := .illegalCmd, busy := false } := by
  rw [completionStep, h]
  rfl

/-- No body writes the host's script or the schedule. -/
theorem bodyOf_hostSide {i : Instr} {s u : State} (h : bodyOf i s = .ok u) :
    u.script = s.script ∧ u.sched = s.sched := by
  by_cases hr : isReadType i = true
  · rw [bodyOf_readingOnly hr h]
    exact ⟨rfl, rfl⟩
  · by_cases hc : i = .clear
    · subst hc
      cases h
      exact ⟨rfl, rfl⟩
    · obtain ⟨t, c, p, ht, rfl⟩ := bodyOf_treeOnly (Bool.eq_false_iff.mpr hr) hc h
      rw [ht]
      exact ⟨rfl, rfl⟩

/-- A command that gives a next state ends with BUSY = 0 and leaves the host's script and the schedule (rule R57). -/
theorem exec_hostSide {i : Instr} {s t : State} (h : exec i s = .next t) :
    t.busy = false ∧ t.script = s.script ∧ t.sched = s.sched := by
  rcases exec_next h with ⟨u, hu, rfl⟩ | ⟨e, -, rfl⟩
  · exact ⟨rfl, (bodyOf_hostSide hu : u.script = s.script ∧ u.sched = s.sched)⟩
  · exact ⟨rfl, rfl, rfl⟩

theorem afterRead_idle {s : State} (h : s.busy = false) (r : Reg) :
    afterRead s r = { s with reads := regValue s r :: s.reads } := by
  simp [afterRead, readData_idle h, h]

/-- With an empty schedule the engine moves next after an acceptance (rules R57, R187). -/
theorem step_accept {s : State} (hq : s.sched = []) (c : Instr) :
    step (accept (encode c) s) = exec c (accept (encode c) s) := by
  rw [step_engine (s := accept (encode c) s) rfl (.inr hq)]
  exact completionStep_of_decode (decode_encode c)

/-- A poll that reads BUSY = 0 records the STATUS it read and goes on (rule R80). -/
theorem hostMove_poll_idle {s : State} (h : s.busy = false) :
    hostMove .poll s = .next { s with reads := statusWord s :: s.reads } := by
  have hbit : (readData s .status).getLsbD 0 = false := by
    rw [readData_idle h, regValue, statusWord, BitVec.getLsbD_append, h]
    rfl
  rw [hostMove, hbit, afterRead_idle h]
  rfl

end Sys2Proof.Machine

/-! ## The obligations of 30_encoding.md -/

namespace Sys2Proof.Machine

/-- Settles O2: the row of the command's mnemonic selects its encoding, whose fields are the operands. -/
theorem decodeOfEncodeIsTheCommand : Obligations.DecodeOfEncodeIsTheCommand := by
  unfold Obligations.DecodeOfEncodeIsTheCommand
  exact decode_encode

/-- Settles O3: a row selects exactly the encodings of its commands, and it has the word's opcode. -/
theorem decodedWordIsItsEncoding : Obligations.DecodedWordIsItsEncoding := by
  unfold Obligations.DecodedWordIsItsEncoding
  refine ⟨fun w i h => ?_, fun w a b ha hb => row_unique ha hb⟩
  obtain ⟨r, hr, hrw, rfl⟩ := decode_eq_ok.mp h
  exact (selects_iff hr w).mp hrw

/-- Settles O4: the decoder finds the row that selects the word; with no such row the completion step raises ILLEGAL_CMD. -/
theorem decodeIsTotalAndIllegalWordsOnlySetErr : Obligations.DecodeIsTotalAndIllegalWordsOnlySetErr := by
  unfold Obligations.DecodeIsTotalAndIllegalWordsOnlySetErr
  intro w
  by_cases h : ∃ r ∈ opcodeMap, w &&& r.mask = r.pattern
  · obtain ⟨r, hr, hrw⟩ := h
    exact .inl ⟨r, hr, hrw, decode_eq_ok.mpr ⟨r, hr, beq_iff_eq.mpr hrw, rfl⟩⟩
  · have hno : ∀ r ∈ opcodeMap, w &&& r.mask ≠ r.pattern := fun r hr hrw => h ⟨r, hr, hrw⟩
    obtain ⟨e, he⟩ := decode_eq_error hno
    refine .inr ⟨hno, fun s hs => ⟨accept w s, ?_, rfl, ?_⟩⟩
    · rw [hostMove_wr, writeReg_cmd_idle hs]
    · exact completionStep_of_error (s := accept w s) he

/-- Settles O5: an assembled command is encoded as OPC above its operand bits, which are the operands' value. -/
theorem assemblerWordsAndRefusals : Obligations.AssemblerWordsAndRefusals := by
  unfold Obligations.AssemblerWordsAndRefusals
  rintro ⟨m, ops⟩
  refine ⟨fun h => ?_, fun h => ?_⟩
  · rw [assemble, AsmCmd.toInstr, h]
    rfl
  · obtain ⟨i, hi, rfl, hops⟩ := AsmCmd.toInstr_of_wellFormed h
    have hw : (encode i).toNat = i.mnemonic.opc.toNat * 2 ^ 24 + operandValue ops := hops ▸ toNat_encode i
    refine ⟨encode i, by rw [assemble, hi]; rfl, ?_⟩
    have hlen := (AsmCmd.admits_of_wellFormed h).length_le
    rcases ops with _ | ⟨a, _ | ⟨b, _ | ⟨d, ops⟩⟩⟩
    · dsimp only
      rw [hw, operandValue, Nat.add_zero]
    · dsimp only
      rw [hw, operandValue]
    · dsimp only
      rw [hw, operandValue, Nat.add_assoc]
    · simp at hlen

/-- Settles O59: the host's write of CMD, the engine's completion of the word, and one poll, which reads BUSY = 0. -/
theorem doIssuesAndWaits : Obligations.DoIssuesAndWaits := by
  unfold Obligations.DoIssuesAndWaits
  intro s t c rest hb hq hs hexec
  obtain ⟨htb, hts, -⟩ := exec_hostSide hexec
  have haccept : step s = .next (accept (encode c) { s with script := .poll :: rest }) := by
    rw [step_host_idle hb hs, hostMove_wr]
    exact congrArg Host.Outcome.next (writeReg_cmd_idle (s := { s with script := .poll :: rest }) hb _)
  have hcomplete : step (accept (encode c) { s with script := .poll :: rest }) = .next t := by
    rw [step_accept (s := { s with script := .poll :: rest }) hq c]
    exact hexec
  have hpoll : step t = .next { t with script := rest, reads := statusWord t :: t.reads } := by
    rw [step_host_idle htb hts]
    exact hostMove_poll_idle (s := { t with script := rest }) htb
  exact run_succ_eq_next.mpr ⟨_, haccept, run_succ_eq_next.mpr ⟨_, hcomplete, run_succ_eq_next.mpr ⟨_, hpoll, rfl⟩⟩⟩

/-- Settles O1: the decoder run on each of the words. -/
theorem wordsDecodeAsWritten : Obligations.WordsDecodeAsWritten := by
  unfold Obligations.WordsDecodeAsWritten
  decide

end Sys2Proof.Machine

/-! ## Rules of 40_frequency.md: the commands of the FrequencyTable, and runs of COUNT -/

namespace Sys2Proof.Machine

/-! ### The word of a command (rules R70, R79) -/

theorem decode_or_operandBits {i : Instr} {m : Mnemonic} {opc : Word} (hm : i.mnemonic = m)
    (hopc : m.opc.setWidth 32 <<< 24 = opc) : decode (opc ||| operandBits i) = .ok i := by
  rw [← hopc, ← hm]
  exact decode_encode i

/-! ### From a body to its command (rules R57, R162) -/

theorem exec_of_ok {i : Instr} {s u : State} (h : bodyOf i s = .ok u) :
    exec i s = .next { u with err := .ok, busy := false } := by
  rw [exec_eq_completion, h, completion_ok]

theorem exec_of_cmdError {i : Instr} {s : State} {e : ErrCode} (h : bodyOf i s = cmdError e) :
    exec i s = .next { s with err := e, busy := false } := by
  rw [exec_eq_completion, h, completion_cmdError]

theorem execSeq_cons_of_next {i : Instr} {s t : State} (h : exec i s = .next t) (is : List Instr) :
    execSeq (i :: is) s = execSeq is t := by
  rw [execSeq, h]

/-! ### One command (rules R91 to R93) -/

theorem countBody_full {y : Sym} {s : State} (hp : s.phase = .count) (hfull : (freqAt s y).toNat = 2 ^ 32 - 1) :
    countBody y s = cmdError .countOvf := by
  have hmax : freqAt s y = 0xFFFFFFFF#32 := BitVec.eq_of_toNat_eq hfull
  rw [countBody, if_neg (not_not_intro hp), if_pos hmax]

/-- A successful write of one count: the new count, the other counts, and the frame. -/
theorem exec_of_setFreq {i : Instr} {y : Sym} {c : Count} {s : State} (h : bodyOf i s = .ok (setFreq s y c)) :
    ∃ t, exec i s = .next t ∧ freqAt t y = c ∧ (∀ z, z ≠ y → freqAt t z = freqAt s z) ∧
      t = { s with freq := t.freq, err := .ok, busy := false } :=
  ⟨_, exec_of_ok h, freqAt_setFreq_self s y c, fun z hz => freqAt_setFreq_ne s y z c hz, rfl⟩

theorem exec_count_below {y : Sym} {s : State} (hp : s.phase = .count) (hlt : (freqAt s y).toNat < 2 ^ 32 - 1) :
    ∃ t, exec (.count y) s = .next t ∧ (freqAt t y).toNat = (freqAt s y).toNat + 1 ∧
      (∀ z, z ≠ y → freqAt t z = freqAt s z) ∧ t = { s with freq := t.freq, err := .ok, busy := false } := by
  have hne : freqAt s y ≠ 0xFFFFFFFF#32 := fun e => absurd hlt (by rw [e]; decide)
  obtain ⟨t, ht, hy, hframe⟩ := exec_of_setFreq (i := .count y) (countBody_eq_ok.mpr ⟨hp, hne, rfl⟩)
  refine ⟨t, ht, ?_, hframe⟩
  rw [hy, BitVec.toNat_add, BitVec.toNat_one (by decide), Nat.mod_eq_of_lt (by omega)]

/-! ### A run of COUNT (rule R94) -/

/-- From any table that has room for the input, every count grows by the occurrences of its symbol. -/
theorem execSeq_count_adds (xs : List Sym) {s : State} (hp : s.phase = .count)
    (hroom : ∀ y, (freqAt s y).toNat + xs.count y < 2 ^ 32) :
    ∃ t, execSeq (xs.map .count) s = .next t ∧ (∀ y, (freqAt t y).toNat = (freqAt s y).toNat + xs.count y) ∧
      t = { s with freq := t.freq, err := t.err, busy := t.busy } := by
  induction xs generalizing s with
  | nil => exact ⟨s, rfl, fun _ => rfl, rfl⟩
  | cons x xs ih =>
    have hlt : (freqAt s x).toNat < 2 ^ 32 - 1 := by
      have hx := hroom x
      rw [List.count_cons_self] at hx
      omega
    obtain ⟨t, ht, hself, hother, hframe⟩ := exec_count_below hp hlt
    have hcount : ∀ y, (freqAt t y).toNat + xs.count y = (freqAt s y).toNat + (x :: xs).count y := by
      intro y
      by_cases hy : y = x
      · rw [hy, hself, List.count_cons_self]
        omega
      · rw [hother y hy, List.count_cons_of_ne (Ne.symm hy)]
    have htp : t.phase = .count := by
      rw [hframe]
      exact hp
    obtain ⟨u, hu, hsum, hframe'⟩ := ih htp fun y => (hcount y).trans_lt (hroom y)
    refine ⟨u, (execSeq_cons_of_next ht _).trans hu, fun y => (hsum y).trans (hcount y), ?_⟩
    rw [hframe', hframe]

end Sys2Proof.Machine

/-! ## The obligations of 40_frequency.md -/

namespace Sys2Proof.Machine

/-- Settles O15: an empty table has room for the input, so each count is the number of occurrences. -/
theorem countsTabulateTheInput : Obligations.CountsTabulateTheInput := by
  unfold Obligations.CountsTabulateTheInput
  intro s xs hp hzero hlt
  have hstart : ∀ y, (freqAt s y).toNat + xs.count y = xs.count y := fun y => by
    rw [hzero y, BitVec.toNat_zero, Nat.zero_add]
  obtain ⟨t, ht, hsum, hframe⟩ := execSeq_count_adds xs hp fun y => (hstart y).trans_lt (hlt y)
  exact ⟨t, ht, fun y => (hsum y).trans (hstart y), hframe⟩

/-- Settles O12: the two guards of COUNT's body, and below the last count its addition, which cannot wrap. -/
theorem countAddsOneOrReportsOverflow : Obligations.CountAddsOneOrReportsOverflow := by
  unfold Obligations.CountAddsOneOrReportsOverflow
  intro y s
  refine ⟨decode_or_operandBits (i := .count y) (m := .count) rfl (by decide), fun hp => ?_, fun hp hfull => ?_,
    fun hp hlt => ?_⟩
  · exact exec_of_cmdError (if_pos hp)
  · exact exec_of_cmdError (countBody_full hp hfull)
  · exact exec_count_below hp hlt

/-- Settles O13: the guard of LOAD_FREQ's body, and its write of the latched data. -/
theorem loadFreqReplacesTheCount : Obligations.LoadFreqReplacesTheCount := by
  unfold Obligations.LoadFreqReplacesTheCount
  intro y s
  refine ⟨decode_or_operandBits (i := .loadFreq y) (m := .loadFreq) rfl (by decide), fun hp => ?_, fun hp => ?_⟩
  · exact exec_of_cmdError (if_pos hp)
  · exact exec_of_setFreq (i := .loadFreq y) (loadFreqBody_eq_ok.mpr ⟨hp, rfl⟩)

/-- Settles O14: the guard of READ_FREQ's body, and its write of the results. -/
theorem readFreqShowsTheCount : Obligations.ReadFreqShowsTheCount := by
  unfold Obligations.ReadFreqShowsTheCount
  intro y s
  refine ⟨decode_or_operandBits (i := .readFreq y) (m := .readFreq) rfl (by decide), fun hp => ?_, fun hp => ?_⟩
  · exact exec_of_cmdError (if_pos hp)
  · exact exec_of_ok (i := .readFreq y) (readFreqBody_eq_ok.mpr ⟨hp, rfl⟩)

end Sys2Proof.Machine

/-! ## Rules R100 to R104 of 41_tree_builder.md: SEED, selection and merging -/

namespace Sys2Proof.Machine

/-! ### Present symbols (rules R16, R31, R100) -/

theorem presentCount_eq_length (s : State) : presentCount s = (presentSyms s).length :=
  List.countP_eq_length_filter

theorem mem_presentSyms {s : State} {y : Sym} : y ∈ presentSyms s ↔ freqAt s y ≠ 0#32 := by
  have hall : y ∈ allSyms := List.mem_map.mpr ⟨y.toNat, List.mem_range.mpr y.isLt, by simp⟩
  simp [presentSyms, hall]

theorem presentSyms_eq_nil {s : State} (h : presentCount s = 0) : presentSyms s = [] :=
  List.length_eq_zero_iff.mp ((presentCount_eq_length s).symm.trans h)

theorem allSyms_sorted : allSyms.Pairwise (· < ·) := by
  refine List.pairwise_map.mpr (List.pairwise_lt_range.imp_of_mem fun ha hb hab => ?_)
  rw [List.mem_range] at ha hb
  simp only [BitVec.lt_def, BitVec.toNat_ofNat]
  omega

/-- In a sorted list an entry stands after exactly the smaller ones. -/
theorem getElem?_countP_lt {l : List Sym} (hl : l.Pairwise (· < ·)) {y : Sym} (hy : y ∈ l) :
    l[l.countP fun z => decide (z < y)]? = some y := by
  induction l with
  | nil => cases hy
  | cons x l ih =>
    obtain ⟨hx, hl⟩ := List.pairwise_cons.mp hl
    rcases List.mem_cons.mp hy with rfl | hy
    · have hnone : l.countP (fun z => decide (z < y)) = 0 :=
        List.countP_eq_zero.mpr fun z hz => by simpa using BitVec.le_of_lt (hx z hz)
      simp [hnone, BitVec.lt_irrefl]
    · simpa [hx y hy] using ih hl hy

/-- The leaf of y comes after those of the smaller present symbols. -/
theorem presentSyms_getElem?_rankOf {s : State} {y : Sym} (hy : freqAt s y ≠ 0#32) :
    (presentSyms s)[rankOf s y]? = some y := by
  have hrank : rankOf s y = (presentSyms s).countP fun z => decide (z < y) := by
    rw [presentSyms, List.countP_filter, rankOf]
  rw [hrank]
  exact getElem?_countP_lt (List.Pairwise.filter _ allSyms_sorted) (mem_presentSyms.mpr hy)

theorem eq_singleton_of_nodup {l : List Sym} (hl : l.Nodup) {y : Sym} (h : ∀ z, z ∈ l ↔ z = y) : l = [y] :=
  List.perm_singleton.mp <| (List.perm_ext_iff_of_nodup hl (List.nodup_singleton y)).mpr
    fun z => (h z).trans List.mem_singleton.symm

/-- A table with one present symbol. -/
theorem presentSyms_singleton {s : State} {y : Sym} (hy : freqAt s y ≠ 0#32) (hz : ∀ z, z ≠ y → freqAt s z = 0#32) :
    presentSyms s = [y] :=
  eq_singleton_of_nodup (presentSyms_nodup s) fun z =>
    mem_presentSyms.trans ⟨fun h => by_contra fun hne => h (hz z hne), fun h => h ▸ hy⟩

/-! ### SEED, case by case (rules R100, R108) -/

theorem seed_of_none {s : State} (hp : s.phase = .count) (h : presentSyms s = []) : seed s = cmdError .emptyAlphabet := by
  rw [seed, if_neg (not_not_intro hp), h]

theorem seed_of_one {s : State} (hp : s.phase = .count) {y : Sym} (h : presentSyms s = [y]) :
    seed s = .ok (becomeTree (plant s [y]) 0#9) := by
  rw [seed, if_neg (not_not_intro hp), h]

theorem seed_of_many {s : State} (hp : s.phase = .count) (h : 2 ≤ (presentSyms s).length) :
    seed s = .ok { plant s (presentSyms s) with phase := .forest } := by
  rw [seed, if_neg (not_not_intro hp)]
  rcases hys : presentSyms s with _ | ⟨y, _ | ⟨z, ys⟩⟩
  · simp [hys] at h
  · simp [hys] at h
  · rfl

theorem seed_isOk {s : State} (hp : s.phase = .count) (h : 1 ≤ presentCount s) : ∃ t, seed s = .ok t := by
  rw [presentCount_eq_length] at h
  rcases h.eq_or_lt with h | h
  · obtain ⟨y, hy⟩ := List.length_eq_one_iff.mp h.symm
    exact ⟨_, seed_of_one hp hy⟩
  · exact ⟨_, seed_of_many hp h⟩

/-- The records of the arena SEED leaves: leaf k in NODE[k], and above the leaves what was there. -/
theorem nodeAt_plant_of_lt (s : State) {ys : List Sym} {i : NodeIdx} {y : Sym} (hi : i.toNat < 511)
    (hy : ys[i.toNat]? = some y) : nodeAt (plant s ys) i = some (leafOf s y) := by
  rw [nodeAt_eq_get hi, plant_node, putNodes_get, if_pos (Nat.zero_le _), Nat.sub_zero, List.getElem?_map, hy]
  rfl

theorem nodeAt_plant_of_le (s : State) {ys : List Sym} {i : NodeIdx} (h : ys.length ≤ i.toNat) :
    nodeAt (plant s ys) i = nodeAt s i := by
  unfold nodeAt
  split
  next hi =>
    rw [plant_node, putNodes_get, if_pos (Nat.zero_le _), Nat.sub_zero, List.getElem?_map,
      List.getElem?_eq_none h, Option.map_none]
  · rfl

theorem plant_coll_toNat (s : State) {ys : List Sym} (h : ys.length ≤ 256) :
    (plant s ys).coll.map BitVec.toNat = List.range ys.length := by
  rw [plant_coll, List.map_map]
  refine (List.map_congr_left fun k hk => ?_).trans (List.map_id _)
  have := List.mem_range.mp hk
  simp
  omega

theorem plant_nodeCnt_toNat (s : State) {ys : List Sym} (h : ys.length ≤ 256) :
    (plant s ys).nodeCnt.toNat = ys.length := by
  simp
  omega

theorem seed_node {s t : State} (ht : seed s = .ok t) : t.node = (plant s (presentSyms s)).node := by
  obtain ⟨-, ⟨y, hy, rfl⟩ | ⟨-, rfl⟩⟩ := seed_eq_ok ht
  · rw [hy]; rfl
  · rfl

theorem seed_coll {s t : State} (ht : seed s = .ok t) : t.coll = (plant s (presentSyms s)).coll := by
  obtain ⟨-, ⟨y, hy, rfl⟩ | ⟨-, rfl⟩⟩ := seed_eq_ok ht
  · rw [hy]; rfl
  · rfl

theorem seed_freq {s t : State} (ht : seed s = .ok t) : FreqZero t := by
  obtain ⟨-, ⟨y, -, rfl⟩ | ⟨-, rfl⟩⟩ := seed_eq_ok ht
  · rfl
  · rfl

theorem seed_root_of_one {s t : State} (ht : seed s = .ok t) (hone : presentCount s = 1) :
    t.phase = .tree ∧ t.rootValid = true ∧ t.rootIdx = 0#9 ∧ t.decCur = 0#9 := by
  obtain ⟨-, ⟨y, -, rfl⟩ | ⟨htwo, -⟩⟩ := seed_eq_ok ht
  · exact ⟨rfl, rfl, rfl, rfl⟩
  · rw [← presentCount_eq_length] at htwo
    omega

theorem seed_root_of_many {s t : State} (ht : seed s = .ok t) (htwo : 2 ≤ presentCount s) :
    t.phase = .forest ∧ t.rootValid = s.rootValid ∧ t.rootIdx = s.rootIdx ∧ t.decCur = s.decCur := by
  obtain ⟨-, ⟨y, hy, -⟩ | ⟨-, rfl⟩⟩ := seed_eq_ok ht
  · rw [presentCount_eq_length, hy] at htwo
    simp at htwo
  · exact ⟨rfl, rfl, rfl, rfl⟩

/-- The leaf of y stands at the number of smaller present symbols (rule R100). -/
theorem seed_leaf {s t : State} (ht : seed s = .ok t) {y : Sym} (hy : freqAt s y ≠ 0#32) :
    nodeAt t (BitVec.ofNat 9 (rankOf s y)) = some (leafOf s y) := by
  have hrank := presentSyms_getElem?_rankOf hy
  have hlt := (List.getElem?_eq_some_iff.mp hrank).1
  have hlen := presentSyms_length_le s
  have hidx : (BitVec.ofNat 9 (rankOf s y)).toNat = rankOf s y := by
    rw [BitVec.toNat_ofNat]
    omega
  rw [nodeAt_congr (seed_node ht)]
  exact nodeAt_plant_of_lt s (by omega) (hidx.symm ▸ hrank)

/-- SEED writes no slot above its leaves. -/
theorem seed_above {s t : State} (ht : seed s = .ok t) {i : NodeIdx} (hi : presentCount s ≤ i.toNat) :
    nodeAt t i = nodeAt s i := by
  rw [nodeAt_congr (seed_node ht)]
  exact nodeAt_plant_of_le s (presentCount_eq_length s ▸ hi)

/-! ### Selection (rules R101, R102) -/

/-- The scan over a whole list of frequencies, its first one included. -/
theorem firstMin_head_spec (f : Freq) (fs : List Freq) :
    ∃ g, (f :: fs)[firstMin f 0 1 fs]? = some g ∧ (∀ x ∈ f :: fs, g ≤ x) ∧
      ∀ j x, j < firstMin f 0 1 fs → (f :: fs)[j]? = some x → g < x := by
  rcases firstMin_spec fs f 0 1 with ⟨e, hall⟩ | ⟨j, g, e, hg, hlt, hall, hbefore⟩
  · rw [e]
    exact ⟨f, rfl, List.forall_mem_cons.mpr ⟨BitVec.le_refl _, hall⟩, fun j _ hj => absurd hj (Nat.not_lt_zero j)⟩
  · rw [e, Nat.add_comm 1]
    refine ⟨g, hg, List.forall_mem_cons.mpr ⟨BitVec.le_of_lt hlt, hall⟩, fun m x hm hx => ?_⟩
    cases m with
    | zero => cases hx; exact hlt
    | succ m => exact hbefore m x (Nat.lt_of_succ_lt_succ hm) hx

theorem freqsOf_eq_map {s : State} {is : List NodeIdx} {fs : List Freq} (h : freqsOf s is = .ok fs) :
    fs.map BitVec.toNat = is.map (freqNat s) := by
  have hrecords := freqsOf_eq_ok h
  clear h
  induction hrecords with
  | nil => rfl
  | cons hi _ ih =>
    obtain ⟨r, hr, rfl⟩ := hi
    rw [List.map_cons, List.map_cons, ih, freqNat_eq hr]

/-- What SelectMin answers on a collection of allocated nodes (rule R101). -/
theorem selectMin_spec {s : State} {is : List NodeIdx} {k : Nat} (h : selectMin s is = .ok k) :
    ∃ a, is[k]? = some a ∧ (∀ b ∈ is, freqNat s a ≤ freqNat s b) ∧
      ∀ j b, j < k → is[j]? = some b → freqNat s a < freqNat s b := by
  obtain ⟨fs, hfs, h⟩ := andThen_eq_ok.mp h
  have hmap := freqsOf_eq_map hfs
  have hat : ∀ j, (fs[j]?).map BitVec.toNat = (is[j]?).map (freqNat s) := fun j => by
    rw [← List.getElem?_map, ← List.getElem?_map, hmap]
  cases fs with
  | nil => cases h
  | cons f fs =>
    obtain rfl := ok_eq_ok.mp h
    obtain ⟨g, hg, hall, hbefore⟩ := firstMin_head_spec f fs
    have hk := hat (firstMin f 0 1 fs)
    rw [hg, Option.map_some] at hk
    obtain ⟨a, ha, hag⟩ := Option.map_eq_some_iff.mp hk.symm
    refine ⟨a, ha, fun b hb => ?_, fun j b hj hb => ?_⟩
    · have hmem : freqNat s b ∈ (f :: fs).map BitVec.toNat := hmap ▸ List.mem_map_of_mem hb
      obtain ⟨x, hx, hxb⟩ := List.mem_map.mp hmem
      rw [hag, ← hxb]
      exact BitVec.le_def.mp (hall x hx)
    · have hjb := hat j
      rw [hb, Option.map_some] at hjb
      obtain ⟨x, hx, hxb⟩ := Option.map_eq_some_iff.mp hjb
      rw [hag, ← hxb]
      exact BitVec.lt_def.mp (hbefore j x hj hx)

theorem selectMin_isOk {s : State} {is : List NodeIdx} (hne : is ≠ []) (h : ∀ i ∈ is, (nodeAt s i).isSome = true) :
    ∃ k, selectMin s is = .ok k := by
  obtain ⟨fs, hfs⟩ := freqsOf_isOk h
  have hlen := (freqsOf_eq_ok hfs).length_eq
  cases fs with
  | nil => exact absurd (List.length_eq_zero_iff.mp hlen) hne
  | cons f fs => exact ⟨_, by rw [selectMin, hfs, andThen_ok]⟩

/-- An extraction takes the first least node (rules R101, R102). -/
theorem extractMin_firstLeast {s : State} {is rest : List NodeIdx} {a : NodeIdx} (h : extractMin s is = .ok (a, rest)) :
    FirstLeast s is a rest := by
  obtain ⟨k, hk, ha, rfl⟩ := extractMin_eq_ok.mp h
  obtain ⟨a', ha', hall, hbefore⟩ := selectMin_spec hk
  obtain rfl : a = a' := Option.some.inj (ha.symm.trans ha')
  obtain ⟨hlt, hget⟩ := List.getElem?_eq_some_iff.mp ha
  have hsplit : is = is.take k ++ a :: is.drop (k + 1) := by
    rw [← hget, ← List.drop_eq_getElem_cons hlt, List.take_append_drop]
  refine ⟨is.take k, is.drop (k + 1), hsplit, List.eraseIdx_eq_take_drop_succ _ _, fun b hb => ?_, fun b hb => ?_⟩
  · obtain ⟨j, hj, rfl⟩ := List.mem_take_iff_getElem.mp hb
    exact hbefore j _ (by omega) (List.getElem?_eq_getElem _)
  · exact hall b (List.mem_of_mem_drop hb)

theorem extractMin_isOk {s : State} {is : List NodeIdx} (hne : is ≠ []) (h : ∀ i ∈ is, (nodeAt s i).isSome = true) :
    ∃ a rest, extractMin s is = .ok (a, rest) := by
  obtain ⟨k, hk⟩ := selectMin_isOk hne h
  obtain ⟨a, ha, -, -⟩ := selectMin_spec hk
  exact ⟨a, is.eraseIdx k, extractMin_eq_ok.mpr ⟨k, hk, ha, rfl⟩⟩

/-! ### MERGE (rules R102, R103) -/

/-- A merge that succeeds joins the first least node and the first least of the rest. -/
theorem mergeOne_firstLeast {s t : State} (h : mergeOne s = .ok t) :
    ∃ a b c d ra rb, s.nodeCnt.toNat < 511 ∧ FirstLeast s s.coll a c ∧ FirstLeast s c b d ∧ nodeAt s a = some ra ∧
      nodeAt s b = some rb ∧ t = stopIfOne (joined s a b (ra.freq + rb.freq) d) := by
  obtain ⟨a, c, b, d, ra, rb, hn, ha, hb, hra, hrb, rfl⟩ := mergeOne_eq_ok h
  exact ⟨a, b, c, d, ra, rb, hn, extractMin_firstLeast ha, extractMin_firstLeast hb, hra, hrb, rfl⟩

theorem FirstLeast.perm {s : State} {c rest : List NodeIdx} {a : NodeIdx} (h : FirstLeast s c a rest) :
    c.Perm (a :: rest) := by
  obtain ⟨l, r, rfl, rfl, -, -⟩ := h
  exact List.perm_middle

theorem FirstLeast.least {s : State} {c rest : List NodeIdx} {a : NodeIdx} (h : FirstLeast s c a rest) :
    ∀ b ∈ rest, freqNat s a ≤ freqNat s b := by
  obtain ⟨l, r, -, rfl, hl, hr⟩ := h
  exact fun b hb => (List.mem_append.mp hb).elim (fun hb => (hl b hb).le) (hr b)

/-- A merge succeeds where two nodes can be extracted and there is a slot for their parent. -/
theorem mergeOne_of_extractMin {s : State} {a b : NodeIdx} {c d : List NodeIdx} {ra rb : NodeRec}
    (hn : s.nodeCnt.toNat < 511) (ha : extractMin s s.coll = .ok (a, c)) (hb : extractMin s c = .ok (b, d))
    (hra : nodeAt s a = some ra) (hrb : nodeAt s b = some rb) :
    mergeOne s = .ok (stopIfOne (joined s a b (ra.freq + rb.freq) d)) := by
  rw [mergeOne, ha, andThen_ok, hb, andThen_ok, readNodeRec_eq_ok.mpr hra, andThen_ok, readNodeRec_eq_ok.mpr hrb,
    andThen_ok, writeNodeRec, if_pos hn, andThen_ok]
  rfl

/-- In FOREST there are two nodes to join and a slot for their parent. -/
theorem mergeOne_isOk {s : State} (h : Inv s) (hp : s.phase = .forest) : ∃ t, mergeOne s = .ok t := by
  obtain ⟨hcnt, htwo, hle, -, -, -, -⟩ := h.phaseTable.2.1 hp
  have hleaves := h.weights.1
  have hsome : ∀ i ∈ s.coll, (nodeAt s i).isSome = true := fun i hi => h.arena.isSome_iff.mpr (h.arena.lt_of_mem_coll hi)
  obtain ⟨a, c, ha⟩ := extractMin_isOk (List.ne_nil_of_length_pos (by omega)) hsome
  have hperm := (extractMin_split ha).1
  have hlen : s.coll.length = c.length + 1 := hperm.length_eq
  have hc : ∀ i ∈ c, (nodeAt s i).isSome = true := fun i hi => hsome i (hperm.mem_iff.mpr (List.mem_cons_of_mem a hi))
  obtain ⟨b, d, hb⟩ := extractMin_isOk (List.ne_nil_of_length_pos (by omega)) hc
  obtain ⟨ra, hra⟩ := Option.isSome_iff_exists.mp (hsome a (hperm.mem_iff.mpr List.mem_cons_self))
  obtain ⟨rb, hrb⟩ := Option.isSome_iff_exists.mp (hc b ((extractMin_split hb).1.mem_iff.mpr List.mem_cons_self))
  exact ⟨_, mergeOne_of_extractMin (by omega) ha hb hra hrb⟩

theorem mergeAll_isOk {n : Nat} {s : State} (h : Inv s) : ∃ t, mergeAll n s = .ok t := by
  induction n generalizing s with
  | zero => exact ⟨s, rfl⟩
  | succ n ih =>
    rw [mergeAll]
    split
    next htwo =>
      have hp := h.forest_of_two htwo
      obtain ⟨t, ht⟩ := mergeOne_isOk h hp
      rw [ht, andThen_ok]
      exact ih (mergeOne_inv h hp ht)
    · exact ⟨s, rfl⟩

end Sys2Proof.Machine

/-! ## Rules R104 to R109 and R114 of 41_tree_builder.md: BUILD as a run of merges, and the depth of its tree -/

namespace Sys2Proof.Machine

/-! ### A command that fails (rules R104, R105, R108) -/

theorem buildStart_of_count {s : State} (hp : s.phase = .count) : buildStart s = seed s := by
  rw [buildStart, hp]

theorem build_of_forest {s : State} (hp : s.phase = .forest) : build s = mergeAll (collLen s) s := by
  rw [build, buildStart, hp, andThen_ok]

theorem build_of_seed {s t : State} (hp : s.phase = .count) (h : seed s = .ok t) : build s = mergeAll (collLen t) t := by
  rw [build, buildStart_of_count hp, h, andThen_ok]

theorem build_of_finished {s : State} (hp : s.phase = .tree ∨ s.phase = .coded) : build s = cmdError .badPhase := by
  rcases hp with hp | hp <;> rw [build, buildStart, hp] <;> rfl

theorem build_of_none {s : State} (hp : s.phase = .count) (h : presentSyms s = []) :
    build s = cmdError .emptyAlphabet := by
  rw [build, buildStart_of_count hp, seed_of_none hp h]
  rfl

theorem exec_buildCode_of_cmdError {s : State} {e : ErrCode} (h : build s = cmdError e) :
    exec .buildCode s = .next { s with err := e, busy := false } := by
  refine exec_of_cmdError ?_
  rw [bodyOf, h]
  rfl

/-! ### Runs that succeed -/

/-- The state a completion step leaves when the body ends in `s` (rule R57). -/
def completed (s : State) : State := { s with err := .ok, busy := false }

theorem exec_eq_completed {i : Instr} {s u : State} (h : bodyOf i s = .ok u) : exec i s = .next (completed u) :=
  exec_of_ok h

theorem Inv.completed {s : State} (h : Inv s) : Inv (completed s) := h.congr rfl

/-- BUILD can start: in COUNT with a present symbol, or in FOREST (rule R104). -/
def CanBuild (s : State) : Prop := (s.phase = .count ∧ 1 ≤ presentCount s) ∨ s.phase = .forest

theorem buildStart_isOk {s : State} (h : CanBuild s) : ∃ t, buildStart s = .ok t := by
  rcases h with ⟨hp, hone⟩ | hp
  · rw [buildStart_of_count hp]
    exact seed_isOk hp hone
  · exact ⟨s, buildStart_eq_ok.mpr (.inr ⟨hp, rfl⟩)⟩

theorem build_isOk {s : State} (h : Inv s) (hb : CanBuild s) : ∃ u, build s = .ok u := by
  obtain ⟨t, ht⟩ := buildStart_isOk hb
  obtain ⟨u, hu⟩ := mergeAll_isOk (n := collLen t) (buildStart_inv h ht)
  exact ⟨u, build_eq_ok.mpr ⟨t, ht, hu⟩⟩

theorem stopIfOne_node (s : State) : (stopIfOne s).node = s.node := by
  rcases stopIfOne_eq s with e | ⟨i, -, e⟩ <;> rw [e]
  rfl

theorem stopIfOne_nodeCnt (s : State) : (stopIfOne s).nodeCnt = s.nodeCnt := by
  rcases stopIfOne_eq s with e | ⟨i, -, e⟩ <;> rw [e]
  rfl

theorem stopIfOne_nleaf (s : State) : (stopIfOne s).nleaf = s.nleaf := by
  rcases stopIfOne_eq s with e | ⟨i, -, e⟩ <;> rw [e]
  rfl

theorem mergeAll_nleaf {n : Nat} {s t : State} (ht : mergeAll n s = .ok t) : t.nleaf = s.nleaf := by
  refine mergeAll_induction (R := fun t => t.nleaf = s.nleaf) (fun u v hu _ hm => ?_) ht rfl
  obtain ⟨a, b, ra, rb, d, -, -, -, -, -, rfl⟩ := mergeOne_joined hm
  exact (stopIfOne_nleaf _).trans hu

theorem seed_sizes {s t : State} (ht : seed s = .ok t) :
    t.coll.map BitVec.toNat = List.range (presentCount s) ∧ t.nodeCnt.toNat = presentCount s ∧
      t.nleaf.toNat = presentCount s := by
  have hlen := presentSyms_length_le s
  rw [presentCount_eq_length]
  obtain ⟨-, ⟨y, hy, rfl⟩ | ⟨-, rfl⟩⟩ := seed_eq_ok ht
  · rw [hy] at hlen ⊢
    exact ⟨plant_coll_toNat s hlen, plant_nodeCnt_toNat s hlen, plant_nodeCnt_toNat s hlen⟩
  · exact ⟨plant_coll_toNat s hlen, plant_nodeCnt_toNat s hlen, plant_nodeCnt_toNat s hlen⟩

theorem seed_collLen {s t : State} (ht : seed s = .ok t) : collLen t = presentCount s := by
  have := congrArg List.length (seed_sizes ht).1
  rwa [List.length_map, List.length_range] at this

/-- BUILD makes a root where there was none, and puts the cursor on it. -/
theorem build_decCur {s u : State} (h : Inv s) (hu : build s = .ok u) : u.decCur = u.rootIdx := by
  have hvalid : u.rootValid = true := ((build_inv h hu).phaseTable.2.2.1 (.inl (build_phase h hu))).2.2.2.2.1
  obtain ⟨t, ht, -⟩ := build_eq_ok.mp hu
  have hnone := h.rootValid_of_building (buildStart_building ht)
  rcases build_cursor hu with ⟨hsame, -, -⟩ | ⟨-, hcur⟩
  · exact absurd (hvalid.symm.trans (hsame.trans hnone)) (by decide)
  · exact hcur

/-! ### Merging depends on the arena and the collection alone (rules R102, R114) -/

theorem extractMin_congr {s t : State} (h : t.node = s.node) (is : List NodeIdx) : extractMin t is = extractMin s is := by
  have hread : readNodeRec t = readNodeRec s := funext fun i => by rw [readNodeRec, readNodeRec, nodeAt_congr h]
  have hfreqs : freqsOf t is = freqsOf s is := by
    induction is with
    | nil => rfl
    | cons i is ih => rw [freqsOf, freqsOf, ih, hread]
  rw [extractMin, extractMin, selectMin, selectMin, hfreqs]

/-- Two states with one arena and one collection merge the same two nodes. -/
theorem mergeOne_congr {s t s' : State} (hn : t.node = s.node) (hk : t.nodeCnt = s.nodeCnt) (hc : t.coll = s.coll)
    (h : mergeOne s = .ok s') :
    ∃ a b f d, s' = stopIfOne (joined s a b f d) ∧ mergeOne t = .ok (stopIfOne (joined t a b f d)) := by
  obtain ⟨a, c, b, d, ra, rb, hlt, ha, hb, hra, hrb, rfl⟩ := mergeOne_eq_ok h
  refine ⟨a, b, ra.freq + rb.freq, d, rfl, mergeOne_of_extractMin (c := c) (hk ▸ hlt) ?_ ?_ ?_ ?_⟩
  · rw [extractMin_congr hn, hc, ha]
  · rw [extractMin_congr hn, hb]
  · rw [nodeAt_congr hn, hra]
  · rw [nodeAt_congr hn, hrb]

theorem stopIfOne_completed (s : State) (a b : NodeIdx) (f : Freq) (d : List NodeIdx) :
    stopIfOne (joined (completed s) a b f d) = completed (stopIfOne (joined s a b f d)) := by
  rcases d with _ | ⟨x, _ | ⟨y, d⟩⟩ <;> rfl

theorem mergeOne_completed {s t : State} (h : mergeOne s = .ok t) : mergeOne (completed s) = .ok (completed t) := by
  obtain ⟨a, b, f, d, rfl, ht⟩ := mergeOne_congr (s := s) (t := completed s) rfl rfl rfl h
  rw [ht, stopIfOne_completed]

theorem mergeAll_completed {n : Nat} {s t : State} (h : mergeAll n s = .ok t) :
    mergeAll n (completed s) = .ok (completed t) := by
  induction n generalizing s with
  | zero => cases h; rfl
  | succ n ih =>
    have hlen : collLen (completed s) = collLen s := rfl
    rw [mergeAll] at h ⊢
    rw [hlen]
    split at h
    next htwo =>
      obtain ⟨u, hu, h⟩ := andThen_eq_ok.mp h
      rw [if_pos htwo, mergeOne_completed hu, andThen_ok]
      exact ih h
    next hone =>
      cases h
      exact if_neg hone

/-- `t` has the arena, the collection, the counters and the root of `s`. -/
def SameTree (s t : State) : Prop :=
  t.node = s.node ∧ t.nodeCnt = s.nodeCnt ∧ t.coll = s.coll ∧ t.nleaf = s.nleaf ∧ t.rootIdx = s.rootIdx

theorem stopIfOne_sameTree {s t : State} (h : SameTree s t) : SameTree (stopIfOne s) (stopIfOne t) := by
  obtain ⟨hn, hk, hc, hl, hr⟩ := h
  unfold stopIfOne
  rw [hc]
  split
  · exact ⟨hn, hk, hc, hl, rfl⟩
  · exact ⟨hn, hk, hc, hl, hr⟩

theorem mergeOne_sameTree {s t s' : State} (h : SameTree s t) (hs : mergeOne s = .ok s') :
    ∃ t', mergeOne t = .ok t' ∧ SameTree s' t' := by
  obtain ⟨hn, hk, hc, hl, hr⟩ := h
  obtain ⟨a, b, f, d, rfl, ht⟩ := mergeOne_congr hn hk hc hs
  refine ⟨_, ht, stopIfOne_sameTree ⟨?_, ?_, ?_, hl, hr⟩⟩
  · rw [joined, joined, hn, hk]
  · rw [joined, joined, hk]
  · rw [joined, joined, hk]

theorem mergeAll_sameTree {n : Nat} {s t s' : State} (h : SameTree s t) (hs : mergeAll n s = .ok s') :
    ∃ t', mergeAll n t = .ok t' ∧ SameTree s' t' := by
  induction n generalizing s t with
  | zero => cases hs; exact ⟨t, rfl, h⟩
  | succ n ih =>
    have hlen : collLen t = collLen s := congrArg List.length h.2.2.1
    rw [mergeAll] at hs ⊢
    rw [hlen]
    split at hs
    next htwo =>
      obtain ⟨u, hu, hs⟩ := andThen_eq_ok.mp hs
      obtain ⟨v, hv, huv⟩ := mergeOne_sameTree h hu
      rw [if_pos htwo, hv, andThen_ok]
      exact ih huv hs
    next hone =>
      cases hs
      rw [if_neg hone]
      exact ⟨t, rfl, h⟩

theorem Inv.node_count {s : State} (h : Inv s) (hp : s.phase = .count) : s.node = Table.fill 511 none := by
  refine Table.eq_of_get fun k hk => ?_
  have hk9 : (BitVec.ofNat 9 k).toNat = k := by simp; omega
  have hnone := h.nodeAt_count hp (BitVec.ofNat 9 k)
  rw [nodeAt_eq_get (hk9.symm ▸ hk)] at hnone
  rw [Table.get_fill]
  simpa only [hk9] using hnone

theorem freqAt_congr {s t : State} (h : s.freq = t.freq) (y : Sym) : freqAt s y = freqAt t y := by
  rw [freqAt, freqAt, h]

theorem presentSyms_congr {s t : State} (h : s.freq = t.freq) : presentSyms s = presentSyms t := by
  rw [presentSyms, presentSyms, funext (freqAt_congr h)]

theorem presentCount_congr {s t : State} (h : s.freq = t.freq) : presentCount s = presentCount t := by
  rw [presentCount_eq_length, presentCount_eq_length, presentSyms_congr h]

section
variable {s t : State} (hs : Inv s) (ht : Inv t) (hps : s.phase = .count) (hpt : t.phase = .count)
include hs ht hps hpt

/-- Nothing is built yet in phase COUNT. -/
theorem Inv.sameTree_of_count : SameTree s t := by
  obtain ⟨hk, hc, hl, -, hr, -⟩ := hs.phaseTable.1 hps
  obtain ⟨hk', hc', hl', -, hr', -⟩ := ht.phaseTable.1 hpt
  exact ⟨(ht.node_count hpt).trans (hs.node_count hps).symm, hk'.trans hk.symm, hc'.trans hc.symm, hl'.trans hl.symm,
    hr'.trans hr.symm⟩

theorem Inv.code_eq_of_count : t.code = s.code :=
  (ht.codeClear (by rw [hpt]; decide)).trans (hs.codeClear (by rw [hps]; decide)).symm

variable (hf : t.freq = s.freq)
include hf

theorem seed_sameTree {u : State} (hu : seed s = .ok u) : ∃ v, seed t = .ok v ∧ SameTree u v := by
  have hpresent := presentSyms_congr hf
  have hleaf : leafOf t = leafOf s := funext fun y => by rw [leafOf, leafOf, freqAt_congr hf]
  obtain ⟨hn, -, -, -, hr⟩ := hs.sameTree_of_count ht hps hpt
  have hplant : ∀ ys, (plant t ys).node = (plant s ys).node := fun ys => by rw [plant_node, plant_node, hn, hleaf]
  obtain ⟨-, ⟨y, hy, rfl⟩ | ⟨htwo, rfl⟩⟩ := seed_eq_ok hu
  · exact ⟨_, seed_of_one hpt (hpresent.trans hy), hplant _, rfl, rfl, rfl, rfl⟩
  · refine ⟨_, seed_of_many hpt (hpresent.symm ▸ htwo), ?_⟩
    rw [hpresent]
    exact ⟨hplant _, rfl, rfl, rfl, hr⟩

/-- Rule R114: the tree BUILD makes depends on FREQ alone. -/
theorem build_sameTree {u : State} (hu : build s = .ok u) : ∃ v, build t = .ok v ∧ SameTree u v := by
  obtain ⟨w, hw, hu⟩ := build_eq_ok.mp hu
  rw [buildStart_of_count hps] at hw
  obtain ⟨x, hx, hwx⟩ := seed_sameTree hs ht hps hpt hf hw
  have hlen : collLen x = collLen w := congrArg List.length hwx.2.2.1
  rw [build_of_seed hpt hx, hlen]
  exact mergeAll_sameTree hwx hu

end

/-! ### BUILD as a run of merges (rules R104, R106) -/

theorem mergeAll_of_one {n : Nat} {s : State} (h : collLen s ≤ 1) : mergeAll n s = .ok s := by
  cases n with
  | zero => rfl
  | succ n => rw [mergeAll, if_neg (by omega)]

theorem mergeAll_step {s t : State} (htwo : 1 < collLen s) (ht : mergeOne s = .ok t) :
    mergeAll (collLen s) s = mergeAll (collLen t) t := by
  have hlen := mergeOne_collLen ht
  conv_lhs => rw [← hlen, mergeAll, if_pos htwo, ht, andThen_ok]

/-- A forest with something left to merge is still one. -/
theorem mergeOne_forest {s t : State} (h : Inv s) (hp : s.phase = .forest) (ht : mergeOne s = .ok t)
    (hlen : 1 < collLen t) : t.phase = .forest :=
  (mergeOne_inv h hp ht).forest_of_two hlen

theorem exec_merge_eq {s t : State} (hp : s.phase = .forest) (ht : mergeOne s = .ok t) :
    exec .merge s = .next (completed t) :=
  exec_eq_completed (i := .merge) (mergeBody_eq_ok.mpr ⟨hp, ht⟩)

theorem exec_build_of_forest {s u : State} (hp : s.phase = .forest) (hu : mergeAll (collLen s) s = .ok u) :
    exec .build s = .next (completed u) :=
  exec_eq_completed (i := .build) ((build_of_forest hp).trans hu)

/-- BUILD does not look at ERR and BUSY. -/
theorem exec_build_completed {s u : State} (hp : s.phase = .forest) (hu : mergeAll (collLen s) s = .ok u) :
    exec .build (completed s) = .next (completed u) :=
  exec_build_of_forest (s := completed s) (u := completed u) hp (mergeAll_completed hu)

theorem execSeq_singleton (i : Instr) (s : State) : execSeq [i] s = exec i s := by
  rw [execSeq]
  cases exec i s <;> rfl

/-- Some merges, with at least two nodes left: BUILD goes on from where they end. -/
theorem execSeq_merges {k : Nat} {s : State} (h : Inv s) (hp : s.phase = .forest) (hk : k + 2 ≤ collLen s) :
    ∃ t, Inv t ∧ t.phase = .forest ∧ collLen t + k = collLen s ∧ exec .build t = exec .build s ∧
      ∀ is, execSeq (List.replicate k .merge ++ is) s = execSeq is t := by
  induction k generalizing s with
  | zero => exact ⟨s, h, hp, rfl, rfl, fun _ => rfl⟩
  | succ k ih =>
    obtain ⟨u, hu⟩ := mergeOne_isOk h hp
    have hlen := mergeOne_collLen hu
    have huinv := mergeOne_inv h hp hu
    have hup := mergeOne_forest h hp hu (by omega)
    obtain ⟨t, ht, htp, htlen, hbuild, hrun⟩ := ih huinv.completed hup (show k + 2 ≤ collLen u by omega)
    refine ⟨t, ht, htp, ?_, hbuild.trans ?_, fun is => ?_⟩
    · have : collLen (completed u) = collLen u := rfl
      omega
    · obtain ⟨v, hv⟩ := mergeAll_isOk (n := collLen u) huinv
      rw [exec_build_completed hup hv, exec_build_of_forest hp ((mergeAll_step (by omega) hu).trans hv)]
    · rw [List.replicate_succ, List.cons_append, execSeq_cons_of_next (exec_merge_eq hp hu), hrun]

/-- The last merge is all that BUILD does. -/
theorem exec_build_of_two {s : State} (h : Inv s) (hp : s.phase = .forest) (htwo : collLen s = 2) :
    exec .merge s = exec .build s := by
  obtain ⟨t, ht⟩ := mergeOne_isOk h hp
  have hlen := mergeOne_collLen ht
  rw [exec_merge_eq hp ht, exec_build_of_forest hp ((mergeAll_step (by omega) ht).trans (mergeAll_of_one (by omega)))]

theorem execSeq_merges_eq_build {s : State} (h : Inv s) (hp : s.phase = .forest) (htwo : 2 ≤ collLen s) :
    execSeq (List.replicate (collLen s - 1) .merge) s = exec .build s := by
  obtain ⟨t, ht, htp, hlen, hbuild, hrun⟩ := execSeq_merges (k := collLen s - 2) h hp (by omega)
  have hsplit : List.replicate (collLen s - 1) Instr.merge = List.replicate (collLen s - 2) .merge ++ [.merge] := by
    rw [← List.replicate_succ', show collLen s - 2 + 1 = collLen s - 1 by omega]
  rw [hsplit, hrun, execSeq_singleton, exec_build_of_two ht htp (by omega), hbuild]

/-- After SEED, BUILD goes on as it would have from COUNT. -/
theorem exec_build_after_seed {s t : State} (h : Inv s) (ht : seed s = .ok t) (htwo : 2 ≤ presentCount s) :
    t.phase = .forest ∧ exec .build (completed t) = exec .build s := by
  have hinv := seed_inv h ht
  have hp := (seed_eq_ok ht).1
  have htp := hinv.forest_of_two (show 1 < collLen t by rw [seed_collLen ht]; omega)
  obtain ⟨u, hu⟩ := mergeAll_isOk (n := collLen t) hinv
  refine ⟨htp, ?_⟩
  rw [exec_build_completed htp hu, exec_eq_completed (i := .build) ((build_of_seed hp ht).trans hu)]

/-! ### Depth (rules R109, R120) -/

/-- Rule R33: Internal nodes lie at or above NLEAF. -/
theorem ArenaOk.nleaf_le_internal {s : State} (h : ArenaOk s) {i l r : NodeIdx} {f : Freq}
    (hi : nodeAt s i = some (.internal l r f)) : s.nleaf.toNat ≤ i.toNat :=
  BitVec.le_def.mp (h.edgesDown i _ hi).1

/-- Every branch goes down in node index and only Internal nodes branch. -/
theorem walk_length_le {s : State} (h : ArenaOk s) {p : List Bool} {i j : NodeIdx} (hw : walk s i p = some j) :
    p.length ≤ i.toNat + 1 - s.nleaf.toNat := by
  induction p generalizing i with
  | nil => exact Nat.zero_le _
  | cons b p ih =>
    rw [walk] at hw
    split at hw
    next l r f hi =>
      obtain ⟨hl, hr⟩ := h.children_lt hi
      have hleaf := h.nleaf_le_internal hi
      have hlen := ih hw
      have hchild : (if b then r else l) < i := by cases b <;> assumption
      rw [BitVec.lt_def] at hchild
      rw [List.length_cons]
      omega
    · cases hw

/-- Visit succeeds where the levels left are enough for the Internal nodes that may lie below. -/
theorem visit_isOk {s : State} (h : ArenaOk s) {levels : Nat} {i : NodeIdx} {v : BitVec 255} {len : BitVec 8}
    {c : Table CodeEntry 256} (hi : i < s.nodeCnt) (hone : 1 ≤ levels) (hlevels : i.toNat + 2 ≤ s.nleaf.toNat + levels) :
    ∃ c', visit s levels i v len c = .ok c' := by
  induction levels generalizing i v len c with
  | zero => omega
  | succ levels ih =>
    obtain ⟨x, hx⟩ := h.exists_node hi
    rw [visit, readNodeRec_eq_ok.mpr hx, andThen_ok]
    cases x with
    | leaf y f => exact ⟨_, rfl⟩
    | internal l r f =>
      obtain ⟨hl, hr⟩ := h.children_lt hx
      have hleaf := h.nleaf_le_internal hx
      have hl' := BitVec.lt_trans hl hi
      have hr' := BitVec.lt_trans hr hi
      rw [BitVec.lt_def] at hl hr
      obtain ⟨m, hm⟩ := ih (v := 2#255 * v) (len := len + 1#8) (c := c) hl' (by omega) (by omega)
      obtain ⟨c', hc'⟩ := ih (v := 2#255 * v + 1#255) (len := len + 1#8) (c := m) hr' (by omega) (by omega)
      exact ⟨c', (congrArg (andThen · _) hm).trans hc'⟩

theorem assign_isOk {s : State} (h : Inv s) (hp : s.phase = .tree ∨ s.phase = .coded) : ∃ u, assign s = .ok u := by
  obtain ⟨hcnt, -, hroot, -, -, -⟩ := h.phaseTable.2.2.1 hp
  have hleaves := h.weights.1
  obtain ⟨c, hc⟩ := visit_isOk h.arena (levels := Config.codeLenMax + 1) (v := 0#255) (len := 0#8) (c := clearCode)
    (show s.rootIdx < s.nodeCnt by rw [BitVec.lt_def]; omega) (by decide) (by rw [Config.codeLenMax]; omega)
  exact ⟨_, assign_eq_ok.mpr ⟨c, hc, rfl⟩⟩

theorem assign_of_leaf_root {s : State} {y : Sym} {f : Freq} (h : nodeAt s s.rootIdx = some (.leaf y f)) :
    assign s = .ok { s with code := setCodeEntry clearCode y ⟨true, 0#8, 0#255⟩, phase := .coded } := by
  refine assign_eq_ok.mpr ⟨_, ?_, rfl⟩
  rw [visit, readNodeRec_eq_ok.mpr h, andThen_ok]

/-- Assign does not look at ERR and BUSY. -/
theorem assign_completed {s u : State} (h : assign s = .ok u) : assign (completed s) = .ok (completed u) := by
  obtain ⟨c, hc, rfl⟩ := assign_eq_ok.mp h
  refine assign_eq_ok.mpr ⟨c, (visit_congr ?_ _ _ _ _ _).trans hc, rfl⟩
  rfl

theorem exec_buildCode_eq {s u v : State} (hu : build s = .ok u) (hv : assign u = .ok v) :
    exec .buildCode s = .next (completed v) := by
  refine exec_eq_completed ?_
  rw [bodyOf, hu, andThen_ok, hv]

end Sys2Proof.Machine

/-! ## Codings: weights with lengths, and Kraft's inequality -/

namespace Sys2Proof.Machine

/-! ### Weights with lengths -/

/-- Weights, each with the length of its codeword. -/
abbrev Coding := Multiset (ℕ × ℕ)

/-- The weighted length of a coding. -/
def Coding.cost (P : Coding) : ℕ := (P.map fun p => p.1 * p.2).sum

/-- The Kraft sum of a coding. -/
noncomputable def Coding.kraft (P : Coding) : ℝ := (P.map fun p => (1 / 2 : ℝ) ^ p.2).sum

@[simp] theorem Coding.cost_cons (p : ℕ × ℕ) (P : Coding) : Coding.cost (p ::ₘ P) = p.1 * p.2 + Coding.cost P := by
  rw [Coding.cost, Multiset.map_cons, Multiset.sum_cons, Coding.cost]

@[simp] theorem Coding.kraft_cons (p : ℕ × ℕ) (P : Coding) :
    Coding.kraft (p ::ₘ P) = (1 / 2 : ℝ) ^ p.2 + Coding.kraft P := by
  rw [Coding.kraft, Multiset.map_cons, Multiset.sum_cons, Coding.kraft]

/-- The coding that gives the weight of `p` to a codeword of some length. -/
theorem Coding.exists_cons {P : Coding} {w : ℕ} {W : Multiset ℕ} (h : P.map Prod.fst = w ::ₘ W) :
    ∃ n Q, P = (w, n) ::ₘ Q ∧ Q.map Prod.fst = W := by
  obtain ⟨⟨w', n⟩, hp, rfl, hQ⟩ := (Multiset.map_eq_cons _ _ _ _).mpr h
  exact ⟨n, P.erase (w', n), (Multiset.cons_erase hp).symm, hQ⟩

/-- An exchange of lengths: a least weight can have a longest codeword, with the Kraft sum kept, the cost not raised and no
length above those there were. -/
theorem Coding.exists_longest {w n : ℕ} {P : Coding} (hw : ∀ p ∈ P, w ≤ p.1) :
    ∃ m Q, Multiset.map Prod.fst Q = P.map Prod.fst ∧ (∀ q ∈ Q, q.2 ≤ m) ∧
      (∀ b, n ≤ b → (∀ p ∈ P, p.2 ≤ b) → m ≤ b) ∧
      Coding.kraft ((w, m) ::ₘ Q) = Coding.kraft ((w, n) ::ₘ P) ∧
      Coding.cost ((w, m) ::ₘ Q) ≤ Coding.cost ((w, n) ::ₘ P) := by
  induction P using Multiset.induction with
  | empty => exact ⟨n, 0, rfl, by simp, fun b hb _ => hb, rfl, le_rfl⟩
  | cons p P ih =>
    obtain ⟨m, Q, hfst, hlong, hbound, hkraft, hcost⟩ := ih fun q hq => hw q (Multiset.mem_cons_of_mem hq)
    simp only [Coding.kraft_cons, Coding.cost_cons] at hkraft hcost
    rcases le_total p.2 m with hpm | hmp
    · refine ⟨m, p ::ₘ Q, by simp [hfst], ?_, ?_, ?_, ?_⟩
      · exact Multiset.forall_mem_cons.mpr ⟨hpm, hlong⟩
      · exact fun b hb hP => hbound b hb (Multiset.forall_mem_cons.mp hP).2
      · simp only [Coding.kraft_cons]
        linarith
      · simp only [Coding.cost_cons]
        omega
    · refine ⟨p.2, (p.1, m) ::ₘ Q, by simp [hfst], ?_, ?_, ?_, ?_⟩
      · exact Multiset.forall_mem_cons.mpr ⟨hmp, fun q hq => (hlong q hq).trans hmp⟩
      · exact fun b hb hP => (Multiset.forall_mem_cons.mp hP).1
      · simp only [Coding.kraft_cons]
        linarith
      · have hswap := mul_add_mul_le_mul_add_mul (hw p (Multiset.mem_cons_self p P)) hmp
        simp only [Coding.cost_cons]
        linarith

/-- Where no codeword is longer than m, the Kraft sum is a multiple of 2^-m. -/
theorem Coding.kraft_eq_div {P : Coding} {m : ℕ} (hm : ∀ p ∈ P, p.2 ≤ m) : ∃ k : ℕ, Coding.kraft P = k / 2 ^ m := by
  induction P using Multiset.induction with
  | empty => exact ⟨0, by simp [Coding.kraft]⟩
  | cons p P ih =>
    obtain ⟨hp, hP⟩ := Multiset.forall_mem_cons.mp hm
    obtain ⟨k, hk⟩ := ih hP
    refine ⟨2 ^ (m - p.2) + k, ?_⟩
    have hpow : (2 : ℝ) ^ m = 2 ^ (m - p.2) * 2 ^ p.2 := by rw [← pow_add, Nat.sub_add_cancel hp]
    rw [Coding.kraft_cons, hk, hpow, one_div_pow]
    push_cast
    field_simp

/-- Two codewords, the second of length m and the first not shorter, with all others at most as long: the Kraft sum has
room for a codeword of length m - 1 in their place. -/
theorem Coding.kraft_merge {P : Coding} {n m : ℕ} (hm : ∀ p ∈ P, p.2 ≤ m) (hmn : m ≤ n)
    (hkraft : (1 / 2 : ℝ) ^ n + ((1 / 2) ^ m + Coding.kraft P) ≤ 1) :
    1 ≤ m ∧ (1 / 2 : ℝ) ^ (m - 1) + Coding.kraft P ≤ 1 := by
  obtain ⟨k, hk⟩ := Coding.kraft_eq_div hm
  have hpos : (0 : ℝ) < 2 ^ m := by positivity
  have hn : (0 : ℝ) < 1 / 2 ^ n := by positivity
  have hroom : k + 2 ≤ 2 ^ m := by
    have hlt : ((k + 1 : ℕ) : ℝ) < ((2 ^ m : ℕ) : ℝ) := by
      rw [hk, one_div_pow, one_div_pow] at hkraft
      have : (1 + (k : ℝ)) / 2 ^ m < 1 := by rw [add_div]; linarith
      rw [div_lt_one hpos] at this
      push_cast
      linarith
    have := Nat.cast_lt.mp hlt
    omega
  have hone : 1 ≤ m := by
    by_contra hzero
    obtain rfl : m = 0 := by omega
    simp at hroom
  refine ⟨hone, ?_⟩
  obtain ⟨l, rfl⟩ : ∃ l, m = l + 1 := ⟨m - 1, by omega⟩
  calc (1 / 2 : ℝ) ^ l + Coding.kraft P
    _ = (k + 2) / 2 ^ (l + 1) := by
      rw [hk, one_div_pow, pow_succ]
      field_simp
      ring
    _ ≤ 1 := (div_le_one hpos).mpr (by exact_mod_cast hroom)

/-- The step of Huffman's theorem (rule R112): the two least weights of a coding can be joined to one whose codeword is
shorter, and this saves their sum. -/
theorem Coding.join_least {P : Coding} {a b : ℕ} {W : Multiset ℕ} (hP : P.map Prod.fst = a ::ₘ b ::ₘ W)
    (ha : ∀ w ∈ b ::ₘ W, a ≤ w) (hb : ∀ w ∈ W, b ≤ w) (hkraft : P.kraft ≤ 1) :
    ∃ Q : Coding, Q.map Prod.fst = (a + b) ::ₘ W ∧ Q.kraft ≤ 1 ∧ Q.cost + (a + b) ≤ P.cost := by
  obtain ⟨n₀, P₁, rfl, hP₁⟩ := Coding.exists_cons hP
  obtain ⟨n, P₂, hP₂, hlong, -, hk, hc⟩ := Coding.exists_longest (w := a) (n := n₀) (P := P₁)
    fun p hp => ha _ (hP₁ ▸ Multiset.mem_map_of_mem _ hp)
  obtain ⟨m₀, P₃, rfl, hP₃⟩ := Coding.exists_cons (hP₂.trans hP₁)
  obtain ⟨hm₀, hlong⟩ := Multiset.forall_mem_cons.mp hlong
  obtain ⟨m, R, hR, hlong', hle, hk', hc'⟩ := Coding.exists_longest (w := b) (n := m₀) (P := P₃)
    fun p hp => hb _ (hP₃ ▸ Multiset.mem_map_of_mem _ hp)
  have hmn : m ≤ n := hle n hm₀ hlong
  simp only [Coding.kraft_cons, Coding.cost_cons] at hk hc hk' hc' hkraft
  obtain ⟨hone, hroom⟩ := Coding.kraft_merge (n := n) hlong' hmn (by linarith)
  refine ⟨(a + b, m - 1) ::ₘ R, by simp [hR, hP₃], by simpa using hroom, ?_⟩
  have hsave : (a + b) * (m - 1) + (a + b) = a * m + b * m := by
    rw [← Nat.mul_succ, Nat.succ_eq_add_one, Nat.sub_add_cancel hone, Nat.add_mul]
  have := Nat.mul_le_mul_left a hmn
  simp only [Coding.cost_cons]
  omega

/-! ### Kraft's inequality for codewords of which none is the start of another -/

/-- Words of which none is the start of another can be told apart in a concatenation. -/
theorem uniquelyDecodable_of_prefixFree {S : Set (List Bool)} (hnil : [] ∉ S)
    (hS : ∀ u ∈ S, ∀ v ∈ S, u <+: v → u = v) :
    InformationTheory.UniquelyDecodable S := by
  intro L
  induction L with
  | nil =>
    intro L' _ h' e
    cases L' with
    | nil => rfl
    | cons v L' =>
      have : v = [] := (List.append_eq_nil_iff.mp e.symm).1
      exact absurd (this ▸ h' v List.mem_cons_self) hnil
  | cons u L ih =>
    intro L' h h' e
    obtain ⟨hu, hL⟩ := List.forall_mem_cons.mp h
    cases L' with
    | nil =>
      have : u = [] := (List.append_eq_nil_iff.mp e).1
      exact absurd (this ▸ hu) hnil
    | cons v L' =>
      obtain ⟨hv, hL'⟩ := List.forall_mem_cons.mp h'
      rw [List.flatten_cons, List.flatten_cons] at e
      have huv : u = v := by
        rcases List.prefix_or_prefix_of_prefix (List.prefix_append u L.flatten) (e ▸ List.prefix_append v L'.flatten)
          with h | h
        · exact hS u hu v hv h
        · exact (hS v hv u hu h).symm
      subst huv
      rw [ih L' hL hL' (List.append_cancel_left e)]

/-- Kraft's inequality for symbols with codewords of which none is the start of another's. -/
theorem kraft_of_prefixFree {l : List Sym} (hl : l.Nodup) {c : Sym → List Bool}
    (hc : ∀ y ∈ l, ∀ z ∈ l, y ≠ z → ¬ c y <+: c z) : (l.map fun y => (1 / 2 : ℝ) ^ (c y).length).sum ≤ 1 := by
  by_cases hnil : ∃ y ∈ l, c y = []
  · obtain ⟨y, hy, e⟩ := hnil
    have hone : l = [y] := eq_singleton_of_nodup hl fun z =>
      ⟨fun hz => by_contra fun hne => hc y hy z hz (Ne.symm hne) (e ▸ List.nil_prefix), fun hz => hz ▸ hy⟩
    simp [hone, e]
  · have hinj : Set.InjOn c {y | y ∈ l} := fun y hy z hz e =>
      by_contra fun hne => hc y hy z hz hne (e ▸ List.prefix_rfl)
    have hdecodable : InformationTheory.UniquelyDecodable
        (((l.map c).toFinset : Finset (List Bool)) : Set (List Bool)) := by
      refine uniquelyDecodable_of_prefixFree (by simpa using hnil) ?_
      simp only [List.coe_toFinset, List.mem_map, Set.mem_ofPred_eq]
      rintro _ ⟨y, hy, rfl⟩ _ ⟨z, hz, rfl⟩ h
      exact congrArg c (by_contra fun hne => hc y hy z hz hne h)
    have hnodup : (l.map c).Nodup := hl.map_on fun y hy z hz => hinj hy hz
    have := InformationTheory.kraft_mcmillan_inequality hdecodable
    rw [List.sum_toFinset _ hnodup, List.map_map] at this
    simpa [Function.comp_def] using this

end Sys2Proof.Machine

/-! ## Rules R112 and R113 of 41_tree_builder.md: weighted lengths, and Huffman's theorem -/

namespace Sys2Proof.Machine

/-! ### Sums over the arena -/

/-- The allocated node indices (rule R33). -/
def allocated (s : State) : List NodeIdx := (List.range s.nodeCnt.toNat).map (BitVec.ofNat 9)

/-- The children of node i, none for a Leaf. -/
def childrenAt (s : State) (i : NodeIdx) : List NodeIdx :=
  match nodeAt s i with
  | some (.internal l r _) => [l, r]
  | _ => []

theorem childrenAt_internal {s : State} {i l r : NodeIdx} {f : Freq} (hi : nodeAt s i = some (.internal l r f)) :
    childrenAt s i = [l, r] := by
  rw [childrenAt, hi]

theorem childrenAt_leaf {s : State} {i : NodeIdx} {y : Sym} {f : Freq} (hi : nodeAt s i = some (.leaf y f)) :
    childrenAt s i = [] := by
  rw [childrenAt, hi]

theorem mem_allocated {s : State} {i : NodeIdx} : i ∈ allocated s ↔ i < s.nodeCnt := by
  rw [allocated, List.mem_map, BitVec.lt_def]
  constructor
  · rintro ⟨k, hk, rfl⟩
    have := List.mem_range.mp hk
    have := s.nodeCnt.isLt
    rw [BitVec.toNat_ofNat]
    omega
  · intro hi
    exact ⟨i.toNat, List.mem_range.mpr hi, by simp⟩

section
variable {s : State} (h : ArenaOk s)
include h

/-- The records are those of the allocated indices, in their order. -/
theorem ArenaOk.records_eq : records s = (allocated s).filterMap (nodeAt s) := by
  have hentries : s.node.entries = (List.range 511).map fun k => nodeAt s (BitVec.ofNat 9 k) := by
    refine List.ext_getElem (by simp [s.node.size]) fun k hk _ => ?_
    have hk' : k < 511 := s.node.size ▸ hk
    have hk9 : (BitVec.ofNat 9 k).toNat = k := by simp; omega
    rw [List.getElem_map, List.getElem_range, nodeAt_eq_get (hk9.symm ▸ hk')]
    simp only [hk9, Table.get]
  have hcnt : 511 = s.nodeCnt.toNat + (511 - s.nodeCnt.toNat) := by
    have := s.nodeCnt.isLt
    omega
  have hnone : ∀ k ∈ List.range (511 - s.nodeCnt.toNat), nodeAt s (BitVec.ofNat 9 (s.nodeCnt.toNat + k)) = none := by
    intro k hk
    have := List.mem_range.mp hk
    refine h.nodeAt_eq_none ?_
    rw [BitVec.lt_def, BitVec.toNat_ofNat]
    omega
  rw [records, hentries, hcnt, List.range_add, allocated, List.filterMap_map, List.filterMap_append, List.filterMap_map,
    List.filterMap_map]
  simpa [Function.comp_def] using hnone

theorem ArenaOk.children_eq : children s = (allocated s).flatMap (childrenAt s) := by
  rw [children, h.records_eq, List.filterMap_eq_flatMap_toList, List.flatMap_assoc]
  refine List.flatMap_congr fun i _ => ?_
  rw [childrenAt]
  rcases nodeAt s i with _ | ⟨y, f⟩ | ⟨l, r, f⟩ <;> rfl

variable {M : Type} [AddCommMonoid M]

/-- A sum over the allocated nodes, by what owns them: COLL or an Internal node (rule R38). -/
theorem ArenaOk.sum_allocated (g : NodeIdx → M) :
    ((allocated s).map g).sum =
      (s.coll.map g).sum + ((allocated s).map fun i => ((childrenAt s i).map g).sum).sum := by
  have howned := (h.ownedOnce.map g).sum_eq
  rw [List.map_append, List.sum_append, h.children_eq, List.map_flatMap, List.flatMap_def, List.sum_flatten,
    List.map_map] at howned
  exact howned.symm

/-- A sum over the records, index by index. -/
theorem ArenaOk.sum_records (G : NodeRec → M) :
    ((records s).map G).sum = ((allocated s).map fun i => ((nodeAt s i).map G).getD 0).sum := by
  rw [h.records_eq]
  induction allocated s with
  | nil => rfl
  | cons i is ih =>
    rw [List.filterMap_cons, List.map_cons, List.sum_cons, ← ih]
    cases nodeAt s i with
    | none => simp
    | some r => simp

end

/-! ### Every node has one parent and one path (rule R38) -/

/-- The last branch of a path leads from an Internal node to a child of it. -/
theorem walk_concat {s : State} {i j : NodeIdx} {p : List Bool} {b : Bool} (hw : walk s i (p ++ [b]) = some j) :
    ∃ k, walk s i p = some k ∧ j ∈ childrenAt s k ∧
      ∃ l r f, nodeAt s k = some (.internal l r f) ∧ j = if b then r else l := by
  rw [walk_append, Option.bind_eq_some_iff] at hw
  obtain ⟨k, hk, hw⟩ := hw
  rw [walk] at hw
  split at hw
  next l r f e =>
    cases hw
    refine ⟨k, hk, ?_, l, r, f, e, rfl⟩
    rw [childrenAt_internal e]
    cases b <;> simp
  · cases hw

section
variable {s : State} (h : ArenaOk s)
include h

theorem ArenaOk.mem_of_mem_childrenAt {i j : NodeIdx} (hj : j ∈ childrenAt s i) : i ∈ allocated s ∧ j ∈ children s := by
  have hi : i ∈ allocated s := by
    refine mem_allocated.mpr (h.isSome_iff.mp ?_)
    rw [childrenAt] at hj
    split at hj
    next e => simp [e]
    · cases hj
  exact ⟨hi, h.children_eq ▸ List.mem_flatMap.mpr ⟨i, hi, hj⟩⟩

theorem ArenaOk.parent_unique {i k j : NodeIdx} (hi : j ∈ childrenAt s i) (hk : j ∈ childrenAt s k) : i = k := by
  have hnodup := (List.nodup_append.mp h.owned_nodup).2.1
  rw [h.children_eq, List.nodup_flatMap] at hnodup
  by_contra hne
  have hsymm : Std.Symm (fun a b => (childrenAt s a).Disjoint (childrenAt s b)) := ⟨fun a b hab => hab.symm⟩
  exact hnodup.2.forall (h.mem_of_mem_childrenAt hi).1 (h.mem_of_mem_childrenAt hk).1 hne hi hk

theorem ArenaOk.children_ne {i l r : NodeIdx} {f : Freq} (hi : nodeAt s i = some (.internal l r f)) : l ≠ r := by
  have hnodup := (List.nodup_append.mp h.owned_nodup).2.1
  rw [h.children_eq, List.nodup_flatMap] at hnodup
  have hpair := hnodup.1 i (mem_allocated.mpr (h.lt_nodeCnt hi))
  rw [childrenAt_internal hi] at hpair
  simpa using hpair

/-- The root of a finished tree is nobody's child. -/
theorem ArenaOk.root_not_child (hc : s.coll = [s.rootIdx]) (i : NodeIdx) : s.rootIdx ∉ childrenAt s i := fun hi =>
  (List.nodup_append.mp h.owned_nodup).2.2 s.rootIdx (by simp [hc]) s.rootIdx (h.mem_of_mem_childrenAt hi).2 rfl

/-- A node has one path from the root of a finished tree. -/
theorem ArenaOk.walk_unique (hc : s.coll = [s.rootIdx]) {p q : List Bool} {j : NodeIdx}
    (hp : walk s s.rootIdx p = some j) (hq : walk s s.rootIdx q = some j) : p = q := by
  induction p using List.reverseRecOn generalizing q j with
  | nil =>
    cases hp
    rcases q.eq_nil_or_concat' with rfl | ⟨q, c, rfl⟩
    · rfl
    · obtain ⟨k, -, hchild, -⟩ := walk_concat hq
      exact absurd hchild (h.root_not_child hc k)
  | append_singleton p b ih =>
    obtain ⟨k, hk, hchild, l, r, f, hnode, rfl⟩ := walk_concat hp
    rcases q.eq_nil_or_concat' with rfl | ⟨q, c, rfl⟩
    · rw [← Option.some.inj hq] at hchild
      exact absurd hchild (h.root_not_child hc k)
    · obtain ⟨k', hk', hchild', l', r', f', hnode', hbranch⟩ := walk_concat hq
      obtain rfl := h.parent_unique hchild hchild'
      cases hnode.symm.trans hnode'
      have hne := h.children_ne hnode
      have hbc : b = c := by
        cases b <;> cases c
        · rfl
        · exact absurd hbranch hne
        · exact absurd hbranch.symm hne
        · rfl
      rw [ih hk hk', hbc]

end

/-! ### Depths -/

/-- The depth of a node: the length of a path from the root (rule R120). -/
def DepthIs (s : State) (d : NodeIdx → ℕ) : Prop := ∀ p i, walk s s.rootIdx p = some i → d i = p.length

section
variable {s : State} (h : ArenaOk s) (hc : s.coll = [s.rootIdx])
include h hc

theorem exists_depths : ∃ d, DepthIs s d := by
  have hlength : ∀ i, ∃ n, ∀ p, walk s s.rootIdx p = some i → n = p.length := fun i => by
    by_cases e : ∃ p, walk s s.rootIdx p = some i
    · obtain ⟨p, hp⟩ := e
      exact ⟨p.length, fun q hq => congrArg List.length (h.walk_unique hc hp hq)⟩
    · exact ⟨0, fun q hq => absurd ⟨q, hq⟩ e⟩
  choose d hd using hlength
  exact ⟨d, fun p i => hd i p⟩

/-- A child lies one level below its parent. -/
theorem DepthIs.child {d : NodeIdx → ℕ} (hd : DepthIs s d) {i l r : NodeIdx} {f : Freq}
    (hi : nodeAt s i = some (.internal l r f)) : d l = d i + 1 ∧ d r = d i + 1 := by
  obtain ⟨p, hp⟩ := reached_from_root h hc i (h.lt_nodeCnt hi)
  have hbranch : ∀ b, walk s s.rootIdx (p ++ [b]) = some (if b then r else l) := fun b => by
    rw [walk_append, hp, Option.bind_some, walk_internal hi]
    rfl
  rw [hd p i hp]
  exact ⟨(hd _ _ (hbranch false)).trans List.length_append, (hd _ _ (hbranch true)).trans List.length_append⟩

/-- What a quantity of the nodes has at the root it has at the leaves, together with what it loses from each Internal node
to its children: every node but the root is a child once. -/
theorem root_add_sum_eq_sum_leaves {M : Type} [AddCommMonoid M] [IsRightCancelAdd M] {g lost leafTerm : NodeIdx → M}
    (hg : ∀ i ∈ allocated s, g i + lost i = leafTerm i + ((childrenAt s i).map g).sum) :
    g s.rootIdx + ((allocated s).map lost).sum = ((allocated s).map leafTerm).sum := by
  have hall := h.sum_allocated g
  have hsum := congrArg List.sum (List.map_congr_left hg)
  rw [List.sum_map_add, List.sum_map_add, hall, hc, List.map_singleton, List.sum_singleton, add_right_comm] at hsum
  exact add_right_cancel hsum

end

/-! ### The frequencies of the leaves and of the Internal nodes (rule R112) -/

/-- The sum of FREQ over the Internal nodes (rule R112). -/
def internalSum (s : State) : ℕ := ((records s).map fun r => if r.isLeaf then 0 else r.freq.toNat).sum

/-- The allocated leaves, in index order. -/
def leafRecords (s : State) : List NodeRec := (records s).filter NodeRec.isLeaf

theorem ArenaOk.internalSum_eq {s : State} (h : ArenaOk s) :
    internalSum s = ((allocated s).map fun i =>
      ((nodeAt s i).map fun r => if r.isLeaf then 0 else r.freq.toNat).getD 0).sum :=
  h.sum_records _

theorem sum_leafRecords {M : Type} [AddCommMonoid M] (s : State) (G : NodeRec → M) :
    ((leafRecords s).map G).sum = ((records s).map fun r => if r.isLeaf then G r else 0).sum := by
  rw [leafRecords]
  induction records s with
  | nil => rfl
  | cons r rs ih =>
    rw [List.filter_cons, List.map_cons, List.sum_cons, ← ih]
    split
    · simp
    · simp

section
variable {s : State} (h : ArenaOk s) (hc : s.coll = [s.rootIdx]) {d : NodeIdx → ℕ} (hd : DepthIs s d)
include h hc hd

/-- Rule R112: each Internal node counts once what its subtree's leaves count once for every level. -/
theorem internalSum_eq_sum_depths {len : Sym → ℕ}
    (hlen : ∀ i y f, nodeAt s i = some (.leaf y f) → len y = d i) :
    internalSum s = ((leafRecords s).map fun r => r.freq.toNat * len r.sym).sum := by
  have hroot : freqNat s s.rootIdx * d s.rootIdx = 0 := by rw [show d s.rootIdx = 0 from hd [] _ rfl, Nat.mul_zero]
  rw [sum_leafRecords, h.sum_records, h.internalSum_eq]
  refine Eq.trans (by rw [hroot, Nat.zero_add])
    (root_add_sum_eq_sum_leaves h hc (g := fun i => freqNat s i * d i) fun i hi => ?_)
  obtain ⟨x, hx⟩ := h.exists_node (mem_allocated.mp hi)
  cases x with
  | leaf y f => simp [hx, childrenAt_leaf hx, freqNat_eq hx, NodeRec.isLeaf, NodeRec.freq, NodeRec.sym, hlen i y f hx]
  | internal l r f =>
    obtain ⟨hl, hr⟩ := hd.child h hc hx
    have hf := h.freq_internal hx
    simp [hx, childrenAt_internal hx, freqNat_eq hx, NodeRec.isLeaf, NodeRec.freq, hl, hr, hf]
    ring

/-- Rule R125: the lengths of a finished code meet the Kraft sum with equality. -/
theorem kraft_leaves {len : Sym → ℕ} (hlen : ∀ i y f, nodeAt s i = some (.leaf y f) → len y = d i) :
    ((leafRecords s).map fun r => (1 / 2 : ℝ) ^ len r.sym).sum = 1 := by
  have hroot : d s.rootIdx = 0 := hd [] _ rfl
  rw [sum_leafRecords, h.sum_records,
    ← root_add_sum_eq_sum_leaves h hc (g := fun i => (1 / 2 : ℝ) ^ d i) (lost := fun _ => 0) ?_, hroot]
  · simp
  intro i hi
  obtain ⟨x, hx⟩ := h.exists_node (mem_allocated.mp hi)
  cases x with
  | leaf y f => simp [hx, childrenAt_leaf hx, NodeRec.isLeaf, NodeRec.sym, hlen i y f hx]
  | internal l r f =>
    obtain ⟨hl, hr⟩ := hd.child h hc hx
    simp [hx, childrenAt_internal hx, NodeRec.isLeaf, hl, hr, pow_succ]
    ring

end

/-! ### The leaves of a build are the present symbols (rule R100) -/

theorem records_seed {s t : State} (h : Inv s) (ht : seed s = .ok t) :
    (records t).Perm ((presentSyms s).map (leafOf s)) := by
  rw [records, seed_node ht]
  exact records_plant (h.nodeAt_count (seed_eq_ok ht).1) (presentSyms_length_le s)

theorem leafRecords_seed {s t : State} (h : Inv s) (ht : seed s = .ok t) :
    (leafRecords t).Perm ((presentSyms s).map (leafOf s)) := by
  refine ((records_seed h ht).filter _).trans (.of_eq (List.filter_eq_self.mpr fun r hr => ?_))
  obtain ⟨y, -, rfl⟩ := List.mem_map.mp hr
  rfl

/-- A merge adds one Internal record, with the sum of the two frequencies. -/
theorem mergeOne_records {s t : State} (h : Inv s) (ht : mergeOne s = .ok t) :
    ∃ a b c d f, FirstLeast s s.coll a c ∧ FirstLeast s c b d ∧ f.toNat = freqNat s a + freqNat s b ∧
      (records t).Perm (.internal a b f :: records s) ∧
      t.coll.map (freqNat t) = d.map (freqNat s) ++ [freqNat s a + freqNat s b] := by
  obtain ⟨a, b, c, d, ra, rb, hn, ha, hb, hra, hrb, rfl⟩ := mergeOne_firstLeast ht
  have hperm := ha.perm.trans (hb.perm.cons a)
  have hf := toNat_freq_add h.arena hperm hra hrb
  generalize ra.freq + rb.freq = f at hf ⊢
  have hnode := stopIfOne_node (joined s a b f d)
  refine ⟨a, b, c, d, f, ha, hb, hf, ?_, ?_⟩
  · rw [records, hnode]
    exact records_joined hn h.arena
  · have hfreq : freqNat (stopIfOne (joined s a b f d)) = freqNat (joined s a b f d) :=
      funext fun i => freqNat_congr (nodeAt_congr hnode i)
    have hd : ∀ i ∈ d, i < s.nodeCnt := fun i hi =>
      h.arena.lt_of_mem_coll (hperm.mem_iff.mpr (List.mem_cons_of_mem _ (List.mem_cons_of_mem _ hi)))
    have hself : freqNat (joined s a b f d) s.nodeCnt = f.toNat := freqNat_eq (nodeAt_joined_self hn)
    rw [stopIfOne_coll, hfreq, ← hf, ← hself]
    simp only [joined, List.map_append, List.map_singleton]
    exact congrArg (· ++ _) (List.map_congr_left fun i hi => freqNat_joined_of_lt (hd i hi))

theorem leafRecords_build {s u : State} (h : Inv s) (hp : s.phase = .count) (hu : build s = .ok u) :
    (leafRecords u).Perm ((presentSyms s).map (leafOf s)) := by
  obtain ⟨t, ht, hu⟩ := build_eq_ok.mp hu
  rw [buildStart_of_count hp] at ht
  refine (mergeAll_induction (R := fun v => Inv v ∧ (leafRecords v).Perm ((presentSyms s).map (leafOf s)))
    (fun v w hv htwo hm => ?_) hu ⟨seed_inv h ht, leafRecords_seed h ht⟩).2
  obtain ⟨a, b, c, d, f, -, -, -, hrecords, -⟩ := mergeOne_records hv.1 hm
  exact ⟨mergeOne_inv hv.1 (hv.1.forest_of_two htwo) hm, (hrecords.filter _).trans hv.2⟩

/-! ### Huffman's theorem (rule R112) -/

/-- What the merges have summed up so far and the cost of some coding of the collection are together no more than `n`. -/
def CodingLeft (n : ℕ) (s : State) : Prop :=
  ∃ Q : Coding, Q.map Prod.fst = (s.coll.map (freqNat s) : Multiset ℕ) ∧ Q.kraft ≤ 1 ∧ internalSum s + Q.cost ≤ n

/-- A merge joins the two least weights of the coding. -/
theorem mergeOne_codingLeft {n : ℕ} {s t : State} (h : Inv s) (hs : CodingLeft n s) (ht : mergeOne s = .ok t) :
    CodingLeft n t := by
  obtain ⟨a, b, c, d, f, ha, hb, hf, hrecords, hcoll⟩ := mergeOne_records h ht
  obtain ⟨P, hP, hkraft, hcost⟩ := hs
  have hweights : P.map Prod.fst = freqNat s a ::ₘ freqNat s b ::ₘ (d.map (freqNat s) : Multiset ℕ) :=
    hP.trans (Multiset.coe_eq_coe.mpr ((ha.perm.trans (hb.perm.cons a)).map (freqNat s)))
  have hc : freqNat s b ::ₘ (d.map (freqNat s) : Multiset ℕ) = (c.map (freqNat s) : Multiset ℕ) :=
    (Multiset.coe_eq_coe.mpr (hb.perm.map (freqNat s))).symm
  obtain ⟨Q, hQ, hkraft, hsave⟩ := Coding.join_least hweights
    (by rw [hc]; simpa using ha.least) (by simpa using hb.least) hkraft
  refine ⟨Q, ?_, hkraft, ?_⟩
  · rw [hQ, hcoll]
    exact Multiset.coe_eq_coe.mpr (List.perm_append_singleton _ _).symm
  · have hsum : internalSum t = freqNat s a + freqNat s b + internalSum s := by
      rw [internalSum, (hrecords.map _).sum_eq, List.map_cons, List.sum_cons, ← internalSum]
      exact congrArg (· + _) hf
    omega

theorem seed_weights {s t : State} (h : Inv s) (ht : seed s = .ok t) :
    t.coll.map (freqNat t) = (presentSyms s).map fun y => (freqAt s y).toNat := by
  have hnone := h.nodeAt_count (seed_eq_ok ht).1
  have hfreq : freqNat t = freqNat (plant s (presentSyms s)) :=
    funext fun i => freqNat_congr (nodeAt_congr (seed_node ht) i)
  rw [hfreq, seed_coll ht, plant_coll, List.map_map]
  refine List.ext_getElem (by simp) fun k hk hk' => ?_
  rw [List.length_map] at hk'
  simp [freqNat_plant hnone (presentSyms_length_le s) hk']

theorem internalSum_seed {s t : State} (h : Inv s) (ht : seed s = .ok t) : internalSum t = 0 := by
  rw [internalSum, (records_seed h ht).map _ |>.sum_eq, List.map_map]
  exact List.sum_eq_zero fun x hx => by
    obtain ⟨y, -, rfl⟩ := List.mem_map.mp hx
    rfl

/-- No coding of the counts of the present symbols costs less than the merges sum up. -/
theorem internalSum_le_cost {s u : State} (h : Inv s) (hp : s.phase = .count) (hu : build s = .ok u) {P : Coding}
    (hP : P.map Prod.fst = ((presentSyms s).map fun y => (freqAt s y).toNat : Multiset ℕ)) (hkraft : P.kraft ≤ 1) :
    internalSum u ≤ P.cost := by
  obtain ⟨t, ht, hu⟩ := build_eq_ok.mp hu
  rw [buildStart_of_count hp] at ht
  have hstart : CodingLeft P.cost t :=
    ⟨P, by rw [hP, seed_weights h ht], hkraft, by rw [internalSum_seed h ht, Nat.zero_add]⟩
  obtain ⟨-, Q, -, -, hcost⟩ := mergeAll_induction (R := fun v => Inv v ∧ CodingLeft P.cost v)
    (fun v w hv htwo hm => ⟨mergeOne_inv hv.1 (hv.1.forest_of_two htwo) hm, mergeOne_codingLeft hv.1 hv.2 hm⟩) hu
    ⟨seed_inv h ht, hstart⟩
  omega

/-! ### The code of a build -/

theorem exec_buildCode_code {s t : State} (ht : exec .buildCode s = .next t) (hok : t.err = .ok) :
    ∃ u, build s = .ok u ∧ visit u (Config.codeLenMax + 1) u.rootIdx 0#255 0#8 clearCode = .ok t.code ∧
      t.node = u.node := by
  obtain ⟨v, hv, rfl⟩ := exec_next_of_ok ht hok
  obtain ⟨u, hu, hv⟩ := andThen_eq_ok.mp hv
  obtain ⟨c, hc, rfl⟩ := assign_eq_ok.mp hv
  exact ⟨u, hu, hc, rfl⟩

/-- LEN of a leaf's symbol is the leaf's depth (rule R120). -/
theorem assigned_len {s : State} {c : Table CodeEntry 256} (h : ArenaOk s) (hc : s.coll = [s.rootIdx])
    (hv : visit s (Config.codeLenMax + 1) s.rootIdx 0#255 0#8 clearCode = .ok c) {d : NodeIdx → ℕ} (hd : DepthIs s d)
    {i : NodeIdx} {y : Sym} {f : Freq} (hi : nodeAt s i = some (.leaf y f)) : (entryOf c y).len.toNat = d i := by
  have hvalid := (assigned_valid_iff h hc hv y).mpr (mem_leafSyms.mpr ⟨i, f, hi⟩)
  rcases assigned_entry hv y with e | ⟨p, j, g, hw, hj, hp, e⟩
  · rw [e] at hvalid
    cases hvalid
  · obtain rfl := h.leaf_unique hi hj
    rw [e, hd p i hw, BitVec.toNat_ofNat, Nat.mod_eq_of_lt (by omega)]

/-- A sum over the leaves of a build is one over the present symbols. -/
theorem sum_leafRecords_build {M : Type} [AddCommMonoid M] {s u : State} (h : Inv s) (hp : s.phase = .count)
    (hu : build s = .ok u) (G : NodeRec → M) :
    ((leafRecords u).map G).sum = ((presentSyms s).map fun y => G (leafOf s y)).sum := by
  rw [((leafRecords_build h hp hu).map G).sum_eq, List.map_map]
  rfl

theorem leafOf_freq_toNat (s : State) (y : Sym) : (leafOf s y).freq.toNat = (freqAt s y).toNat := by
  have := (freqAt s y).isLt
  rw [leafOf, NodeRec.freq, BitVec.toNat_setWidth]
  omega

section
variable {s t : State} (h : Inv s) (hp : s.phase = .count) (ht : exec .buildCode s = .next t) (hok : t.err = .ok)
include h hp ht hok

/-- The code of a build: its weighted length is the Internal sum of its tree, and its lengths meet the Kraft sum. -/
theorem buildCode_lengths :
    ∃ u, build s = .ok u ∧ t.node = u.node ∧ weightedLength s (fun y => (codeAt t y).len.toNat) = internalSum u ∧
      ((presentSyms s).map fun y => (1 / 2 : ℝ) ^ (codeAt t y).len.toNat).sum = 1 := by
  obtain ⟨u, hu, hv, hnode⟩ := exec_buildCode_code ht hok
  have hinv := build_inv h hu
  have hc := (hinv.phaseTable.2.2.1 (.inl (build_phase h hu))).2.1
  obtain ⟨d, hd⟩ := exists_depths hinv.arena hc
  have hlen : ∀ i y f, nodeAt u i = some (.leaf y f) → (codeAt t y).len.toNat = d i :=
    fun i y f hi => assigned_len hinv.arena hc hv hd hi
  refine ⟨u, hu, hnode, ?_, ?_⟩
  · rw [internalSum_eq_sum_depths hinv.arena hc hd hlen, sum_leafRecords_build h hp hu, weightedLength]
    simp only [leafOf_freq_toNat]
    rfl
  · exact (sum_leafRecords_build h hp hu fun r => (1 / 2 : ℝ) ^ (codeAt t r.sym).len.toNat).symm.trans
      (kraft_leaves hinv.arena hc hd hlen)

/-- Huffman's theorem for every coding of the counts that meets Kraft's inequality. -/
theorem weightedLength_le_cost {P : Coding}
    (hP : P.map Prod.fst = ((presentSyms s).map fun y => (freqAt s y).toNat : Multiset ℕ)) (hkraft : P.kraft ≤ 1) :
    weightedLength s (fun y => (codeAt t y).len.toNat) ≤ P.cost := by
  obtain ⟨u, hu, -, hweight, -⟩ := buildCode_lengths h hp ht hok
  exact hweight ▸ internalSum_le_cost h hp hu hP hkraft

end

/-- The coding that gives the present symbols these lengths. -/
def codingOf (s : State) (ys : List Sym) (len : Sym → ℕ) : Coding := ys.map fun y => ((freqAt s y).toNat, len y)

theorem codingOf_fst (s : State) (ys : List Sym) (len : Sym → ℕ) :
    (codingOf s ys len).map Prod.fst = (ys.map fun y => (freqAt s y).toNat : Multiset ℕ) := by
  simp [codingOf, Function.comp_def]

theorem codingOf_kraft (s : State) (ys : List Sym) (len : Sym → ℕ) :
    (codingOf s ys len).kraft = (ys.map fun y => (1 / 2 : ℝ) ^ len y).sum := by
  simp [codingOf, Coding.kraft, Function.comp_def]

theorem codingOf_cost (s : State) (ys : List Sym) (len : Sym → ℕ) :
    (codingOf s ys len).cost = (ys.map fun y => (freqAt s y).toNat * len y).sum := by
  simp [codingOf, Coding.cost, Function.comp_def]

/-- Two present symbols, and the others. -/
theorem presentSyms_perm_cons_cons {s : State} {a b : Sym} (ha : freqAt s a ≠ 0#32) (hb : freqAt s b ≠ 0#32)
    (hne : a ≠ b) : ∃ ys, (presentSyms s).Perm (a :: b :: ys) := by
  have hperm := List.perm_cons_erase (mem_presentSyms.mpr ha)
  have hb := List.perm_cons_erase ((List.mem_erase_of_ne hne.symm).mpr (mem_presentSyms.mpr hb))
  exact ⟨_, hperm.trans (hb.cons a)⟩

/-- Two symbols whose lengths are exchanged: the Kraft sum stays, so the coding costs no less than the code. -/
theorem exchange_lengths {s t : State} (h : Inv s) (hp : s.phase = .count) (ht : exec .buildCode s = .next t)
    (hok : t.err = .ok) {a b : Sym} (ha : freqAt s a ≠ 0#32) (hb : freqAt s b ≠ 0#32) (hne : a ≠ b) :
    (freqAt s a).toNat * (codeAt t a).len.toNat + (freqAt s b).toNat * (codeAt t b).len.toNat ≤
      (freqAt s a).toNat * (codeAt t b).len.toNat + (freqAt s b).toNat * (codeAt t a).len.toNat := by
  obtain ⟨-, -, -, -, hkraft⟩ := buildCode_lengths h hp ht hok
  obtain ⟨ys, hys⟩ := presentSyms_perm_cons_cons ha hb hne
  have hcost := weightedLength_le_cost h hp ht hok
    (P := ((freqAt s a).toNat, (codeAt t b).len.toNat) ::ₘ ((freqAt s b).toNat, (codeAt t a).len.toNat) ::ₘ
      codingOf s ys fun y => (codeAt t y).len.toNat) ?_ ?_
  · rw [weightedLength, (hys.map _).sum_eq, Coding.cost_cons, Coding.cost_cons, codingOf_cost] at hcost
    simp only [List.map_cons, List.sum_cons] at hcost
    omega
  · rw [Multiset.map_cons, Multiset.map_cons, codingOf_fst]
    exact Multiset.coe_eq_coe.mpr (hys.map fun y => (freqAt s y).toNat).symm
  · rw [(hys.map _).sum_eq, List.map_cons, List.map_cons, List.sum_cons, List.sum_cons] at hkraft
    rw [Coding.kraft_cons, Coding.kraft_cons, codingOf_kraft]
    linarith

end Sys2Proof.Machine

/-! ## The obligations of 41_tree_builder.md -/

namespace Sys2Proof.Machine

/-- Settles O9: Seed's guard on the present symbols, which BUILD and BUILD_CODE meet first. -/
theorem emptyAlphabetIsAFailure : Obligations.EmptyAlphabetIsAFailure := by
  unfold Obligations.EmptyAlphabetIsAFailure
  intro i s hi hp hzero
  have hnone : presentSyms s = [] :=
    List.eq_nil_iff_forall_not_mem.mpr fun y hy => mem_presentSyms.mp hy (hzero y)
  rcases hi with rfl | rfl | rfl
  · exact exec_of_cmdError (seed_of_none hp hnone)
  · exact exec_of_cmdError (build_of_none hp hnone)
  · exact exec_buildCode_of_cmdError (build_of_none hp hnone)

/-- Settles O18: the scan's result, read at the nodes of the collection. -/
theorem selectMinIsTheFirstSmallest : Obligations.SelectMinIsTheFirstSmallest := by
  unfold Obligations.SelectMinIsTheFirstSmallest
  intro s is hne hsome
  obtain ⟨k, hk⟩ := selectMin_isOk hne hsome
  obtain ⟨a, ha, hall, hbefore⟩ := selectMin_spec hk
  exact ⟨k, a, hk, ha, hall, hbefore⟩

/-- Settles O16: the leaf of y is written at its rank, and the slots above the leaves are not written. -/
theorem seedMakesOneLeafPerPresentSymbol : Obligations.SeedMakesOneLeafPerPresentSymbol := by
  unfold Obligations.SeedMakesOneLeafPerPresentSymbol
  refine ⟨decode_encode .seed, fun s => ⟨fun hp => exec_of_cmdError (if_pos hp), fun hp hnone => ?_, fun hp hone => ?_⟩⟩
  · exact exec_of_cmdError (seed_of_none hp (presentSyms_eq_nil hnone))
  obtain ⟨u, hu⟩ := seed_isOk hp hone
  obtain ⟨hcoll, hcnt, hleaf⟩ := seed_sizes hu
  have hfreq := freqAt_of_freqZero (seed_freq hu)
  have htree := seed_root_of_one hu
  have hforest := seed_root_of_many hu
  exact ⟨completed u, exec_eq_completed hu, fun _ => seed_leaf hu, fun _ => seed_above hu, hcoll, hcnt, hleaf, hfreq,
    htree, hforest, congrArg completed (seed_builderOnly hu)⟩

/-- Settles O17: a collection of one node has nothing to merge, and Visit writes the leaf at the root. -/
theorem oneSymbolGetsTheEmptyCodeword : Obligations.OneSymbolGetsTheEmptyCodeword := by
  unfold Obligations.OneSymbolGetsTheEmptyCodeword
  intro s y hp hy hz
  have hys := presentSyms_singleton hy hz
  have hseed := seed_of_one hp hys
  have hbuild := (build_of_seed hp hseed).trans (mergeAll_of_one (Nat.le_refl 1))
  have hnode : nodeAt (becomeTree (plant s [y]) 0#9) 0#9 = some (leafOf s y) := nodeAt_plant_of_lt s (by decide) rfl
  constructor
  · exact ⟨_, exec_eq_completed (i := .seed) hseed, hnode, rfl, rfl, rfl, rfl, rfl,
      exec_eq_completed (i := .build) hbuild⟩
  · have hassign := assign_of_leaf_root hnode
    refine ⟨_, exec_buildCode_eq hbuild hassign, rfl, rfl, codeEntry_set_self _ _ _, fun z hne => ?_⟩
    exact (codeEntry_set_ne _ _ _ _ hne).trans (clearCode_entry z)

/-- Settles O19: what the two extractions give, their sum, which does not wrap, and the test for the last merge. -/
theorem mergeJoinsTheTwoLeast : Obligations.MergeJoinsTheTwoLeast := by
  unfold Obligations.MergeJoinsTheTwoLeast
  refine ⟨decode_encode .merge, fun s hp => exec_of_cmdError (if_pos hp), fun s h hp => ?_⟩
  obtain ⟨t, ht⟩ := mergeOne_isOk h hp
  obtain ⟨a, b, c, d, ra, rb, hn, ha, hb, hra, hrb, rfl⟩ := mergeOne_firstLeast ht
  have hf := toNat_freq_add h.arena (ha.perm.trans (hb.perm.cons a)) hra hrb
  generalize ra.freq + rb.freq = f at hf ht ⊢
  have hnode := stopIfOne_node (joined s a b f d)
  refine ⟨_, a, b, c, d, f, exec_merge_eq hp ht, ha, hb, ?_, hf, fun i hi => ?_, ?_, ?_, ?_, ?_, ?_⟩
  · exact (nodeAt_congr hnode s.nodeCnt).trans (nodeAt_joined_self hn)
  · exact (nodeAt_congr hnode i).trans (nodeAt_joined_ne hi)
  · exact (congrArg BitVec.toNat (stopIfOne_nodeCnt _)).trans (nodeCnt_joined hn)
  · exact stopIfOne_coll _
  · rintro rfl
    exact ⟨rfl, rfl, rfl, rfl⟩
  · intro hd
    obtain ⟨x, d, rfl⟩ := List.exists_cons_of_ne_nil hd
    rw [stopIfOne_joined_cons]
    exact ⟨hp, rfl, rfl, rfl⟩
  · rcases stopIfOne_eq (joined s a b f d) with e | ⟨i, -, e⟩ <;> rw [e] <;> rfl

/-- Settles O20: the loop ends with one node in the collection, and the invariant's row TREE gives the counts. -/
theorem buildFinishesTheTree : Obligations.BuildFinishesTheTree := by
  unfold Obligations.BuildFinishesTheTree
  refine ⟨decode_encode .build, fun s hp => exec_of_cmdError (build_of_finished hp),
    fun s hp hnone => exec_of_cmdError (build_of_none hp (presentSyms_eq_nil hnone)), fun s h hb => ?_⟩
  obtain ⟨u, hu⟩ := build_isOk h hb
  have htree := build_phase h hu
  obtain ⟨hcnt, hcoll, hroot, hone, hvalid, hfreq⟩ := (build_inv h hu).phaseTable.2.2.1 (.inl htree)
  have hzero := freqAt_of_freqZero hfreq
  have hkept := build_recordsKept h hu
  refine ⟨completed u, exec_eq_completed hu, htree, hvalid, hcoll, ?_, fun hp => ?_, fun hp => ?_, ?_, ?_, hzero, hkept,
    congrArg completed (build_builderOnly hu)⟩
  · exact (build_decCur h hu : u.decCur = u.rootIdx)
  · obtain ⟨t, ht⟩ := seed_isOk hp (by simpa [hp] using hb)
    exact (congrArg BitVec.toNat (mergeAll_nleaf ((build_of_seed hp ht).symm.trans hu))).trans (seed_sizes ht).2.2
  · exact (mergeAll_nleaf ((build_of_forest hp).symm.trans hu) : u.nleaf = s.nleaf)
  · show u.nodeCnt.toNat = 2 * u.nleaf.toNat - 1
    omega
  · show u.rootIdx.toNat = 2 * u.nleaf.toNat - 2
    omega

/-- Settles O21: a merge is one round of BUILD's loop, whose bound it lowers by one. -/
theorem buildIsSeedAndMerges : Obligations.BuildIsSeedAndMerges := by
  unfold Obligations.BuildIsSeedAndMerges
  constructor
  · intro s h hp hone
    obtain ⟨t, ht⟩ := seed_isOk hp hone
    have hlen := seed_collLen ht
    have hrun := execSeq_cons_of_next (exec_eq_completed (i := .seed) ht)
    refine ⟨?_, fun htwo => ?_⟩
    · rw [hrun]
      rcases hone.eq_or_lt with hone | htwo
      · rw [← hone]
        exact (exec_eq_completed (i := .build) ((build_of_seed hp ht).trans (mergeAll_of_one (by omega)))).symm
      · obtain ⟨htp, hbuild⟩ := exec_build_after_seed h ht htwo
        have hmerges := execSeq_merges_eq_build (seed_inv h ht).completed htp (show 2 ≤ collLen t by omega)
        rw [← hbuild, ← hmerges, ← hlen]
        rfl
    · rw [hrun, execSeq_singleton]
      exact (exec_build_after_seed h ht htwo).2
  · intro s h hp
    have htwo := (h.phaseTable.2.1 hp).2.1
    refine ⟨execSeq_merges_eq_build h hp htwo, fun k hk => ?_⟩
    obtain ⟨t, -, -, -, hbuild, hrun⟩ := execSeq_merges h hp hk
    rw [hrun, execSeq_singleton, hbuild]

/-- Settles O22: both run Build and then Assign, which does not look at ERR and BUSY. -/
theorem buildCodeIsBuildThenAssign : Obligations.BuildCodeIsBuildThenAssign := by
  unfold Obligations.BuildCodeIsBuildThenAssign
  refine ⟨decode_encode .buildCode, fun s hp => exec_buildCode_of_cmdError (build_of_finished hp),
    fun s hp hnone => exec_buildCode_of_cmdError (build_of_none hp (presentSyms_eq_nil hnone)), fun s h hb => ?_⟩
  obtain ⟨u, hu⟩ := build_isOk h hb
  have htree := build_phase h hu
  obtain ⟨v, hv⟩ := assign_isOk (build_inv h hu) (.inl htree)
  have hexec := exec_buildCode_eq hu hv
  constructor
  · have hassign : bodyOf .assign (completed u) = .ok (completed v) :=
      assignBody_eq_ok.mpr ⟨.inl htree, assign_completed hv⟩
    rw [hexec, execSeq_cons_of_next (exec_eq_completed (i := .build) hu), execSeq_singleton, exec_eq_completed hassign]
    rfl
  · obtain ⟨c, -, rfl⟩ := assign_eq_ok.mp hv
    exact ⟨_, hexec, rfl, congrArg (fun w => completed { w with code := c, phase := .coded }) (build_builderOnly hu)⟩

/-- Settles O23: every node but the root is a child once, so FREQ times depth telescopes from the root to the leaves. -/
theorem weightedLengthIsTheInternalSum : Obligations.WeightedLengthIsTheInternalSum := by
  unfold Obligations.WeightedLengthIsTheInternalSum
  intro s t h hp ht hok
  obtain ⟨u, -, hnode, hweight, -⟩ := buildCode_lengths h hp ht hok
  rw [hweight, internalSum, records, records, hnode]

/-- Settles O24: the lengths of the assignment meet Kraft's inequality, and each merge joins the two least weights of what
coding is left. -/
theorem codeIsOptimal : Obligations.CodeIsOptimal := by
  unfold Obligations.CodeIsOptimal
  intro s t c h hp ht hok hc
  have hkraft := kraft_of_prefixFree (presentSyms_nodup s) (c := c) fun y hy z hz =>
    hc y z (mem_presentSyms.mp hy) (mem_presentSyms.mp hz)
  have hcost := weightedLength_le_cost h hp ht hok (codingOf_fst s (presentSyms s) fun y => (c y).length)
    (by rwa [codingOf_kraft])
  rwa [codingOf_cost] at hcost

/-- Settles O25: with the lengths of the two symbols exchanged, the code would cost less than the least. -/
theorem moreFrequentIsNotLonger : Obligations.MoreFrequentIsNotLonger := by
  unfold Obligations.MoreFrequentIsNotLonger
  intro s t a b h hp ht hok hb hlt
  have hne : a ≠ b := fun e => BitVec.lt_irrefl _ (e ▸ hlt)
  have ha : freqAt s a ≠ 0#32 := fun e => by simp [e, BitVec.lt_def] at hlt
  have hcost := exchange_lengths h hp ht hok ha hb hne
  rw [BitVec.lt_def] at hlt
  rw [BitVec.le_def]
  by_contra hlonger
  nlinarith

/-- Settles O26: SEED reads FREQ alone, and merging and Visit the tree alone. -/
theorem buildDependsOnlyOnTheTable : Obligations.BuildDependsOnlyOnTheTable := by
  unfold Obligations.BuildDependsOnlyOnTheTable
  intro s t s' t' hs ht hps hpt hf hs' ht'
  by_cases hnone : presentCount s = 0
  · have hnone' : presentCount t = 0 := by rw [← hnone, presentCount_congr hf]
    rw [exec_buildCode_of_cmdError (build_of_none hps (presentSyms_eq_nil hnone))] at hs'
    rw [exec_buildCode_of_cmdError (build_of_none hpt (presentSyms_eq_nil hnone'))] at ht'
    cases hs'
    cases ht'
    obtain ⟨hn, hk, hc, hl, hr⟩ := hs.sameTree_of_count ht hps hpt
    exact ⟨hn.symm, hc.symm, (hs.code_eq_of_count ht hps hpt).symm, hk.symm, hl.symm, hr.symm, rfl⟩
  · obtain ⟨u, hu⟩ := build_isOk hs (.inl ⟨hps, by omega⟩)
    obtain ⟨v, hv, hn, hk, hc, hl, hr⟩ := build_sameTree hs ht hps hpt hf.symm hu
    obtain ⟨w, hw⟩ := assign_isOk (build_inv hs hu) (.inl (build_phase hs hu))
    obtain ⟨c, hcode, rfl⟩ := assign_eq_ok.mp hw
    have hw' : assign v = .ok { v with code := c, phase := .coded } :=
      assign_eq_ok.mpr ⟨c, by rw [visit_congr hn, hr, hcode], rfl⟩
    rw [exec_buildCode_eq hu hw] at hs'
    rw [exec_buildCode_eq hv hw'] at ht'
    cases hs'
    cases ht'
    exact ⟨hn.symm, hc.symm, rfl, hk.symm, hl.symm, hr.symm, rfl⟩

/-- Settles O48: the invariant's counts, and one Internal node of its own for each branch of a path. -/
theorem treeIsBounded : Obligations.TreeIsBounded := by
  unfold Obligations.TreeIsBounded
  intro s hs
  have h := hs.inv
  obtain ⟨hcount, hforest, hdone, -, -⟩ := h.phaseTable
  refine ⟨?_, h.weights.1, fun hp => ?_⟩
  · cases hp : s.phase with
    | count => simp [(hcount hp).2.1]
    | forest => exact (hforest hp).2.2.1
    | tree =>
      obtain ⟨-, hcoll, -, hone, -, -⟩ := hdone (.inl hp)
      simpa [hcoll] using hone
    | coded =>
      obtain ⟨-, hcoll, -, hone, -, -⟩ := hdone (.inr hp)
      simpa [hcoll] using hone
  · obtain ⟨hcnt, -, hroot, hone, -, -⟩ := hdone hp
    refine ⟨by omega, by omega, fun p i y f hw _ => ?_⟩
    have := walk_length_le h.arena hw
    omega

/-- Settles O49: COLL is sorted, so the nodes after the first least one have greater indices. -/
theorem collectionOrderIsIndexOrder : Obligations.CollectionOrderIsIndexOrder := by
  unfold Obligations.CollectionOrderIsIndexOrder
  intro s hs
  have h := hs.inv.arena
  refine ⟨h.collSorted, fun k a hk ha b hb hne => ?_, fun i j y f l r g hi hj => ?_⟩
  · obtain ⟨a', ha', hall, hbefore⟩ := selectMin_spec hk
    obtain rfl : a = a' := Option.some.inj (ha.symm.trans ha')
    obtain ⟨hlt, hka⟩ := List.getElem?_eq_some_iff.mp ha
    obtain ⟨j, hj, hjb⟩ := List.mem_iff_getElem.mp hb
    rcases Nat.lt_trichotomy j k with hjk | rfl | hkj
    · exact .inl (hbefore j b hjk (List.getElem?_eq_some_iff.mpr ⟨hj, hjb⟩))
    · exact absurd (hjb.symm.trans hka) hne
    · have hab : a < b := by
        rw [← hka, ← hjb]
        exact List.pairwise_iff_getElem.mp h.collSorted k j hlt hj hkj
      exact (hall b hb).lt_or_eq.imp_right fun e => ⟨e, hab⟩
  · exact BitVec.lt_def.mpr ((BitVec.lt_def.mp (h.edgesDown i _ hi)).trans_le (h.nleaf_le_internal hj))

end Sys2Proof.Machine

/-! ## Rules of 42_code_assigner.md: a codeword is the path to its leaf -/

namespace Sys2Proof.Machine

/-! ### The bit string of an entry (rules R13, R120) -/

theorem pathVal_concat (p : List Bool) (b : Bool) : pathVal (p ++ [b]) = Nat.bit b (pathVal p) := by
  rw [pathVal, List.foldl_append, ← pathVal]
  cases b <;> rfl

/-- The bits of a path's value, from the top one down, are its branches. -/
theorem map_testBit_pathVal (p : List Bool) :
    ((List.range p.length).map fun k => (pathVal p).testBit (p.length - 1 - k)) = p := by
  induction p using List.reverseRecOn with
  | nil => rfl
  | append_singleton p b ih =>
    rw [List.length_append, List.length_singleton, List.range_succ, List.map_append, pathVal_concat]
    congr 1
    · refine Eq.trans (List.map_congr_left fun k hk => ?_) ih
      have hk := List.mem_range.mp hk
      rw [show p.length + 1 - 1 - k = (p.length - 1 - k) + 1 by omega, Nat.testBit_bit_succ]
    · simp

theorem codeBits_path {p : List Bool} (hp : p.length ≤ 255) :
    codeBits ⟨true, BitVec.ofNat 8 p.length, BitVec.ofNat 255 (pathVal p)⟩ = p := by
  have hlen : (BitVec.ofNat 8 p.length).toNat = p.length := by
    rw [BitVec.toNat_ofNat]
    omega
  simp only [codeBits, hlen]
  refine Eq.trans (List.map_congr_left fun k hk => ?_) (map_testBit_pathVal p)
  have hk := List.mem_range.mp hk
  rw [BitVec.getLsbD_ofNat, decide_eq_true (by omega), Bool.true_and]

/-! ### Codewords in the tree (rules R120, R123) -/

theorem Inv.coll_eq_root {s : State} (h : Inv s) (hp : s.phase = .tree ∨ s.phase = .coded) : s.coll = [s.rootIdx] := by
  obtain ⟨-, -, hdone, -, -⟩ := h.phaseTable
  exact (hdone hp).2.1

/-- Assign gives a leaf the path that leads to it. -/
theorem assigned_of_walk {s : State} {c : Table CodeEntry 256} (h : ArenaOk s) (hc : s.coll = [s.rootIdx])
    (hv : visit s (Config.codeLenMax + 1) s.rootIdx 0#255 0#8 clearCode = .ok c) {p : List Bool} {i : NodeIdx} {y : Sym}
    {f : Freq} (hw : walk s s.rootIdx p = some i) (hi : nodeAt s i = some (.leaf y f)) :
    p.length ≤ 255 ∧ entryOf c y = ⟨true, BitVec.ofNat 8 p.length, BitVec.ofNat 255 (pathVal p)⟩ := by
  have hvalid := visit_reaches (n := 0) (v := 0) hv hw hi
  rcases assigned_entry hv y with e | ⟨q, j, g, hq, hj, hlen, e⟩
  · rw [e] at hvalid
    cases hvalid
  · obtain rfl := h.leaf_unique hi hj
    obtain rfl := h.walk_unique hc hw hq
    exact ⟨hlen, e⟩

/-- In phase CODED the codeword of a valid symbol leads from the root to the symbol's leaf. -/
theorem Inv.walk_codeBits {s : State} (h : Inv s) (hp : s.phase = .coded) {y : Sym} (hy : (codeAt s y).valid = true) :
    ∃ i f, walk s s.rootIdx (codeBits (codeAt s y)) = some i ∧ nodeAt s i = some (.leaf y f) := by
  rcases assigned_entry (h.coded hp) y with e | ⟨p, i, f, hw, hi, hlen, e⟩
  · rw [show codeAt s y = _ from e] at hy
    cases hy
  · rw [show codeAt s y = _ from e, codeBits_path hlen]
    exact ⟨i, f, hw, hi⟩

/-- A path does not go on past a leaf. -/
theorem walk_eq_of_prefix {s : State} {i j k : NodeIdx} {y : Sym} {f : Freq} {p q : List Bool} (hpq : p <+: q)
    (hp : walk s i p = some j) (hj : nodeAt s j = some (.leaf y f)) (hq : walk s i q = some k) : j = k := by
  obtain ⟨r, rfl⟩ := hpq
  rw [walk_append, hp, Option.bind_some] at hq
  cases r with
  | nil => exact Option.some.inj hq
  | cons b r =>
    rw [walk_leaf hj] at hq
    cases hq

/-! ### The Kraft sum in whole numbers (rule R125) -/

theorem mem_allSyms (y : Sym) : y ∈ allSyms := List.mem_map.mpr ⟨y.toNat, List.mem_range.mpr y.isLt, by simp⟩

theorem leafSyms_eq_map (s : State) : leafSyms s = (leafRecords s).map NodeRec.sym := by
  rw [leafSyms, leafRecords]
  induction records s with
  | nil => rfl
  | cons r rs ih =>
    cases r with
    | leaf y f => exact congrArg (y :: ·) ih
    | internal l r f => exact ih

/-- In phase CODED the valid symbols are those of the leaves (rule R42). -/
theorem Inv.validSyms_perm {s : State} (h : Inv s) (hp : s.phase = .coded) :
    (allSyms.filter fun y => (codeAt s y).valid).Perm (leafSyms s) := by
  have hnodup : allSyms.Nodup := allSyms_sorted.imp BitVec.ne_of_lt
  obtain ⟨-, -, -, -, hvalid⟩ := h.phaseTable
  refine (List.perm_ext_iff_of_nodup (hnodup.filter _) h.symsUnique).mpr fun y => ?_
  rw [List.mem_filter, hvalid hp y, decide_eq_true_iff, and_iff_right (mem_allSyms y)]

/-- A sum of the powers of one half that is 1, in units of the m-th power. -/
theorem sum_two_pow_sub {α : Type} {l : List α} {len : α → ℕ} {m : ℕ} (hlen : ∀ y ∈ l, len y ≤ m)
    (h : (l.map fun y => (1 / 2 : ℝ) ^ len y).sum = 1) : (l.map fun y => 2 ^ (m - len y)).sum = 2 ^ m := by
  have hterm : ∀ y ∈ l, ((2 ^ (m - len y) : ℕ) : ℝ) = 2 ^ m * (1 / 2) ^ len y := fun y hy => by
    rw [Nat.cast_pow, Nat.cast_ofNat, pow_sub₀ _ two_ne_zero (hlen y hy), one_div, inv_pow]
  have hsum : (((l.map fun y => 2 ^ (m - len y)).sum : ℕ) : ℝ) = 2 ^ m := by
    calc (((l.map fun y => 2 ^ (m - len y)).sum : ℕ) : ℝ)
      _ = (l.map fun y => 2 ^ m * (1 / 2) ^ len y).sum := by
        rw [Nat.cast_list_sum, List.map_map]
        exact congrArg List.sum (List.map_congr_left hterm)
      _ = 2 ^ m := by rw [List.sum_map_mul_left, h, mul_one]
  exact_mod_cast hsum

/-! ### The symbols of the leaves, from SEED to CLEAR (rule R124) -/

theorem leafSyms_congr {s t : State} (h : t.node = s.node) : leafSyms t = leafSyms s := by
  rw [leafSyms, leafSyms, records, records, h]

theorem Inv.leafSyms_count {s : State} (h : Inv s) (hp : s.phase = .count) : leafSyms s = [] :=
  List.eq_nil_iff_forall_not_mem.mpr fun y hy => by
    obtain ⟨i, f, hi⟩ := mem_leafSyms.mp hy
    rw [h.nodeAt_count hp] at hi
    cases hi

theorem mergeOne_leafSyms {s t : State} (h : Inv s) (ht : mergeOne s = .ok t) : (leafSyms t).Perm (leafSyms s) := by
  obtain ⟨a, b, c, d, f, -, -, -, hrecords, -⟩ := mergeOne_records h ht
  exact leafSyms_of_internal hrecords

theorem mergeAll_leafSyms {n : Nat} {s t : State} (h : Inv s) (ht : mergeAll n s = .ok t) :
    (leafSyms t).Perm (leafSyms s) :=
  (mergeAll_induction (R := fun t => Inv t ∧ (leafSyms t).Perm (leafSyms s))
    (fun _ _ hs htwo hm =>
      ⟨mergeOne_inv hs.1 (hs.1.forest_of_two htwo) hm, (mergeOne_leafSyms hs.1 hm).trans hs.2⟩) ht ⟨h, .refl _⟩).2

theorem build_leafSyms_count {s u : State} (h : Inv s) (hp : s.phase = .count) (hu : build s = .ok u) :
    (leafSyms u).Perm (presentSyms s) := by
  obtain ⟨t, ht, hu⟩ := build_eq_ok.mp hu
  have hmerged := mergeAll_leafSyms (buildStart_inv h ht) hu
  rw [buildStart_of_count hp] at ht
  exact hmerged.trans (leafSyms_of_leaves (records_seed h ht))

theorem build_leafSyms_later {s u : State} (h : Inv s) (hp : s.phase ≠ .count) (hu : build s = .ok u) :
    (leafSyms u).Perm (leafSyms s) := by
  obtain ⟨t, ht, hmerged⟩ := build_eq_ok.mp hu
  rcases buildStart_eq_ok.mp ht with ⟨hcount, -⟩ | ⟨-, rfl⟩
  · exact absurd hcount hp
  · exact mergeAll_leafSyms h hmerged

/-- Once leaves are made, only CLEAR changes which symbols they have. -/
theorem bodyOf_leafSyms {i : Instr} {s u : State} (h : Inv s) (hp : s.phase ≠ .count) (hc : i ≠ .clear)
    (hu : bodyOf i s = .ok u) : (leafSyms u).Perm (leafSyms s) := by
  cases i with
  | nop => cases hu; exact .refl _
  | clear => exact absurd rfl hc
  | count y => exact absurd (countBody_eq_ok.mp hu).1 hp
  | loadFreq y => exact absurd (loadFreqBody_eq_ok.mp hu).1 hp
  | seed => exact absurd (seed_eq_ok hu).1 hp
  | merge => exact mergeOne_leafSyms h (mergeBody_eq_ok.mp hu).2
  | build => exact build_leafSyms_later h hp hu
  | buildCode =>
    obtain ⟨t, ht, hu⟩ := andThen_eq_ok.mp hu
    rw [leafSyms_congr (assign_node hu)]
    exact build_leafSyms_later h hp ht
  | assign => exact .of_eq (leafSyms_congr (assign_node (assignBody_eq_ok.mp hu).2))
  | decReset => obtain ⟨-, rfl⟩ := decResetBody_eq_ok.mp hu; exact .refl _
  | readFreq y | readCode y w | decBit b | readNode k | readColl k =>
    exact .of_eq (leafSyms_congr (by rw [bodyOf_readingOnly rfl hu]))

theorem exec_leafSyms {i : Instr} {s t : State} (h : Inv s) (hp : s.phase ≠ .count) (hc : i ≠ .clear)
    (ht : exec i s = .next t) : (leafSyms t).Perm (leafSyms s) := by
  rcases exec_next ht with ⟨u, hu, rfl⟩ | ⟨e, -, rfl⟩
  · exact (bodyOf_leafSyms h hp hc hu : (leafSyms u).Perm (leafSyms s))
  · exact .refl _

/-- Leaves with the symbols `ys`, of which there is one, last through any commands but CLEAR. -/
theorem execSeq_leafSyms {is : List Instr} {s t : State} {ys : List Sym} (h : Inv s) (hne : ys ≠ [])
    (hs : (leafSyms s).Perm ys) (hc : .clear ∉ is) (ht : execSeq is s = .next t) :
    Inv t ∧ (leafSyms t).Perm ys := by
  induction is generalizing s with
  | nil => cases ht; exact ⟨h, hs⟩
  | cons i is ih =>
    obtain ⟨hi, his⟩ := not_or.mp (List.mem_cons.not.mp hc)
    rw [execSeq] at ht
    split at ht
    next u hu =>
      have hp : s.phase ≠ .count := fun hp => hne (List.nil_perm.mp (h.leafSyms_count hp ▸ hs))
      exact ih (exec_inv h hu) ((exec_leafSyms h hp (Ne.symm hi) hu).trans hs) his ht
    · cases ht
    · cases ht

/-- SEED, BUILD and BUILD_CODE make a leaf for each present symbol. -/
theorem exec_leafSyms_count {i : Instr} {s : State} (h : Inv s) (hp : s.phase = .count)
    (hi : i = .seed ∨ i = .build ∨ i = .buildCode) (hone : 1 ≤ presentCount s) :
    ∃ u, exec i s = .next u ∧ (leafSyms u).Perm (presentSyms s) := by
  rcases hi with rfl | hi
  · obtain ⟨u, hu⟩ := seed_isOk hp hone
    have hperm := leafSyms_of_leaves (records_seed h hu)
    exact ⟨_, exec_of_ok (i := .seed) hu, hperm⟩
  · obtain ⟨u, hu⟩ := build_isOk h (.inl ⟨hp, hone⟩)
    have hperm := build_leafSyms_count h hp hu
    rcases hi with rfl | rfl
    · exact ⟨_, exec_of_ok (i := .build) hu, hperm⟩
    · obtain ⟨v, hv⟩ := assign_isOk (build_inv h hu) (.inl (build_phase h hu))
      rw [← leafSyms_congr (assign_node hv)] at hperm
      exact ⟨_, exec_buildCode_eq hu hv, hperm⟩

/-! ### READ_CODE (rule R122) -/

theorem flaggedByte_toNat (flag : Bool) (b : BitVec 8) : (flaggedByte flag b).toNat = flag.toNat * 2 ^ 31 + b.toNat := by
  simp only [flaggedByte, toNat_append_add, BitVec.toNat_ofBool, BitVec.toNat_ofNat]
  omega

theorem valueWord_toNat (v : BitVec 255) (w : BitVec 3) :
    (valueWord v w).toNat = v.toNat / 2 ^ (32 * w.toNat) % 2 ^ 32 := by
  rw [valueWord, BitVec.extractLsb'_toNat, BitVec.toNat_setWidth_of_le (by decide), Nat.shiftRight_eq_div_pow]

end Sys2Proof.Machine

/-! ## The obligations of 42_code_assigner.md -/

namespace Sys2Proof.Machine

/-- Settles O29: a codeword leads to its symbol's leaf, where no path goes on. -/
theorem codewordsArePrefixFree : Obligations.CodewordsArePrefixFree := by
  unfold Obligations.CodewordsArePrefixFree
  intro s y z h hp hne hy hz hprefix
  obtain ⟨i, f, hwi, hi⟩ := h.walk_codeBits hp hy
  obtain ⟨j, g, hwj, hj⟩ := h.walk_codeBits hp hz
  obtain rfl := walk_eq_of_prefix hprefix hwi hi hwj
  cases hi.symm.trans hj
  exact hne rfl

/-- Settles O31: the Kraft sum over the leaves at their depths, which are the lengths of the valid entries. -/
theorem kraftSumIsOne : Obligations.KraftSumIsOne := by
  unfold Obligations.KraftSumIsOne
  intro s h hp
  have hc := h.coll_eq_root (.inr hp)
  obtain ⟨d, hd⟩ := exists_depths h.arena hc
  have hkraft := kraft_leaves h.arena hc hd (len := fun y => (codeAt s y).len.toNat)
    fun i y f hi => assigned_len h.arena hc (h.coded hp) hd hi
  refine sum_two_pow_sub (fun y _ => Nat.le_of_lt_succ (codeAt s y).len.isLt) ?_
  rw [((h.validSyms_perm hp).map _).sum_eq, leafSyms_eq_map, List.map_map]
  exact hkraft

/-- Settles O27: Visit reaches each leaf by its one path and writes the entry there; the others stay as cleared. -/
theorem assignGivesEachLeafItsPath : Obligations.AssignGivesEachLeafItsPath := by
  unfold Obligations.AssignGivesEachLeafItsPath
  refine ⟨decode_encode .assign, fun s htree hcoded => exec_of_cmdError (if_pos ⟨htree, hcoded⟩), fun s h hp => ?_⟩
  have hc := h.coll_eq_root hp
  obtain ⟨u, hu⟩ := assign_isOk h hp
  obtain ⟨c, hv, rfl⟩ := assign_eq_ok.mp hu
  refine ⟨_, exec_of_ok (i := .assign) (assignBody_eq_ok.mpr ⟨hp, hu⟩), fun p i y f hw hi => ?_, fun i y f hi => ?_,
    fun y hy => ?_, rfl⟩
  · obtain ⟨hlen, hentry⟩ := assigned_of_walk h.arena hc hv hw hi
    exact ⟨hlen, pathVal_lt p, hentry⟩
  · exact reached_from_root h.arena hc i (h.arena.lt_nodeCnt hi)
  · rcases assigned_entry hv y with e | ⟨p, i, f, -, hi, -, -⟩
    · exact e
    · exact absurd hi (hy i f)

/-- Settles O28: the guard of READ_CODE's body, and its results as numbers. -/
theorem readCodeShowsTheEntry : Obligations.ReadCodeShowsTheEntry := by
  unfold Obligations.ReadCodeShowsTheEntry
  intro y w s
  refine ⟨?_, fun hp => exec_of_cmdError (if_pos hp), fun hp => ?_⟩
  · rw [BitVec.or_assoc]
    exact decode_or_operandBits (i := .readCode y w) (m := .readCode) rfl (by decide)
  · exact ⟨_, exec_of_ok (i := .readCode y w) (readCodeBody_eq_ok.mpr ⟨hp, rfl⟩), flaggedByte_toNat _ _,
      valueWord_toNat _ _, rfl⟩

/-- Settles O30: the leaves are made for the present symbols and stay, and in CODED they are the valid ones. -/
theorem codeCoversExactlyThePresentSymbols : Obligations.CodeCoversExactlyThePresentSymbols := by
  unfold Obligations.CodeCoversExactlyThePresentSymbols
  intro s t i is h hp hi hc hone ht hcoded y
  obtain ⟨u, hu, hleaves⟩ := exec_leafSyms_count h hp hi hone
  rw [execSeq_cons_of_next hu] at ht
  have hne : presentSyms s ≠ [] := fun e => by simp [presentCount_eq_length, e] at hone
  obtain ⟨hinv, hperm⟩ := execSeq_leafSyms (exec_inv h hu) hne hleaves hc ht
  obtain ⟨-, -, -, -, hvalid⟩ := hinv.phaseTable
  rw [hvalid hcoded y, decide_eq_true_iff, hperm.mem_iff, mem_presentSyms]

end Sys2Proof.Machine

/-! ## Rules of 43_decoder.md: the cursor's way down a finished tree -/

namespace Sys2Proof.Machine

/-! ### The root and the cursor (rules R40, R131) -/

/-- The root of a finished tree is a Leaf exactly when the tree has one leaf (rules R33, R42). -/
theorem Inv.root_isLeaf {s : State} (h : Inv s) (hp : s.phase = .tree ∨ s.phase = .coded) :
    (nodeAt s s.rootIdx).map NodeRec.isLeaf = some (decide (s.nleaf = 1#9)) := by
  obtain ⟨-, -, hdone, -, -⟩ := h.phaseTable
  obtain ⟨hcnt, -, hlast, -, -, -⟩ := hdone hp
  obtain ⟨x, hx⟩ := h.arena.exists_node (i := s.rootIdx) (by rw [BitVec.lt_def]; omega)
  have hside := h.edgesDown _ x hx
  rw [hx, Option.map_some, Option.some_inj, eq_comm]
  cases x with
  | leaf y f =>
    have hlt : s.rootIdx.toNat < s.nleaf.toNat := BitVec.lt_def.mp hside
    refine decide_eq_true (BitVec.eq_of_toNat_eq ?_)
    rw [BitVec.toNat_one (by decide)]
    omega
  | internal l r f =>
    have hle := h.arena.nleaf_le_internal hx
    refine decide_eq_false fun hone => ?_
    rw [hone, BitVec.toNat_one (by decide)] at hcnt hle
    omega

/-- DEC_BIT can move: the tree is finished and its root branches (rule R131). -/
def CanDecode (s : State) : Prop :=
  (s.phase = .tree ∨ s.phase = .coded) ∧ (nodeAt s s.rootIdx).map NodeRec.isLeaf = some false

theorem Inv.canDecode {s : State} (h : Inv s) (hp : s.phase = .tree ∨ s.phase = .coded) (hn : s.nleaf ≠ 1#9) :
    CanDecode s :=
  ⟨hp, by rw [h.root_isLeaf hp, decide_eq_false hn]⟩

theorem Inv.cursor_internal {s : State} (h : Inv s) (hd : CanDecode s) :
    ∃ l r f, nodeAt s s.decCur = some (.internal l r f) := by
  obtain ⟨hp, hroot⟩ := hd
  obtain ⟨-, -, hdone, -, -⟩ := h.phaseTable
  obtain ⟨-, -, -, -, hvalid, -⟩ := hdone hp
  obtain ⟨-, hcur, -⟩ := h.cursor hvalid
  obtain ⟨c, hc, hleaf⟩ := Option.map_eq_some_iff.mp (hcur.trans hroot)
  cases c with
  | leaf y f => cases hleaf
  | internal l r f => exact ⟨l, r, f, hc⟩

/-! ### Paths, branch by branch -/

theorem walk_cons_eq_some {s : State} {i j : NodeIdx} {b : Bool} {p : List Bool} (h : walk s i (b :: p) = some j) :
    ∃ l r f, nodeAt s i = some (.internal l r f) ∧ walk s (if b then r else l) p = some j := by
  rw [walk] at h
  split at h
  next l r f hi => exact ⟨l, r, f, hi, h⟩
  · cases h

theorem walk_congr {s t : State} (h : t.node = s.node) (i : NodeIdx) (p : List Bool) : walk t i p = walk s i p := by
  induction p generalizing i with
  | nil => rfl
  | cons b p ih => simp only [walk, nodeAt_congr h, ih]

/-! ### DEC_BIT (rule R131) -/

theorem decBitBody_degenerate {s : State} (hp : s.phase = .tree ∨ s.phase = .coded)
    (hroot : (nodeAt s s.rootIdx).map NodeRec.isLeaf = some true) (b : Bool) : decBitBody b s = cmdError .degenerate := by
  obtain ⟨root, hx, hleaf⟩ := Option.map_eq_some_iff.mp hroot
  rw [decBitBody, if_neg (not_unfinished_iff.mpr hp), readNodeRec_eq_ok.mpr hx, andThen_ok, if_pos hleaf]

theorem exec_decBit_arrives {s : State} (hd : CanDecode s) {l r : NodeIdx} {f : Freq} {x : NodeRec} {b : Bool}
    (hc : nodeAt s s.decCur = some (.internal l r f)) (hx : nodeAt s (if b then r else l) = some x) :
    exec (.decBit b) s = .next (completed (decArrive s (if b then r else l) x)) := by
  obtain ⟨hp, hroot⟩ := hd
  obtain ⟨root, hrec, hleaf⟩ := Option.map_eq_some_iff.mp hroot
  have hchild : readNodeRec s (branch b (.internal l r f)) = .ok x := readNodeRec_eq_ok.mpr hx
  refine exec_eq_completed ?_
  rw [bodyOf, decBitBody, if_neg (not_unfinished_iff.mpr hp), readNodeRec_eq_ok.mpr hrec, andThen_ok,
    if_neg (by rw [hleaf]; decide), readNodeRec_eq_ok.mpr hc, andThen_ok, hchild, andThen_ok]
  rfl

/-- What an arrival writes, it writes whole: an earlier stop at an Internal node leaves no trace. -/
theorem decArrive_after_internal (s : State) (k j l r : NodeIdx) (f : Freq) (x : NodeRec) :
    completed (decArrive (completed (decArrive s k (.internal l r f))) j x) = completed (decArrive s j x) := by
  cases x <;> rfl

theorem walk_after_arrival (s : State) (k i : NodeIdx) (x : NodeRec) (p : List Bool) :
    walk (completed (decArrive s k x)) i p = walk s i p :=
  walk_congr (by cases x <;> rfl) i p

/-- DEC_BIT over a nonempty path from the cursor is one arrival at the path's end (rule R132). -/
theorem execSeq_decBit {p : List Bool} {s : State} {j : NodeIdx} {x : NodeRec} (hd : CanDecode s) (hp : p ≠ [])
    (hw : walk s s.decCur p = some j) (hx : nodeAt s j = some x) :
    execSeq (p.map .decBit) s = .next (completed (decArrive s j x)) := by
  induction p generalizing s with
  | nil => exact absurd rfl hp
  | cons b p ih =>
    obtain ⟨l, r, f, hc, hw⟩ := walk_cons_eq_some hw
    cases p with
    | nil =>
      cases hw
      exact (execSeq_singleton _ _).trans (exec_decBit_arrives hd hc hx)
    | cons b' q =>
      obtain ⟨l', r', f', hk, -⟩ := walk_cons_eq_some hw
      rw [List.map_cons, execSeq_cons_of_next (exec_decBit_arrives hd hc hk),
        ← decArrive_after_internal s (if b then r else l) j l' r' f' x]
      exact ih hd (List.cons_ne_nil _ _) ((walk_after_arrival ..).trans hw) hx

/-! ### The result of an arrival at a Leaf -/

theorem flaggedByte_true_flag (b : BitVec 8) : (flaggedByte true b).getLsbD 31 = true := by
  rw [flaggedByte, BitVec.getLsbD_append]
  rfl

theorem flaggedByte_byte (flag : Bool) (b : BitVec 8) : (flaggedByte flag b).extractLsb' 0 8 = b :=
  BitVec.extractLsb'_append_eq_right

end Sys2Proof.Machine

/-! ## The obligations of 43_decoder.md -/

namespace Sys2Proof.Machine

/-- Settles O34: the codeword is the path to its leaf, and each proper part of it ends at an Internal node. -/
theorem decodingACodewordGivesItsSymbol : Obligations.DecodingACodewordGivesItsSymbol := by
  unfold Obligations.DecodingACodewordGivesItsSymbol
  intro s y h hp hn hcur hy
  have hd : CanDecode s := h.canDecode (.inr hp) fun e => absurd hn (by rw [e]; decide)
  obtain ⟨i, f, hw, hi⟩ := h.walk_codeBits hp hy
  rw [← hcur] at hw
  refine ⟨fun p q hpq hpne hqne => ?_, ?_⟩
  · rw [hpq, walk_append, Option.bind_eq_some_iff] at hw
    obtain ⟨k, hwp, hwq⟩ := hw
    obtain ⟨b, q, rfl⟩ := List.exists_cons_of_ne_nil hqne
    obtain ⟨l, r, g, hk, -⟩ := walk_cons_eq_some hwq
    exact ⟨_, execSeq_decBit hd hpne hwp hk, rfl, BitVec.getLsbD_zero⟩
  · have hne : codeBits (codeAt s y) ≠ [] := fun e => by
      obtain ⟨l, r, g, hc⟩ := h.cursor_internal hd
      rw [e] at hw
      cases hw
      cases hi.symm.trans hc
    exact ⟨_, execSeq_decBit hd hne hw hi, rfl, flaggedByte_true_flag y, flaggedByte_byte true y, rfl⟩

/-- Settles O33: the two guards of DEC_BIT's body, and an arrival at the chosen child, a Leaf or an Internal node. -/
theorem decBitFollowsOneBranch : Obligations.DecBitFollowsOneBranch := by
  unfold Obligations.DecBitFollowsOneBranch
  refine ⟨decode_encode (.decBit false), decode_encode (.decBit true),
    fun b s htree hcoded => exec_of_cmdError (if_pos ⟨htree, hcoded⟩), fun b s h hp hone => ?_, fun b s h hp hn => ?_⟩
  · have hroot := h.root_isLeaf hp
    rw [decide_eq_true hone] at hroot
    exact exec_of_cmdError (decBitBody_degenerate hp hroot b)
  · have hd := h.canDecode hp hn
    obtain ⟨l, r, f, hc⟩ := h.cursor_internal hd
    obtain ⟨hl, hr⟩ := h.arena.children_lt hc
    have hchild : (if b then r else l) < s.decCur := by cases b <;> assumption
    obtain ⟨x, hx⟩ := h.arena.exists_node (BitVec.lt_trans hchild (h.arena.lt_nodeCnt hc))
    have hexec := exec_decBit_arrives hd hc hx
    refine ⟨l, r, f, _, hc, rfl, ?_⟩
    cases x with
    | leaf y g =>
      exact .inl ⟨y, g, _, hx, hexec, flaggedByte_toNat true y, BitVec.toNat_setWidth_of_le (by decide), rfl⟩
    | internal l' r' g => exact .inr ⟨l', r', g, _, hx, hexec, BitVec.toNat_setWidth_of_le (by decide), rfl⟩

/-- Settles O32: the guard of DEC_RESET's body, and its write of the cursor. -/
theorem decResetReturnsToTheRoot : Obligations.DecResetReturnsToTheRoot := by
  unfold Obligations.DecResetReturnsToTheRoot
  refine ⟨decode_encode .decReset, fun s => ⟨fun htree hcoded => ?_, fun hp => ?_⟩⟩
  · exact exec_of_cmdError (if_pos ⟨htree, hcoded⟩)
  · exact exec_of_ok (i := .decReset) (decResetBody_eq_ok.mpr ⟨hp, rfl⟩)

end Sys2Proof.Machine

/-! ## Rules of 44_inspection.md: node records and entries of the collection shown in RESULT0..2 -/

namespace Sys2Proof.Machine

/-! ### The results as numbers (rules R140, R141) -/

/-- RESULT0 of READ_NODE: the symbol of a Leaf; KIND, RIGHT and LEFT of an Internal node. -/
theorem nodeShape_toNat (x : NodeRec) :
    (nodeShape x).toNat = match x with
      | .leaf y _ => y.toNat
      | .internal l r _ => 2 ^ 31 + r.toNat * 2 ^ 16 + l.toNat := by
  cases x with
  | leaf y f =>
    simp only [nodeShape, toNat_append_add, BitVec.toNat_ofNat, BitVec.toNat_setWidth_of_le (by decide : 8 ≤ 9)]
    omega
  | internal l r f =>
    simp only [nodeShape, toNat_append_add, BitVec.toNat_ofNat]
    omega

theorem freqLow_toNat (f : Freq) : (freqLow f).toNat = f.toNat % 2 ^ 32 := by
  rw [freqLow, BitVec.extractLsb'_toNat, Nat.shiftRight_zero]

/-- No bit of FREQ is lost above RESULT2: FREQ has 40. -/
theorem freqHigh_toNat (f : Freq) : (freqHigh f).toNat = f.toNat / 2 ^ 32 := by
  rw [freqHigh, BitVec.toNat_setWidth_of_le (by decide), BitVec.extractLsb'_toNat, Nat.shiftRight_eq_div_pow,
    Nat.mod_eq_of_lt (by omega)]

/-! ### The commands (rules R140, R141) -/

theorem readNodeBody_of_node {s : State} {i : NodeIdx} {x : NodeRec} (hi : i < s.nodeCnt) (hx : nodeAt s i = some x) :
    readNodeBody i s = .ok (writeResults s (nodeShape x) (freqLow x.freq) (freqHigh x.freq)) := by
  rw [readNodeBody, if_neg (BitVec.not_le.mpr hi), readNodeRec_eq_ok.mpr hx, andThen_ok]

theorem readCollBody_of_none {s : State} {k : NodeIdx} (hk : collAt s k = none) :
    readCollBody k s = cmdError .badIndex := by
  rw [readCollBody, hk]

theorem readCollBody_of_entry {s : State} {k j : NodeIdx} {x : NodeRec} (hk : collAt s k = some j)
    (hx : nodeAt s j = some x) :
    readCollBody k s = .ok (writeResults s (j.setWidth 32) (freqLow x.freq) (freqHigh x.freq)) := by
  simp only [readCollBody, hk, readNodeRec_eq_ok.mpr hx, andThen_ok]

/-- A command that shows word `w` and the frequency `f`: the three results, and the frame. -/
theorem exec_of_writeResults {i : Instr} {s : State} {w : Word} {f : Freq}
    (h : bodyOf i s = .ok (writeResults s w (freqLow f) (freqHigh f))) :
    ∃ t, exec i s = .next t ∧ t.result0 = w ∧ t.result1.toNat = f.toNat % 2 ^ 32 ∧ t.result2.toNat = f.toNat / 2 ^ 32 ∧
      t = { s with result0 := t.result0, result1 := t.result1, result2 := t.result2, err := .ok, busy := false } :=
  ⟨_, exec_of_ok h, rfl, freqLow_toNat f, freqHigh_toNat f, rfl⟩

end Sys2Proof.Machine

/-! ## The obligations of 44_inspection.md -/

namespace Sys2Proof.Machine

/-- Settles O35: the guard of READ_NODE's body, and below it the record every allocated index holds (rule R32). -/
theorem readNodeShowsTheRecord : Obligations.ReadNodeShowsTheRecord := by
  unfold Obligations.ReadNodeShowsTheRecord
  refine ⟨fun i => decode_or_operandBits (i := .readNode i) (m := .readNode) rfl (by decide),
    fun i s hi => exec_of_cmdError (if_pos hi), fun i s h hi => ?_⟩
  obtain ⟨x, hx⟩ := h.arena.exists_node hi
  obtain ⟨t, ht, hshape, hfreq⟩ := exec_of_writeResults (i := .readNode i) (readNodeBody_of_node hi hx)
  exact ⟨x, t, hx, ht, (congrArg BitVec.toNat hshape).trans (nodeShape_toNat x), hfreq⟩

/-- Settles O36: no entry at or above COLL_LEN; below it, an entry is an allocated node (rule R38), which holds a record. -/
theorem readCollShowsTheEntry : Obligations.ReadCollShowsTheEntry := by
  unfold Obligations.ReadCollShowsTheEntry
  refine ⟨fun k => decode_or_operandBits (i := .readColl k) (m := .readColl) rfl (by decide),
    fun k s hk => exec_of_cmdError (readCollBody_of_none (List.getElem?_eq_none hk)), fun k s h hk => ?_⟩
  have hj : s.coll[k.toNat]? = some s.coll[k.toNat] := List.getElem?_eq_getElem hk
  obtain ⟨x, hx⟩ := h.arena.exists_node (h.arena.lt_of_mem_coll (List.getElem_mem hk))
  obtain ⟨t, ht, hindex, hfreq⟩ := exec_of_writeResults (i := .readColl k) (readCollBody_of_entry hj hx)
  exact ⟨_, x, t, hj, hx, ht, (congrArg BitVec.toNat hindex).trans (BitVec.toNat_setWidth_of_le (by decide)), hfreq⟩

end Sys2Proof.Machine

/-! ## Rules of 45_control.md and of rule R44: what reset and CLEAR leave -/

namespace Sys2Proof.Machine

/-- `t` is the reset state but for DATA_IN, PEND and the host's side: what the two columns of rule R44 have in common. -/
def AtResetValues (t : State) : Prop :=
  t = { State.reset with
    dataIn := t.dataIn, pend := t.pend, script := t.script, sched := t.sched, reads := t.reads, missed := t.missed,
    draws := t.draws }

theorem atResetValues_reset : AtResetValues State.reset := rfl

/-- CLEAR writes every item of rule R44 but DATA_IN and PEND, and never the host's side (rule R151). -/
theorem exec_clear (s : State) :
    exec .clear s =
      .next { State.reset with
        dataIn := s.dataIn, pend := s.pend, script := s.script, sched := s.sched, reads := s.reads, missed := s.missed,
        draws := s.draws } :=
  exec_of_ok (i := .clear) (u := clearAll s) rfl

theorem atResetValues_of_exec_clear {s t : State} (h : exec .clear s = .next t) : AtResetValues t := by
  cases (exec_clear s).symm.trans h
  rfl

end Sys2Proof.Machine

/-! ## The obligations of 45_control.md -/

namespace Sys2Proof.Machine

/-- Settles O10: NOP's body answers the state it is given, so only the completion writes. -/
theorem nopOnlyClearsErr : Obligations.NopOnlyClearsErr := by
  unfold Obligations.NopOnlyClearsErr
  exact ⟨decode_encode .nop, fun s => exec_of_ok (i := .nop) rfl⟩

/-- Settles O11: reset and CLEAR both leave `AtResetValues`, which says every value of rule R44. -/
theorem resetAndClearValues : Obligations.ResetAndClearValues := by
  unfold Obligations.ResetAndClearValues
  refine ⟨decode_encode .clear, fun s => ⟨_, exec_clear s, rfl⟩, fun t ht => ?_, rfl, fun r => ?_⟩
  · have h : AtResetValues t := by
      rcases ht with rfl | ⟨s, hs⟩
      · exact atResetValues_reset
      · exact atResetValues_of_exec_clear hs
    rw [h]
    exact ⟨rfl, rfl, rfl, rfl, rfl, rfl, rfl, freqAt_of_freqZero rfl, nodeAt_reset, rfl, rfl, rfl, rfl, rfl,
      codeAt_of_codeClear rfl, rfl⟩
  · rw [readData_idle rfl]
    cases r <;> rfl

end Sys2Proof.Machine

/-! ## Rules R160 to R165 of 60_exceptions.md: which error a command completes with, and that nothing else stops it -/

namespace Sys2Proof.Machine

/-! ### Legal phases (rule R164) -/

/-- The rows of the phase legality table, as the guards of the bodies read them. -/
def LegalPhase : Instr → Phase → Prop
  | .nop, _ | .clear, _ | .readNode _, _ | .readColl _, _ => True
  | .count _, p | .loadFreq _, p | .readFreq _, p | .seed, p => p = .count
  | .merge, p => p = .forest
  | .build, p | .buildCode, p => p = .count ∨ p = .forest
  | .assign, p | .decReset, p | .decBit _, p => p = .tree ∨ p = .coded
  | .readCode _ _, p => p = .coded

theorem legalIn_iff (i : Instr) (p : Phase) : legalIn i p = true ↔ LegalPhase i p := by
  cases i <;> cases p <;> simp [legalIn, LegalPhase]

theorem build_of_not_legal {s : State} (h : ¬ (s.phase = .count ∨ s.phase = .forest)) : build s = cmdError .badPhase :=
  build_of_finished (by cases hp : s.phase <;> simp_all)

/-- Outside its legal phases every command meets its guard first (rule R163). -/
theorem bodyOf_of_not_legal {i : Instr} {s : State} (h : ¬ LegalPhase i s.phase) : bodyOf i s = cmdError .badPhase := by
  cases i with
  | nop | clear | readNode k | readColl k => exact absurd trivial h
  | count y | loadFreq y | readFreq y | seed | merge | readCode y w => exact if_pos h
  | assign | decReset | decBit b => exact if_pos (not_or.mp h)
  | build => exact build_of_not_legal h
  | buildCode => exact congrArg (andThen · assign) (build_of_not_legal h)

/-! ### A command's own errors (rules R160, R163) -/

/-- The conditions a command tests after its phase, each with its code (rule R163, items 3 and 4). -/
def OwnError : Instr → State → ErrCode → Prop
  | .count y, s, e => freqAt s y = 0xFFFFFFFF#32 ∧ e = .countOvf
  | .seed, s, e | .build, s, e | .buildCode, s, e => (s.phase = .count ∧ presentCount s = 0) ∧ e = .emptyAlphabet
  | .decBit _, s, e => (nodeAt s s.rootIdx).map NodeRec.isLeaf = some true ∧ e = .degenerate
  | .readNode k, s, e => s.nodeCnt ≤ k ∧ e = .badIndex
  | .readColl k, s, e => collAt s k = none ∧ e = .badIndex
  | .nop, _, _ | .clear, _, _ | .loadFreq _, _, _ | .readFreq _, _, _ | .merge, _, _ | .assign, _, _
  | .readCode _ _, _, _ | .decReset, _, _ => False

theorem OwnError.ne_badPhase {i : Instr} {s : State} {e : ErrCode} (h : OwnError i s e) : e ≠ .badPhase := by
  cases i with
  | count y | seed | build | buildCode | decBit b | readNode k | readColl k => obtain ⟨-, rfl⟩ := h; decide
  | nop | clear | loadFreq y | readFreq y | merge | assign | readCode y w | decReset => cases h

/-- The error a completion step reports: BAD_PHASE before the command's own (rule R163). -/
def Raises (i : Instr) (s : State) (e : ErrCode) : Prop :=
  (¬ LegalPhase i s.phase ∧ e = .badPhase) ∨ (LegalPhase i s.phase ∧ OwnError i s e)

/-- No error depends on ERR or BUSY. -/
theorem Raises.with_err_busy {i : Instr} {s : State} {e : ErrCode} (h : Raises i s e) (e' : ErrCode) (b : Bool) :
    Raises i { s with err := e', busy := b } e := by
  cases i <;> exact h

theorem raises_badPhase_iff {i : Instr} {s : State} : Raises i s .badPhase ↔ ¬ LegalPhase i s.phase := by
  constructor
  · rintro (⟨hl, -⟩ | ⟨-, ho⟩)
    · exact hl
    · exact absurd rfl ho.ne_badPhase
  · exact fun hl => .inl ⟨hl, rfl⟩

/-! ### The bodies raise exactly these -/

theorem ok_ne_cmdError {α : Type} (a : α) (e : ErrCode) : (.ok a : Exec α) ≠ cmdError e := nofun

theorem cmdError_eq_cmdError {α : Type} {e e' : ErrCode} : (cmdError e' : Exec α) = cmdError e ↔ e = e' := by
  simp [cmdError, eq_comm]

/-- A body whose one guard is all that can raise an error. -/
theorem guard_raises_iff {α : Type} {p : Prop} [Decidable p] {e e' : ErrCode} {x : Exec α} (hx : x ≠ cmdError e) :
    (if p then cmdError e' else x) = cmdError e ↔ p ∧ e = e' := by
  simp [guarded_eq_cmdError, hx]

/-- A sequence whose rest raises no error raises what its first part does. -/
theorem andThen_raises_iff {α β : Type} {x : Exec α} {f : α → Exec β} {e : ErrCode} (hf : ∀ a, f a ≠ cmdError e) :
    andThen x f = cmdError e ↔ x = cmdError e := by
  refine andThen_eq_error.trans (or_iff_left ?_)
  rintro ⟨a, -, h⟩
  exact hf a h

/-- Reading a record raises no error of its own (rule R32). -/
theorem andThen_readNodeRec_ne_cmdError {α : Type} {s : State} {i : NodeIdx} {f : NodeRec → Exec α} {e : ErrCode}
    (hf : ∀ r, f r ≠ cmdError e) : andThen (readNodeRec s i) f ≠ cmdError e :=
  mt (andThen_raises_iff hf).mp (readNodeRec_ne_cmdError s i e)

theorem guarded_ne_cmdError {α : Type} {p : Prop} [Decidable p] {e e' : ErrCode} {x : Exec α} (hp : ¬ p)
    (hx : x ≠ cmdError e) : (if p then cmdError e' else x) ≠ cmdError e := by
  rwa [if_neg hp]

theorem countBody_eq_cmdError {y : Sym} {s : State} {e : ErrCode} (hp : s.phase = .count) :
    countBody y s = cmdError e ↔ freqAt s y = 0xFFFFFFFF#32 ∧ e = .countOvf := by
  rw [countBody, if_neg (not_not_intro hp)]
  exact guard_raises_iff (ok_ne_cmdError _ e)

theorem seed_eq_cmdError {s : State} {e : ErrCode} (hp : s.phase = .count) :
    seed s = cmdError e ↔ (s.phase = .count ∧ presentCount s = 0) ∧ e = .emptyAlphabet := by
  by_cases hn : presentCount s = 0
  · simp only [seed_of_none hp (presentSyms_eq_nil hn), cmdError_eq_cmdError, hp, hn, true_and]
  · obtain ⟨t, ht⟩ := seed_isOk hp (Nat.one_le_iff_ne_zero.mpr hn)
    simp only [ht, ok_ne_cmdError, hn, and_false, false_and]

/-- BUILD and its merges raise what its SEED does (rules R104, R108). -/
theorem build_eq_cmdError {s : State} {e : ErrCode} (hp : s.phase = .count ∨ s.phase = .forest) :
    build s = cmdError e ↔ (s.phase = .count ∧ presentCount s = 0) ∧ e = .emptyAlphabet := by
  refine (andThen_raises_iff fun t => mergeAll_ne_cmdErr _ t e).trans ?_
  rcases hp with hp | hp
  · rw [buildStart_of_count hp, seed_eq_cmdError hp]
  · simp [buildStart, hp, ok_ne_cmdError]

/-- Past its phase DEC_BIT raises an error at a root that is a Leaf, and nowhere else (rule R131). -/
theorem decBitBody_eq_cmdError {b : Bool} {s : State} {e : ErrCode} (hp : s.phase = .tree ∨ s.phase = .coded) :
    decBitBody b s = cmdError e ↔ (nodeAt s s.rootIdx).map NodeRec.isLeaf = some true ∧ e = .degenerate := by
  rw [decBitBody, if_neg (not_unfinished_iff.mpr hp), readNodeRec]
  cases nodeAt s s.rootIdx with
  | none => exact iff_of_false nofun nofun
  | some root =>
    rw [Option.map_some, Option.some_inj]
    exact guard_raises_iff <| andThen_readNodeRec_ne_cmdError fun c =>
      andThen_readNodeRec_ne_cmdError fun r => ok_ne_cmdError _ e

theorem readCollBody_eq_cmdError {k : NodeIdx} {s : State} {e : ErrCode} :
    readCollBody k s = cmdError e ↔ collAt s k = none ∧ e = .badIndex := by
  rw [readCollBody]
  cases collAt s k with
  | none => exact cmdError_eq_cmdError.trans (and_iff_right rfl).symm
  | some j => exact iff_of_false (andThen_readNodeRec_ne_cmdError fun x => ok_ne_cmdError _ e) nofun

/-- In a legal phase a command raises its own errors only. -/
theorem bodyOf_eq_cmdError_of_legal {i : Instr} {s : State} {e : ErrCode} (hl : LegalPhase i s.phase) :
    bodyOf i s = cmdError e ↔ OwnError i s e := by
  cases i with
  | nop | clear => exact iff_of_false (ok_ne_cmdError _ e) id
  | count y => exact countBody_eq_cmdError hl
  | loadFreq y | readFreq y | readCode y w =>
    exact iff_of_false (guarded_ne_cmdError (not_not_intro hl) (ok_ne_cmdError _ e)) id
  | seed => exact seed_eq_cmdError hl
  | merge => exact iff_of_false (guarded_ne_cmdError (not_not_intro hl) (mergeOne_ne_cmdErr s e)) id
  | build => exact build_eq_cmdError hl
  | buildCode => exact (andThen_raises_iff fun t => assign_ne_cmdErr t e).trans (build_eq_cmdError hl)
  | assign => exact iff_of_false (guarded_ne_cmdError (not_unfinished_iff.mpr hl) (assign_ne_cmdErr s e)) id
  | decReset => exact iff_of_false (guarded_ne_cmdError (not_unfinished_iff.mpr hl) (ok_ne_cmdError _ e)) id
  | decBit b => exact decBitBody_eq_cmdError hl
  | readNode k => exact guard_raises_iff (andThen_readNodeRec_ne_cmdError fun x => ok_ne_cmdError _ e)
  | readColl k => exact readCollBody_eq_cmdError

theorem bodyOf_eq_cmdError {i : Instr} {s : State} {e : ErrCode} : bodyOf i s = cmdError e ↔ Raises i s e := by
  by_cases hl : LegalPhase i s.phase
  · simp only [Raises, hl, bodyOf_eq_cmdError_of_legal hl, not_true_eq_false, false_and, true_and, false_or]
  · simp only [Raises, hl, bodyOf_of_not_legal hl, cmdError_eq_cmdError, not_false_eq_true, true_and, false_and,
      or_false]

theorem exec_of_raises {i : Instr} {s : State} {e : ErrCode} (h : Raises i s e) :
    exec i s = .next { s with err := e, busy := false } :=
  exec_of_cmdError (bodyOf_eq_cmdError.mpr h)

/-- A completion step that leaves a code other than OK wrote that code and BUSY, and nothing else (rule R162). -/
theorem raises_of_exec {i : Instr} {s t : State} (h : exec i s = .next t) (ht : t.err ≠ .ok) :
    Raises i s t.err ∧ t = { s with err := t.err, busy := false } := by
  rw [exec_eq_completion] at h
  rcases completion_next h with ⟨u, -, rfl⟩ | ⟨e, he, rfl⟩
  · exact absurd rfl ht
  · exact ⟨bodyOf_eq_cmdError.mp he, rfl⟩

theorem exec_badPhase_iff {i : Instr} {s : State} :
    exec i s = .next { s with err := .badPhase, busy := false } ↔ legalIn i s.phase = false := by
  rw [← Bool.not_eq_true, legalIn_iff, ← raises_badPhase_iff]
  exact ⟨fun h => (raises_of_exec h nofun).1, exec_of_raises⟩

theorem exec_err_listed {i : Instr} {s t : State} (h : exec i s = .next t) : t.err = .ok ∨ t.err ∈ raisable i := by
  rcases exec_next h with ⟨u, -, rfl⟩ | ⟨e, he, rfl⟩
  · exact .inl rfl
  · exact .inr he

theorem illegalCmd_not_raisable (i : Instr) : ErrCode.illegalCmd ∉ raisable i := by
  cases i <;> simp [raisable]

/-- No command that decodes completes with ILLEGAL_CMD (rules R74, R160). -/
theorem exec_ne_illegalCmd {i : Instr} {s t : State} (h : exec i s = .next t) : t.err ≠ .illegalCmd := fun ht => by
  have hlisted := exec_err_listed h
  rw [ht] at hlisted
  exact illegalCmd_not_raisable i (hlisted.resolve_left nofun)

/-! ### Phase transitions (rule R164) -/

/-- The merge of the last two nodes makes the root (rules R102, R103). -/
theorem mergeOne_phase_of_two {s t : State} (h : Inv s) (hp : s.phase = .forest) (ht : mergeOne s = .ok t)
    (htwo : collLen s = 2) : t.phase = .tree := by
  refine (mergeOne_phase hp ht).resolve_left fun hf => ?_
  obtain ⟨-, hforest, -⟩ := (mergeOne_inv h hp ht).phaseTable
  obtain ⟨-, htwo' : 2 ≤ collLen t, -⟩ := hforest hf
  have hlen := mergeOne_collLen ht
  omega

theorem assign_phase {s u : State} (hu : assign s = .ok u) : u.phase = .coded := by
  obtain ⟨c, -, rfl⟩ := assign_eq_ok.mp hu
  rfl

/-- A read-type command leaves PHASE (rule R26). -/
theorem bodyOf_phase_of_read {i : Instr} {s u : State} (hi : isReadType i = true) (h : bodyOf i s = .ok u) :
    u.phase = s.phase := by
  rw [bodyOf_readingOnly hi h]

/-! ### No command faults under the invariant (rules R161, R165) -/

/-- DEC_BIT's cursor is an Internal node, whose children are allocated (rules R38, R40). -/
theorem decBitBody_isOk {s : State} (h : Inv s) (hd : CanDecode s) (b : Bool) : ∃ u, decBitBody b s = .ok u := by
  obtain ⟨l, r, f, hc⟩ := h.cursor_internal hd
  obtain ⟨hl, hr⟩ := h.arena.children_lt hc
  have hchild : (if b then r else l) < s.decCur := by cases b <;> assumption
  obtain ⟨x, hx⟩ := h.arena.exists_node (BitVec.lt_trans hchild (h.arena.lt_nodeCnt hc))
  obtain ⟨u, hu, -⟩ := exec_next_of_ok (exec_decBit_arrives hd hc hx) rfl
  exact ⟨u, hu⟩

/-- Without EMPTY_ALPHABET a build in a legal phase can start (rules R104, R108). -/
theorem canBuild_of_legal {s : State} (hp : s.phase = .count ∨ s.phase = .forest)
    (hn : ¬ (s.phase = .count ∧ presentCount s = 0)) : CanBuild s :=
  hp.imp_left fun hp => ⟨hp, Nat.one_le_iff_ne_zero.mpr fun h0 => hn ⟨hp, h0⟩⟩

/-- Where a command raises no error its body succeeds: no read, selection or allocation of the model fails. -/
theorem bodyOf_isOk {i : Instr} {s : State} (h : Inv s) (hl : LegalPhase i s.phase) (ho : ∀ e, ¬ OwnError i s e) :
    ∃ u, bodyOf i s = .ok u := by
  cases i with
  | nop | clear => exact ⟨_, rfl⟩
  | count y => exact ⟨_, countBody_eq_ok.mpr ⟨hl, fun hfull => ho _ ⟨hfull, rfl⟩, rfl⟩⟩
  | loadFreq y => exact ⟨_, loadFreqBody_eq_ok.mpr ⟨hl, rfl⟩⟩
  | readFreq y => exact ⟨_, readFreqBody_eq_ok.mpr ⟨hl, rfl⟩⟩
  | seed => exact seed_isOk hl (Nat.one_le_iff_ne_zero.mpr fun hn => ho _ ⟨⟨hl, hn⟩, rfl⟩)
  | merge =>
    obtain ⟨t, ht⟩ := mergeOne_isOk h hl
    exact ⟨t, mergeBody_eq_ok.mpr ⟨hl, ht⟩⟩
  | build => exact build_isOk h (canBuild_of_legal hl fun hn => ho _ ⟨hn, rfl⟩)
  | buildCode =>
    obtain ⟨t, ht⟩ := build_isOk h (canBuild_of_legal hl fun hn => ho _ ⟨hn, rfl⟩)
    obtain ⟨u, hu⟩ := assign_isOk (build_inv h ht) (.inl (build_phase h ht))
    exact ⟨u, andThen_eq_ok.mpr ⟨t, ht, hu⟩⟩
  | assign =>
    obtain ⟨u, hu⟩ := assign_isOk h hl
    exact ⟨u, assignBody_eq_ok.mpr ⟨hl, hu⟩⟩
  | readCode y w => exact ⟨_, readCodeBody_eq_ok.mpr ⟨hl, rfl⟩⟩
  | decReset => exact ⟨_, decResetBody_eq_ok.mpr ⟨hl, rfl⟩⟩
  | decBit b =>
    refine decBitBody_isOk h (h.canDecode hl fun hone => ho _ ⟨?_, rfl⟩) b
    rw [h.root_isLeaf hl, decide_eq_true hone]
  | readNode k =>
    have hk : k < s.nodeCnt := BitVec.not_le.mp fun hk => ho _ ⟨hk, rfl⟩
    obtain ⟨x, hx⟩ := h.arena.exists_node hk
    exact ⟨_, readNodeBody_of_node hk hx⟩
  | readColl k =>
    obtain ⟨j, hj⟩ := Option.ne_none_iff_exists'.mp fun hk => ho _ ⟨hk, rfl⟩
    obtain ⟨x, hx⟩ := h.arena.exists_node (h.arena.lt_of_mem_coll (List.mem_of_getElem? hj))
    exact ⟨_, readCollBody_of_entry hj hx⟩

theorem exec_isNext {s : State} (h : Inv s) (i : Instr) : ∃ t, exec i s = .next t := by
  by_cases he : ∃ e, Raises i s e
  · obtain ⟨e, he⟩ := he
    exact ⟨_, exec_of_raises he⟩
  · have hl : LegalPhase i s.phase := by_contra fun hl => he ⟨_, .inl ⟨hl, rfl⟩⟩
    obtain ⟨u, hu⟩ := bodyOf_isOk h hl fun e ho => he ⟨e, .inr ⟨hl, ho⟩⟩
    exact ⟨_, exec_of_ok hu⟩

theorem completionStep_isNext {s : State} (h : Inv s) : ∃ t, completionStep s = .next t := by
  cases hd : decode s.pend.word with
  | ok i =>
    rw [completionStep_of_decode hd]
    exact exec_isNext h i
  | error e => exact ⟨_, completionStep_of_error hd⟩

/-- A host line gives a next state, but for an access that is not admitted (rule R53). -/
theorem hostMove_next_or_decErr (l : HostLine) (s : State) :
    (∃ t, hostMove l s = .next t) ∨ hostMove l s = .fault .decErr := by
  cases l with
  | access a =>
    by_cases ha : a.admitted.isSome = true
    · exact .inl (access_of_admitted ha s).2
    · exact .inr (access_of_not_admitted ha s).2
  | poll => rw [hostMove]; split <;> exact .inl ⟨_, rfl⟩
  | check e | readLen y | reset => exact .inl ⟨_, rfl⟩

end Sys2Proof.Machine

/-! ## The obligations of 60_exceptions.md -/

namespace Sys2Proof.Machine

/-- Settles O6: the error raised depends on neither ERR nor BUSY, which are all that a failure writes. -/
theorem failedCommandChangesOnlyErr : Obligations.FailedCommandChangesOnlyErr := by
  unfold Obligations.FailedCommandChangesOnlyErr
  intro i s t h ht
  obtain ⟨he, hframe⟩ := raises_of_exec h ht
  refine ⟨hframe, ?_⟩
  have hagain := exec_of_raises (he.with_err_busy t.err false)
  rwa [← hframe] at hagain

/-- Settles O7: the guards on PHASE are the table's rows, and each body that succeeds leaves the phase listed for it. -/
theorem phaseLegalityAndTransitions : Obligations.PhaseLegalityAndTransitions := by
  unfold Obligations.PhaseLegalityAndTransitions
  refine ⟨fun i s => exec_badPhase_iff, fun i s t h ht hok => ?_⟩
  obtain ⟨u, hu, htu⟩ := exec_next_of_ok ht hok
  have hphase : t.phase = u.phase := by rw [htu]
  rw [hphase]
  cases i with
  | nop | clear => cases hu; rfl
  | count y => obtain ⟨-, -, rfl⟩ := countBody_eq_ok.mp hu; rfl
  | loadFreq y => obtain ⟨-, rfl⟩ := loadFreqBody_eq_ok.mp hu; rfl
  | seed => exact ⟨fun hone => (seed_root_of_one hu hone).1, fun htwo => (seed_root_of_many hu htwo).1⟩
  | merge =>
    obtain ⟨hp, hu⟩ := mergeBody_eq_ok.mp hu
    have hlen : collLen u + 1 = s.coll.length := mergeOne_collLen hu
    exact ⟨mergeOne_phase_of_two h hp hu, fun hthree => mergeOne_forest h hp hu (by omega)⟩
  | build => exact build_phase h hu
  | buildCode =>
    obtain ⟨v, -, hu⟩ := andThen_eq_ok.mp hu
    exact assign_phase hu
  | assign => exact assign_phase (assignBody_eq_ok.mp hu).2
  | decReset => obtain ⟨-, rfl⟩ := decResetBody_eq_ok.mp hu; rfl
  | readFreq y | readCode y w | decBit b | readNode k | readColl k => exact bodyOf_phase_of_read rfl hu

/-- Settles O8: a decoded command raises codes of its own, none of them ILLEGAL_CMD, which words of no row get. -/
theorem onlyListedCodesAreRaised : Obligations.OnlyListedCodesAreRaised := by
  unfold Obligations.OnlyListedCodesAreRaised
  refine ⟨fun i s t h => exec_err_listed h, fun s t h => ?_⟩
  cases hd : decode s.pend.word with
  | ok i =>
    rw [completionStep_of_decode hd] at h
    obtain ⟨r, hr, hrw, -⟩ := decode_eq_ok.mp hd
    exact iff_of_false (exec_ne_illegalCmd h) fun hno => hno r hr (beq_iff_eq.mp hrw)
  | error e =>
    cases (completionStep_of_error hd).symm.trans h
    refine iff_of_true rfl fun r hr hrw => ?_
    cases hd.symm.trans (decode_eq_ok.mpr ⟨r, hr, beq_iff_eq.mpr hrw, rfl⟩)

/-- Settles O44: every body succeeds or raises an error, so only a host access that is not admitted faults. -/
theorem onlyTheHostCanFault : Obligations.OnlyTheHostCanFault := by
  unfold Obligations.OnlyTheHostCanFault
  refine ⟨fun i s h => ?_, fun s h => ?_⟩
  · obtain ⟨t, ht⟩ := exec_isNext h i
    exact ⟨t, ht, (exec_hostSide ht).1⟩
  · unfold step
    rcases nextMove_cases s with ⟨q, -, e, -⟩ | ⟨l, rest, q, -, e, -⟩ | ⟨-, -, e⟩ <;> rw [e]
    · exact .inl (completionStep_isNext (h.congr rfl))
    · exact hostMove_next_or_decErr l _
    · exact .inl ⟨s, rfl⟩

end Sys2Proof.Machine

/-! ## Rules R181 and R187 of 70_reset_and_hazards.md: what reset leaves, and that a pending command completes -/

namespace Sys2Proof.Machine

/-! ### Reset, while a command is pending or not (rule R181) -/

/-- When the host moves on a line that asserts `rst`, the step is the reset; only the script and the schedule are used up. -/
theorem step_reset {s : State} {rest : List HostLine} (hs : s.script = .reset :: rest)
    (hturn : s.busy = false ∨ ∃ q, s.sched = .host :: q) :
    ∃ q, step s = .next (hardReset { s with script := rest, sched := q }) := by
  cases hb : s.busy with
  | false => exact ⟨s.sched, step_host_idle hb hs⟩
  | true =>
    obtain ⟨q, hq⟩ := hturn.resolve_left (ne_false_of_eq_true hb)
    exact ⟨q, step_host_busy hb hs hq⟩

/-! ### The completion step ends the pending command (rule R57) -/

/-- No body writes PEND. -/
theorem bodyOf_pend {i : Instr} {s u : State} (h : bodyOf i s = .ok u) : u.pend = s.pend := by
  by_cases hr : isReadType i = true
  · rw [bodyOf_readingOnly hr h]
  · by_cases hc : i = .clear
    · subst hc
      cases h
      rfl
    · obtain ⟨t, c, p, ht, rfl⟩ := bodyOf_treeOnly (Bool.eq_false_iff.mpr hr) hc h
      rw [ht]

theorem exec_pend {i : Instr} {s t : State} (h : exec i s = .next t) : t.pend = s.pend := by
  rcases exec_next h with ⟨u, hu, rfl⟩ | ⟨e, -, rfl⟩
  · exact (bodyOf_pend hu : u.pend = s.pend)
  · rfl

theorem completionStep_completes {s t : State} (h : completionStep s = .next t) : t.busy = false ∧ t.pend = s.pend := by
  cases hd : decode s.pend.word with
  | ok i =>
    rw [completionStep_of_decode hd] at h
    exact ⟨(exec_hostSide h).1, exec_pend h⟩
  | error e =>
    cases (completionStep_of_error hd).symm.trans h
    exact ⟨rfl, rfl⟩

/-! ### A quiet line leaves the pending command pending (rules R58, R189) -/

theorem hostMove_isNext_of_quiet {l : HostLine} (hl : l.isQuiet = true) (s : State) : ∃ t, hostMove l s = .next t := by
  cases l with
  | access a => exact (access_of_admitted hl s).2
  | poll => rw [hostMove]; split <;> exact ⟨_, rfl⟩
  | check e | readLen y => exact ⟨_, rfl⟩
  | reset => cases hl

/-- While BUSY = 1 a register write is dropped or concerns DATA_IN or OVR. -/
theorem writeReg_keeps_pending {s : State} (hb : s.busy = true) (r : Reg) (v : Word) :
    (writeReg r v s).busy = true ∧ (writeReg r v s).pend = s.pend ∧ (writeReg r v s).sched = s.sched ∧
      (writeReg r v s).script = s.script := by
  rcases writeReg_cases r v s with ⟨hidle, -, -⟩ | ⟨-, -, e⟩ | ⟨-, e⟩ | ⟨-, e⟩ | e
  · rw [hb] at hidle
    cases hidle
  all_goals
    rw [e]
    exact ⟨hb, rfl, rfl, rfl⟩

/-- BUSY = 1 in a state of the invariant, and the host will neither assert `rst` nor make an access answered with DECERR. -/
structure PendingQuiet (s : State) : Prop where
  inv : Inv s
  busy : s.busy = true
  quiet : ∀ l ∈ s.script, l.isQuiet = true

/-- The lines a quiet line puts back or puts in are quiet. -/
theorem hostMove_keeps_pending {l : HostLine} {s t : State} (h : hostMove l s = .next t) (hl : l.isQuiet = true)
    (hs : PendingQuiet s) : PendingQuiet t ∧ t.pend = s.pend ∧ t.sched = s.sched := by
  have hinv : Inv t := hostMove_inv hs.inv h
  rcases hostMove_cases h with ⟨a, r, -, -, -, rfl⟩ | ⟨a, r, -, -, -, rfl⟩ | ⟨rest, -, rfl, hrest⟩ | ⟨e, m, -, rfl⟩ |
    ⟨y, -, rfl⟩ | ⟨rfl, -⟩
  · obtain ⟨hb, hpend, hsched, hscript⟩ := writeReg_keeps_pending hs.busy r a.wdata
    exact ⟨⟨hinv, hb, hscript ▸ hs.quiet⟩, hpend, hsched⟩
  · exact ⟨⟨hinv, hs.busy, hs.quiet⟩, rfl, rfl⟩
  · refine ⟨⟨hinv, hs.busy, ?_⟩, rfl, rfl⟩
    rcases hrest with rfl | rfl
    · exact hs.quiet
    · exact List.forall_mem_cons.mpr ⟨rfl, hs.quiet⟩
  · exact ⟨⟨hinv, hs.busy, hs.quiet⟩, rfl, rfl⟩
  · exact ⟨⟨hinv, hs.busy, List.forall_mem_append.mpr ⟨readCodeTail_isQuiet y _, hs.quiet⟩⟩, rfl, rfl⟩
  · cases hl

/-! ### Every accepted command completes (rule R187) -/

/-- A step completes the pending command, or is the host's and uses up an entry of the schedule. -/
theorem step_of_pendingQuiet {s : State} (h : PendingQuiet s) :
    ∃ t, step s = .next t ∧ t.pend = s.pend ∧
      (t.busy = false ∨ PendingQuiet t ∧ t.sched.length < s.sched.length) := by
  unfold step
  rcases nextMove_cases s with ⟨q, -, e, -⟩ | ⟨l, rest, q, hs, e, hturn⟩ | ⟨hidle, -, -⟩
  · obtain ⟨t, ht⟩ := completionStep_isNext (s := { s with sched := q }) (h.inv.congr rfl)
    obtain ⟨hb, hpend⟩ := completionStep_completes ht
    exact ⟨t, by rw [e]; exact ht, hpend, .inl hb⟩
  · obtain ⟨hl, hrest⟩ := List.forall_mem_cons.mp (hs ▸ h.quiet)
    have hq : .host :: q = s.sched := by
      rcases hturn with ⟨hidle, -⟩ | ⟨-, hq⟩
      · cases h.busy.symm.trans hidle
      · exact hq
    have hmoving : PendingQuiet { s with script := rest, sched := q } := ⟨h.inv.congr rfl, h.busy, hrest⟩
    obtain ⟨t, ht⟩ := hostMove_isNext_of_quiet hl { s with script := rest, sched := q }
    obtain ⟨hpending, hpend, hsched⟩ := hostMove_keeps_pending ht hl hmoving
    refine ⟨t, by rw [e]; exact ht, hpend, .inr ⟨hpending, ?_⟩⟩
    rw [hsched, ← hq]
    exact Nat.lt_succ_self q.length
  · cases h.busy.symm.trans hidle

theorem run_completes {s : State} (h : PendingQuiet s) :
    ∃ k t, k ≤ s.sched.length + 1 ∧ Host.Core.run core k s = .next t ∧ t.busy = false ∧ t.pend = s.pend := by
  obtain ⟨u, hu, hpend, hb | ⟨hpending, hshorter⟩⟩ := step_of_pendingQuiet h
  · exact ⟨1, u, Nat.le_add_left 1 _, run_succ_eq_next.mpr ⟨u, hu, rfl⟩, hb, hpend⟩
  · obtain ⟨k, t, hk, ht, hb, hpend'⟩ := run_completes hpending
    exact ⟨k + 1, t, by omega, run_succ_eq_next.mpr ⟨u, hu, ht⟩, hb, hpend'.trans hpend⟩
termination_by s.sched.length

end Sys2Proof.Machine

/-! ## The obligations of 70_reset_and_hazards.md -/

namespace Sys2Proof.Machine

/-- Settles O60: each of the host's steps shortens the schedule and leaves the command pending, and the engine's step
completes it. -/
theorem acceptedCommandsComplete : Obligations.AcceptedCommandsComplete := by
  unfold Obligations.AcceptedCommandsComplete
  exact fun s hinv hb hquiet => run_completes ⟨hinv, hb, hquiet⟩

/-- Settles O56: the step is the reset, after which BUSY = 0 and a machine without a host line is idle. -/
theorem resetAbandonsTheCommand : Obligations.ResetAbandonsTheCommand := by
  unfold Obligations.ResetAbandonsTheCommand
  intro s rest hs hturn
  obtain ⟨q, hstep⟩ := step_reset hs hturn
  exact ⟨_, hstep, rfl, rfl, fun hrest => step_idle rfl hrest⟩

end Sys2Proof.Machine
